-- ==== Sys2Proof/Word.lean ====
section
/-! DEFINITION. The words of the block: bytes, byte strings, one-bit sequence numbers and
transport addresses (00_scope.md R11, R6). -/

namespace Sys2Proof

/-- R11: a byte is 8 bits. -/
abbrev Byte := BitVec 8

/-- R11: a byte string; the head of the list is `w[0]`, the first byte on the wire. -/
abbrev Bytes := List Byte

/-- R6, `SEQ_W = 1`: a sequence number is one bit. -/
abbrev SeqNum := BitVec 1

/-- A transport address. R72, D38: opaque; the block copies addresses and never compares or computes
with them, and its width `ADDR_W` is a parameter. DESIGN CHOICE (notes/assumptions/5.md), safe: a
natural number, cut to `ADDR_W` bits where it enters the block (Config.lean, `Params.addr`). -/
abbrev Addr := Nat

/-- R14: the toggle `v XOR 1` of a one-bit register. -/
def SeqNum.toggle (q : SeqNum) : SeqNum := q ^^^ 1#1

/-- The value of a sequence number as the number 0 or 1 (R140). -/
def SeqNum.value (q : SeqNum) : Nat := q.toNat

end Sys2Proof
end

