-- ==== Sys2Proof/Config.lean ====
section
/-! DEFINITION. The parameters of the block (00_scope.md R6): constants the source states and the
record of the parameters the spec leaves OPEN or gives by default. -/

namespace Sys2Proof
namespace Config

/-- R6, `MSS`: the largest payload of one packet. -/
def mss : Nat := 1000

/-- R6, `HDR_LEN = SEQ_LEN + CKS_LEN`. -/
def hdrLen : Nat := 9

/-- R6, `MAX_DGRAM = HDR_LEN + MSS`: the longest datagram the decoder accepts. -/
def maxDgram : Nat := 1009

/-- R6, `EOF_MARKER`: the 4 bytes `5C 45 4F 46`. -/
def eofMarker : Bytes := [0x5C, 0x45, 0x4F, 0x46]

/-- The parameters of R6 that a model takes as arguments (U1, U2, U4, U5, U6), with the timer's width,
which R6 gives by default only. They stand in State and no step writes them, so a statement about every
state is a statement about every choice of them (notes/assumptions/4.md). -/
structure Params where
  /-- `TX_TIMEOUT` in seconds, "default 1 second". -/
  txTimeout : Nat := 1
  /-- `RX_TIMEOUT` in seconds, "bounded wait (5 seconds)". -/
  rxTimeout : Nat := 5
  /-- `TICK_HZ`: OPEN, default 1000. -/
  tickHz : Nat := 1000
  /-- `TMR_W`: 16 bits by default. -/
  tmrW : Nat := 16
  /-- `ADDR_W`: OPEN, and R6 gives no default; 32 is a DESIGN CHOICE (notes/assumptions/5.md). -/
  addrW : Nat := 32
  /-- `ACK_PAYLOAD`, default the empty byte string. -/
  ackPayload : Bytes := []
  /-- `CHANNEL_DUPLICATES`, default false (D41). -/
  channelDuplicates : Bool := false
  deriving DecidableEq, Repr

/-- R6: `TX_TIMEOUT_TICKS = TX_TIMEOUT * TICK_HZ`, default 1000. -/
def Params.txTimeoutTicks (p : Params) : Nat := p.txTimeout * p.tickHz

/-- R6: `RX_TIMEOUT_TICKS = RX_TIMEOUT * TICK_HZ`, default 5000. -/
def Params.rxTimeoutTicks (p : Params) : Nat := p.rxTimeout * p.tickHz

/-- The constraints R6 puts on the parameters: both tick counts at least 1 and below `2^TMR_W`,
`ACK_PAYLOAD` at most `MSS` bytes and not the EOF marker (R127). -/
def Params.wf (p : Params) : Bool :=
  decide (1 ≤ p.txTimeoutTicks) && decide (1 ≤ p.rxTimeoutTicks) &&
    decide (max p.txTimeoutTicks p.rxTimeoutTicks < 2 ^ p.tmrW) &&
    decide (p.ackPayload.length ≤ mss) && p.ackPayload != eofMarker

/-- An address port has `ADDR_W` bits (R40): the address a number from outside the block stands for. -/
def Params.addr (p : Params) (a : Addr) : Addr := a % 2 ^ p.addrW

end Config
end Sys2Proof
end

