-- ==== Sys2Proof/Syntax.lean ====
section
/-! DEFINITION. The operations of the block: one constructor per row of spec/opcode_table.json, in the
table's order. The block has no instruction words (30_encoding.md); the operations of the two state
machines and of the timers take no operands, the pure functions take theirs. -/

namespace Sys2Proof

/-- One operation of the block. `q` is a sequence number, `c` a checksum token, `p` a payload, `w` the
bytes of a datagram. -/
inductive Instr where
  /-- `ENCODE(s, c, p)`, R120. -/
  | encode (q : SeqNum) (c p : Bytes)
  /-- `DECODE(w)`, R123. -/
  | decode (w : Bytes)
  /-- `MKPKT(s, p)`, R126. -/
  | mkpkt (q : SeqNum) (p : Bytes)
  /-- `ACK(s)`, R127. -/
  | ack (q : SeqNum)
  /-- `EOFPKT(s)`, R128. -/
  | eofpkt (q : SeqNum)
  /-- `CHECKSUM(s, p)`, R140. -/
  | checksum (q : SeqNum) (p : Bytes)
  /-- `VERIFY(s, c, p)`, R143. -/
  | verify (q : SeqNum) (c p : Bytes)
  /-- `PKT_OK(w)`, R146. -/
  | pktOk (w : Bytes)
  /-- `TMR_START`, R161. -/
  | tmrStart
  /-- `TMR_STOP`, R162. -/
  | tmrStop
  /-- `TMR_TICK`, R163. -/
  | tmrTick
  /-- `TMR_IS_RUNNING`, R164. -/
  | tmrIsRunning
  /-- `TMR_HAS_EXPIRED`, R165. -/
  | tmrHasExpired
  /-- `RI_TICK`, R169. -/
  | riTick
  /-- `S_CANCEL`, R188. -/
  | sCancel
  /-- `S_SEND`, R181. -/
  | sSend
  /-- `S_TIMEOUT`, R184. -/
  | sTimeout
  /-- `S_ACK_OK`, R182. -/
  | sAckOk
  /-- `S_ACK_BAD`, R183. -/
  | sAckBad
  /-- `S_RETRANSMIT`, R185. -/
  | sRetransmit
  /-- `S_ADVANCE`, R186. -/
  | sAdvance
  /-- `S_DONE_EOF`, R187. -/
  | sDoneEof
  /-- `R_CANCEL`, R213. -/
  | rCancel
  /-- `R_RECV`, R211. -/
  | rRecv
  /-- `R_IDLE_TIMEOUT`, R212. -/
  | rIdleTimeout
  /-- `R_DROP`, R214. -/
  | rDrop
  /-- `R_EXT`, R215. -/
  | rExt
  /-- `R_DATA`, R217. -/
  | rData
  /-- `R_EOF`, R218. -/
  | rEof
  /-- `R_DUP`, R219. -/
  | rDup
  /-- `R_ACK`, R220. -/
  | rAck
  deriving DecidableEq, Repr

end Sys2Proof
end

