-- ==== Sys2Proof/WellFormed.lean ====
section
/-! DEFINITION. Which operations are within the operand types of their rules: a payload has at most
`MSS` bytes, a checksum token exactly 8 (41_packet_codec.md R120, R126; 42_checksum_unit.md R140,
R143). `DECODE` and `PKT_OK` take any byte string (R123, R146). -/

namespace Sys2Proof

/-- R120: a payload is a byte string of length 0 to `MSS`. -/
def payloadOk (p : Bytes) : Bool := decide (p.length ≤ Config.mss)

/-- R120: a checksum token is a byte string of length exactly 8. -/
def tokenOk (c : Bytes) : Bool := decide (c.length = 8)

/-- An operation whose operands are within their types. -/
def wellFormed (i : Instr) : Bool :=
  match i with
  | .encode _ c p => tokenOk c && payloadOk p
  | .decode _ => true
  | .mkpkt _ p => payloadOk p
  | .ack _ => true
  | .eofpkt _ => true
  | .checksum _ p => payloadOk p
  | .verify _ c p => tokenOk c && payloadOk p
  | .pktOk _ => true
  | .tmrStart => true
  | .tmrStop => true
  | .tmrTick => true
  | .tmrIsRunning => true
  | .tmrHasExpired => true
  | .riTick => true
  | .sCancel => true
  | .sSend => true
  | .sTimeout => true
  | .sAckOk => true
  | .sAckBad => true
  | .sRetransmit => true
  | .sAdvance => true
  | .sDoneEof => true
  | .rCancel => true
  | .rRecv => true
  | .rIdleTimeout => true
  | .rDrop => true
  | .rExt => true
  | .rData => true
  | .rEof => true
  | .rDup => true
  | .rAck => true

end Sys2Proof
end

