-- ==== Sys2Proof/Machine/Wire.lean ====
section
/-! DEFINITION. The pure functions of the block on byte strings: the packet codec
(41_packet_codec.md), the checksum unit (42_checksum_unit.md) and their helpers (00_scope.md R13).
None reads or writes a register. -/

namespace Sys2Proof
namespace Machine

/-! ## The fields of a packet (30_encoding.md R91 to R94) -/

/-- R92: the sequence-number byte, `0x30 + s`. -/
def seqByte (q : SeqNum) : Byte := 0x30 + q.zeroExtend 8

/-- R92: `0x30` gives 0, `0x31` gives 1, every other byte is malformed (D7). -/
def seqOfByte (b : Byte) : Option SeqNum :=
  if b = 0x30 then some 0 else if b = 0x31 then some 1 else none

/-! ## Helper functions (00_scope.md R13) -/

/-- R13: the number of bits of a byte that are 1. -/
def popcount8 (b : Byte) : Nat :=
  (b.getLsbD 0).toNat + (b.getLsbD 1).toNat + (b.getLsbD 2).toNat + (b.getLsbD 3).toNat +
  (b.getLsbD 4).toNat + (b.getLsbD 5).toNat + (b.getLsbD 6).toNat + (b.getLsbD 7).toNat

/-- R13: the sum of `popcount8` over a byte string, 0 for the empty one. -/
def popcount : Bytes → Nat
  | [] => 0
  | b :: p => popcount8 b + popcount p

/-- R13: the byte of `dec8(n)` at offset `k`: `0x30 + ((n div 10^(7-k)) mod 10)`. -/
def digitByte (n k : Nat) : Byte := BitVec.ofNat 8 (0x30 + n / 10 ^ (7 - k) % 10)

/-- R13, R67: the decimal digits of `n`, most significant first, padded with `'0'` on the left to 8
bytes. Used for `n <= 99999999` only (R142: payloads have at most `MSS` bytes, so `n <= 8001`). -/
def dec8 (n : Nat) : Bytes :=
  [digitByte n 0, digitByte n 1, digitByte n 2, digitByte n 3,
   digitByte n 4, digitByte n 5, digitByte n 6, digitByte n 7]

/-! ## The checksum unit (42_checksum_unit.md) -/

/-- R140: the number the token writes, `popcount(p) + s`. -/
def checksumValue (q : SeqNum) (p : Bytes) : Nat := popcount p + q.value

/-- R140, `CHECKSUM(s, p)`. -/
def checksum (q : SeqNum) (p : Bytes) : Bytes := dec8 (checksumValue q p)

/-- R143, `VERIFY(s, c, p)`: equality of two tokens, byte for byte. -/
def verify (q : SeqNum) (c p : Bytes) : Bool := checksum q p == c

/-! ## The packet codec (41_packet_codec.md) -/

/-- What `DECODE` returns when it succeeds: the triple `(s, c, p)`. -/
structure Packet where
  seqNum : SeqNum
  token : Bytes
  payload : Bytes
  deriving DecidableEq, Repr

/-- R120, `ENCODE(s, c, p)`. -/
def encodePacket (q : SeqNum) (c p : Bytes) : Bytes := seqByte q :: (c ++ p)

/-- R123, `DECODE(w)`; `none` is the failure `MalformedPacket`. -/
def decodePacket (w : Bytes) : Option Packet :=
  if w.length < Config.hdrLen then none
  else if Config.maxDgram < w.length then none
  else match w with
    | [] => none
    | b :: rest =>
      match seqOfByte b with
      | none => none
      | some q => some { seqNum := q, token := rest.take 8, payload := rest.drop 8 }

/-- R126, `MKPKT(s, p) = ENCODE(s, CHECKSUM(s, p), p)`. -/
def makePacket (q : SeqNum) (p : Bytes) : Bytes := encodePacket q (checksum q p) p

/-- R127, `ACK(s) = MKPKT(s, ACK_PAYLOAD)`. -/
def ackPacket (params : Config.Params) (q : SeqNum) : Bytes := makePacket q params.ackPayload

/-- R128, `EOFPKT(s) = MKPKT(s, EOF_MARKER)`. -/
def eofPacket (q : SeqNum) : Bytes := makePacket q Config.eofMarker

/-- R146, `PKT_OK(w)`. -/
def packetOk (w : Bytes) : Bool :=
  match decodePacket w with
  | none => false
  | some k => verify k.seqNum k.token k.payload

/-- R95 (a): a payload is the EOF marker exactly when it is those 4 bytes. -/
def isEof (p : Bytes) : Bool := p == Config.eofMarker

end Machine
end Sys2Proof
end

