-- ==== Sys2Proof/Decode.lean ====
section
/-! DEFINITION. The decoder and the encoder. The two select tables (30_encoding.md R101, R102) and the
timer command (R99) are the spec's; the issue record, a tag byte before the spec's own words, is the
model's (DESIGN CHOICE, notes/assumptions/10.md), because most rows of the table share one format or
have none. Words wider than a byte are laid out low byte first, as spec/opcode_table.json numbers
bits. -/

namespace Sys2Proof

/-! ## Select words and the timer command -/

/-- What a select word picks. -/
inductive Selection where
  /-- The operation that fires. -/
  | fire (i : Instr)
  /-- A (hold) row. -/
  | hold
  /-- A (terminal) row. -/
  | terminal
  /-- No row fits: the state codes 5 to 7 (R104), and, for the sender, `ok = 1` with `avail = 0`, a word
  that is never formed (R101: `ok` requires `avail`). -/
  | noRow
  deriving DecidableEq, Repr

/-- One row of a select table: it fits a word `w` when `(w AND mask) == value`. -/
structure SelectRow (n : Nat) where
  mask : BitVec n
  value : BitVec n
  picks : Selection
  deriving DecidableEq, Repr

/-- R101: `(ssel AND mask) == match`. -/
def SelectRow.fits {n : Nat} (r : SelectRow n) (w : BitVec n) : Bool := w &&& r.mask == r.value

/-- The row that fits; the rows of a table are disjoint, so the first is the only one. -/
def pick {n : Nat} (rows : List (SelectRow n)) (w : BitVec n) : Selection :=
  match rows.find? (fun r => r.fits w) with
  | some r => r.picks
  | none => .noRow

/-- R101: the sender's select table. -/
def senderRows : List (SelectRow 9) := [
  ⟨0x110, 0x010, .fire .sCancel⟩,
  ⟨0x1D0, 0x000, .fire .sSend⟩,
  ⟨0x1D4, 0x044, .fire .sTimeout⟩,
  ⟨0x1DF, 0x04B, .fire .sAckOk⟩,
  ⟨0x1DF, 0x04A, .fire .sAckBad⟩,
  ⟨0x1D0, 0x080, .fire .sRetransmit⟩,
  ⟨0x1D0, 0x0C0, .fire .sAdvance⟩,
  ⟨0x1E0, 0x100, .fire .sDoneEof⟩,
  ⟨0x1DF, 0x048, .hold⟩,
  ⟨0x1DC, 0x040, .hold⟩,
  ⟨0x1E0, 0x120, .terminal⟩]

/-- R102: the receiver's select table. -/
def receiverRows : List (SelectRow 10) := [
  ⟨0x3C0, 0x040, .fire .rCancel⟩,
  ⟨0x3E0, 0x020, .fire .rRecv⟩,
  ⟨0x3F0, 0x010, .fire .rIdleTimeout⟩,
  ⟨0x388, 0x080, .fire .rDrop⟩,
  ⟨0x38C, 0x088, .fire .rExt⟩,
  ⟨0x38F, 0x08E, .fire .rData⟩,
  ⟨0x38F, 0x08F, .fire .rEof⟩,
  ⟨0x38E, 0x08C, .fire .rDup⟩,
  ⟨0x380, 0x100, .fire .rAck⟩,
  ⟨0x3F0, 0x000, .hold⟩,
  ⟨0x380, 0x180, .terminal⟩,
  ⟨0x380, 0x200, .terminal⟩]

/-- R101: the sender's operation for a select word. -/
def decodeSsel (w : BitVec 9) : Selection := pick senderRows w

/-- R102: the receiver's operation for a select word. -/
def decodeRsel (w : BitVec 10) : Selection := pick receiverRows w

/-- R99: the timer command; `0b00` is none, `0b11` is reserved (R104). -/
def decodeTcmd (w : BitVec 2) : Selection :=
  if w = 0b01 then .fire .tmrStart
  else if w = 0b10 then .fire .tmrStop
  else if w = 0b00 then .hold
  else .noRow

/-! ## Issue records -/

/-- Why a record decodes to no operation. -/
inductive Reject where
  /-- No byte at all. -/
  | emptyRecord
  /-- The first byte is no tag of the model. -/
  | unknownTag
  /-- The record has the wrong number of bytes for its tag. -/
  | wrongLength
  /-- The words after the tag are not a packet of format `WIRE` (R104). -/
  | malformedWire
  /-- A sequence-number byte other than `0x30`, `0x31` (R92). -/
  | badSequenceByte
  /-- A payload longer than `MSS` (R120). -/
  | payloadTooLong
  /-- A bit above the format's width is 1. -/
  | highBitsSet
  /-- A select word or timer command that names no operation and is legal: a (hold) or (terminal) row,
  `tmr_cmd = 0b00`. -/
  | noOperation
  /-- A reserved code: `s_state` or `r_state` 5 to 7, `tmr_cmd = 0b11` (R104). -/
  | reservedCode
  deriving DecidableEq, Repr

/-- The operation a selection names, or why there is none. -/
def ofSelection (x : Selection) : Except Reject Instr :=
  match x with
  | .fire i => .ok i
  | .hold => .error .noOperation
  | .terminal => .error .noOperation
  | .noRow => .error .reservedCode

/-- A record of `SSEL`: two bytes, the low one first, 9 bits. -/
def decodeSselBytes (body : Bytes) : Except Reject Instr :=
  match body with
  | [lo, hi] => if hi.toNat < 2 then ofSelection (decodeSsel (BitVec.ofNat 9 (lo.toNat + 256 * hi.toNat))) else .error .highBitsSet
  | _ => .error .wrongLength

/-- A record of `RSEL`: two bytes, the low one first, 10 bits. -/
def decodeRselBytes (body : Bytes) : Except Reject Instr :=
  match body with
  | [lo, hi] => if hi.toNat < 4 then ofSelection (decodeRsel (BitVec.ofNat 10 (lo.toNat + 256 * hi.toNat))) else .error .highBitsSet
  | _ => .error .wrongLength

/-- A record of `TCMD`: one byte, 2 bits. -/
def decodeTcmdBytes (body : Bytes) : Except Reject Instr :=
  match body with
  | [b] => if b.toNat < 4 then ofSelection (decodeTcmd (BitVec.ofNat 2 b.toNat)) else .error .highBitsSet
  | _ => .error .wrongLength

/-- Operands laid out as a packet of format `WIRE` (R91): `s`, then 8 bytes `c`, then `p`. -/
def decodeWireBytes (mk : SeqNum → Bytes → Bytes → Instr) (body : Bytes) : Except Reject Instr :=
  match Machine.decodePacket body with
  | some k => .ok (mk k.seqNum k.token k.payload)
  | none => .error .malformedWire

/-- Operands `s` and `p`: the sequence-number byte of R92, then the payload. -/
def decodeSeqPayload (mk : SeqNum → Bytes → Instr) (body : Bytes) : Except Reject Instr :=
  match body with
  | [] => .error .wrongLength
  | b :: p =>
    match Machine.seqOfByte b with
    | none => .error .badSequenceByte
    | some q => if payloadOk p then .ok (mk q p) else .error .payloadTooLong

/-- Operand `s` alone: the sequence-number byte of R92. -/
def decodeSeqOnly (mk : SeqNum → Instr) (body : Bytes) : Except Reject Instr :=
  match body with
  | [b] =>
    match Machine.seqOfByte b with
    | none => .error .badSequenceByte
    | some q => .ok (mk q)
  | _ => .error .wrongLength

/-- No operand: the record is the tag alone. -/
def decodeBare (i : Instr) (body : Bytes) : Except Reject Instr :=
  match body with
  | [] => .ok i
  | _ :: _ => .error .wrongLength

/-- The decoder, total on any bytes. -/
def decode (record : Bytes) : Except Reject Instr :=
  match record with
  | [] => .error .emptyRecord
  | tag :: body =>
    match tag.toNat with
    | 0x01 => decodeWireBytes .encode body
    | 0x02 => .ok (.decode body)
    | 0x03 => decodeSeqPayload .mkpkt body
    | 0x04 => decodeSeqOnly .ack body
    | 0x05 => decodeSeqOnly .eofpkt body
    | 0x06 => decodeSeqPayload .checksum body
    | 0x07 => decodeWireBytes .verify body
    | 0x08 => .ok (.pktOk body)
    | 0x09 => decodeTcmdBytes body
    | 0x0A => decodeBare .tmrTick body
    | 0x0B => decodeBare .tmrIsRunning body
    | 0x0C => decodeBare .tmrHasExpired body
    | 0x0D => decodeBare .riTick body
    | 0x0E => decodeSselBytes body
    | 0x0F => decodeRselBytes body
    | _ => .error .unknownTag

/-! ## The encoder -/

/-- A select word as two bytes, the low one first. -/
def wordBytes (w : Nat) : Bytes := [BitVec.ofNat 8 w, BitVec.ofNat 8 (w / 256)]

/-- A sender select word's record, don't-care bits 0 (the table's match value). -/
def sselRecord (w : Nat) : Bytes := 0x0E :: wordBytes w

/-- A receiver select word's record, don't-care bits 0 (the table's match value). -/
def rselRecord (w : Nat) : Bytes := 0x0F :: wordBytes w

/-- The record of an operation. -/
def encode (i : Instr) : Bytes :=
  match i with
  | .encode q c p => 0x01 :: Machine.encodePacket q c p
  | .decode w => 0x02 :: w
  | .mkpkt q p => 0x03 :: Machine.seqByte q :: p
  | .ack q => [0x04, Machine.seqByte q]
  | .eofpkt q => [0x05, Machine.seqByte q]
  | .checksum q p => 0x06 :: Machine.seqByte q :: p
  | .verify q c p => 0x07 :: Machine.encodePacket q c p
  | .pktOk w => 0x08 :: w
  | .tmrStart => [0x09, 0x01]
  | .tmrStop => [0x09, 0x02]
  | .tmrTick => [0x0A]
  | .tmrIsRunning => [0x0B]
  | .tmrHasExpired => [0x0C]
  | .riTick => [0x0D]
  | .sCancel => sselRecord 0x010
  | .sSend => sselRecord 0x000
  | .sTimeout => sselRecord 0x044
  | .sAckOk => sselRecord 0x04B
  | .sAckBad => sselRecord 0x04A
  | .sRetransmit => sselRecord 0x080
  | .sAdvance => sselRecord 0x0C0
  | .sDoneEof => sselRecord 0x100
  | .rCancel => rselRecord 0x040
  | .rRecv => rselRecord 0x020
  | .rIdleTimeout => rselRecord 0x010
  | .rDrop => rselRecord 0x080
  | .rExt => rselRecord 0x088
  | .rData => rselRecord 0x08E
  | .rEof => rselRecord 0x08F
  | .rDup => rselRecord 0x08C
  | .rAck => rselRecord 0x100

/-! ## One word of the opcode table

spec/opcode_table.json gives words to three formats only: TCMD (2 bits), SSEL (9 bits), RSEL (10 bits),
and a pattern of bytes to WIRE. A word and its number of whole bytes do not say which format it has:
SSEL and RSEL both take two bytes. DESIGN CHOICE, notes/assumptions/11.md. -/

/-- The bytes of a word, the least significant first. -/
def littleEndian : Nat → Nat → Bytes
  | 0, _ => []
  | n + 1, w => BitVec.ofNat 8 w :: littleEndian n (w / 256)

/-- Is the word some row's own match value, don't-care bits 0? -/
def isRowValue {n : Nat} (rows : List (SelectRow n)) (w : Nat) : Bool :=
  rows.any fun r => (match r.picks with | .fire _ => true | _ => false) && r.value.toNat == w

/-- The record of a select word whose format is not given: the sender's if it is a match value of the
sender's table, else the receiver's if it is one of the receiver's table, else the sender's if some
operation of the sender fits it, else the receiver's. -/
def selectRecord (w : Nat) : Bytes :=
  if isRowValue senderRows w then sselRecord w
  else if isRowValue receiverRows w then rselRecord w
  else match decode (sselRecord w) with
    | .ok _ => sselRecord w
    | .error _ => rselRecord w

/-- The issue record of a table word of `nbits` bits. A word of up to 2 bits is a timer command, one of 9
bits a sender select word, one of 10 a receiver select word; one of 8 bits is a timer command unless it
is the first byte of a packet; one of up to 16 bits is a select word; a longer one is a packet, read as
ENCODE's operands, zero bytes filling it to the 9 bytes of a header. -/
def tableRecord (nbits w : Nat) : Bytes :=
  let wire := 0x01 :: littleEndian (max Config.hdrLen ((nbits + 7) / 8)) w
  if nbits = 9 then sselRecord w
  else if nbits = 10 then rselRecord w
  else if nbits ≤ 8 then (if w = 0x30 ∨ w = 0x31 then wire else [0x09, BitVec.ofNat 8 w])
  else if nbits ≤ 16 then selectRecord w
  else wire

/-- What the decoder reads from a word of spec/opcode_table.json, `none` where it refuses. -/
def decodeTableWord (nbits w : Nat) : Option Instr :=
  if 2 ^ nbits ≤ w then none
  else match decode (tableRecord nbits w) with
    | .ok i => some i
    | .error _ => none

end Sys2Proof
end

