-- ==== Sys2Proof/Machine/State.lean ====
section
/-! DEFINITION. The state of the machine as plain data: the registers of the two endpoints
(10_state.md R21, R31), the inputs the host drives (R40), the channels, the transport and the event
streams (20_memory.md R60 to R65, 60_exceptions.md R257), and the script that says whose turn is next
(notes/assumptions/3.md). -/

namespace Sys2Proof
namespace Machine

/-- R22, R97: the sender's states. The reserved codes 5 to 7 are no value of the type (U8). -/
inductive SenderState where
  | send | waitAck | retransmit | advance | done
  deriving DecidableEq, Repr

/-- R32, R98: the receiver's states. The reserved codes 5 to 7 are no value of the type (U8). -/
inductive ReceiverState where
  | waitPacket | process | ack | done | timeoutAbort
  deriving DecidableEq, Repr

/-- R250: the cause codes of the diagnostic streams. Code 0 is no event and code 7 is never emitted. -/
inductive Cause where
  | channelLoss | corruptPacket | outOfOrderDuplicate | malformedPacket | sourceUnavailable | userCancellation
  deriving DecidableEq, Repr

/-- A datagram and an address: the destination on a transmit channel (R62), the source on a receive
channel (R63). -/
structure Datagram where
  bytes : Bytes
  addr : Addr
  deriving DecidableEq, Repr

/-- R65: the events of the file sink. -/
inductive SinkEvent where
  /-- `NAME(a, e)`: peer address and extension bytes. -/
  | name (peer : Addr) (ext : Bytes)
  /-- `APPEND(p)`: payload bytes. -/
  | append (payload : Bytes)
  /-- `CLOSE`. -/
  | close
  deriving DecidableEq, Repr

/-- R21: the registers of the sender endpoint, the retransmission timer among them. -/
structure Sender where
  /-- `s_state` -/
  state : SenderState
  /-- `s_halted` -/
  halted : Bool
  /-- `s_seq` -/
  seqNum : SeqNum
  /-- `s_idx` -/
  idx : BitVec 32
  /-- `s_tx_count` -/
  txCount : BitVec 32
  /-- `s_retx_count` -/
  retxCount : BitVec 32
  /-- `s_sent_any` -/
  sentAny : Bool
  /-- `tmr_run` -/
  tmrRun : Bool
  /-- `tmr_cnt`, `TMR_W` bits: a count of ticks that never wraps (R163) -/
  tmrCnt : Nat
  deriving DecidableEq, Repr

/-- R31: the registers of the receiver endpoint. -/
structure Receiver where
  /-- `r_state` -/
  state : ReceiverState
  /-- `r_expected` -/
  expected : SeqNum
  /-- `r_ext_received` -/
  extReceived : Bool
  /-- `r_idle_cnt`, `TMR_W` bits: a count of ticks that never wraps (R169) -/
  idleCnt : Nat
  /-- `r_buf` -/
  buf : Bytes
  /-- `r_src` -/
  src : Addr
  /-- `r_seq` -/
  seqNum : SeqNum
  /-- `r_eof` -/
  eof : Bool
  /-- `r_peer` -/
  peer : Addr
  /-- `r_ext` -/
  ext : Bytes
  deriving DecidableEq, Repr

/-- R60, R61: the block's only memory, the unit store `UNIT`: the transfer units by index. Equal stores
are equal lists. -/
abbrev Memory := List Bytes

/-- R61: every unit is a byte string of length 0 to `MSS`. -/
def Memory.wf (m : Memory) : Bool := m.all payloadOk

/-- R40, R7: the levels and the configuration the host drives. No operation of the block writes them. -/
structure HostInputs where
  /-- `rst` -/
  rst : Bool
  /-- `s_cancel` -/
  sCancel : Bool
  /-- `r_cancel` -/
  rCancel : Bool
  /-- `n_units` -/
  nUnits : BitVec 32
  /-- `s_dest` -/
  sDest : Addr
  /-- the unit store, `chunks` -/
  units : Memory
  deriving DecidableEq, Repr

/-- R62 to R64: the datagram channels and the transport between them. -/
structure Channels where
  /-- `S_TX`: emitted by the sender and not yet accepted by the transport, oldest first. -/
  sTx : List Datagram
  /-- `R_TX`: emitted by the receiver and not yet accepted by the transport, oldest first. -/
  rTx : List Datagram
  /-- `S_RX`: the datagram on offer to the sender, if any. -/
  sRx : Option Datagram
  /-- `R_RX`: the datagram on offer to the receiver, if any. -/
  rRx : Option Datagram
  /-- in transit to the receiver, with source addresses; the order means nothing (R64). -/
  toReceiver : List Datagram
  /-- in transit to the sender, with source addresses; the order means nothing (R64). -/
  toSender : List Datagram
  deriving DecidableEq, Repr

/-- R65, R257: the event streams, oldest event first. No operation reads them. -/
structure Streams where
  /-- `SINK` -/
  sink : List SinkEvent
  /-- `S_DIAG` -/
  sDiag : List Cause
  /-- `R_DIAG` -/
  rDiag : List Cause
  deriving DecidableEq, Repr

/-- What a unit exercised by itself, or a timer query, answered last. The model's own field, not the
spec's (notes/assumptions/9.md); no operation reads it. -/
inductive UnitAnswer where
  /-- Nothing asked yet. -/
  | none
  /-- A byte string: `ENCODE`, `MKPKT`, `ACK`, `EOFPKT`, `CHECKSUM`. -/
  | bytes (w : Bytes)
  /-- `DECODE` succeeded. -/
  | packet (k : Packet)
  /-- `DECODE` failed with `MalformedPacket`. -/
  | malformed
  /-- A Boolean: `VERIFY`, `PKT_OK`, the timer queries. -/
  | bit (b : Bool)
  deriving DecidableEq, Repr

/-- The two directions of the transport. -/
inductive Direction where
  /-- from `S_TX` to `R_RX` -/
  | toReceiver
  /-- from `R_TX` to `S_RX` -/
  | toSender
  deriving DecidableEq, Repr

/-- R64: the moves of the transport, with the choices the environment makes in them. -/
inductive TransportMove where
  /-- The oldest emitted datagram enters the transport, with the source address it will carry. -/
  | accept (d : Direction) (src : Addr)
  /-- Another party sends a datagram (R263, R313, R314). -/
  | inject (d : Direction) (m : Datagram)
  /-- The `k`-th datagram in transit is lost. -/
  | drop (d : Direction) (k : Nat)
  /-- The bytes of the `k`-th datagram in transit are replaced by any others. -/
  | corrupt (d : Direction) (k : Nat) (w : Bytes)
  /-- The `k`-th datagram in transit is offered on the receive channel. -/
  | offer (d : Direction) (k : Nat)
  /-- The datagram on offer is no longer offered: it is in transit again (R63: "At every moment"). -/
  | withdraw (d : Direction)
  /-- The `k`-th datagram in transit is copied; only if `CHANNEL_DUPLICATES`. -/
  | duplicate (d : Direction) (k : Nat)
  deriving DecidableEq, Repr

/-- R7, R40, R290: what the host does to the block. -/
inductive HostMove where
  /-- Drives `s_cancel`. -/
  | setSenderCancel (b : Bool)
  /-- Drives `r_cancel`. -/
  | setReceiverCancel (b : Bool)
  /-- Raises `rst`: the registers then have their reset values (R255; notes/assumptions/7.md). -/
  | raiseReset
  /-- Lowers `rst`; `buf`, `src`, `peer`, `ext` are what the four registers whose value after reset is
  unspecified then hold (U7: any value; notes/assumptions/7.md). -/
  | releaseReset (buf : Bytes) (src peer : Addr) (ext : Bytes)
  /-- Presents a configuration: `chunks`, `n_units`, `s_dest` (R301). -/
  | load (units : Memory) (nUnits : BitVec 32) (dest : Addr)
  deriving DecidableEq, Repr

/-- R8, R9: who takes the next step. -/
inductive Turn where
  /-- `sender_fsm`. -/
  | sender
  /-- `receiver_fsm`. -/
  | receiver
  /-- One event on `s_tick`. -/
  | senderTick
  /-- One event on `r_tick`. -/
  | receiverTick
  /-- A unit is exercised by itself with an issue record (notes/assumptions/9.md). -/
  | unit (record : Bytes)
  /-- The transport. -/
  | transport (m : TransportMove)
  /-- The host. -/
  | host (m : HostMove)
  deriving DecidableEq, Repr

/-- Everything the machine holds. -/
structure State where
  /-- R6: the parameters; no step writes them. -/
  params : Config.Params
  /-- The host's inputs. -/
  host : HostInputs
  /-- The sender endpoint. -/
  snd : Sender
  /-- The receiver endpoint. -/
  rcv : Receiver
  /-- The datagram channels and the transport. -/
  chan : Channels
  /-- The event streams. -/
  log : Streams
  /-- The model's own: the last answer of a unit exercised by itself. -/
  unitOut : UnitAnswer
  /-- The model's own: the turns still to come, the next one first. -/
  script : List Turn
  deriving DecidableEq, Repr

/-- Why a step stops where the spec has no behaviour to give. -/
inductive Fault where
  /-- Raised by `S_SEND` when the unit store holds no unit at the index it reads although the index is
  below `n_units`. R61: such a read is never made; only a host that breaks R301 (b) gets there. Safe:
  the model stops where the spec gives no effect (notes/assumptions/13.md). -/
  | absentUnit (index : BitVec 32)
  deriving DecidableEq, Repr

/-- Why a step is refused. -/
inductive Refusal where
  /-- Raised by an arm of exec whose operation has no meaning yet. Safe. -/
  | notModelled (mnemonic : String)
  /-- Raised by a codec or checksum operation, or by `R_ACK`, for an operand outside its type: a payload
  (`ACK_PAYLOAD` included) longer than `MSS`, a token that is not 8 bytes. R120: "is not an input of the
  function". Safe (notes/assumptions/14.md). -/
  | operandOutsideType
  /-- Raised by `S_SEND` for a unit longer than `MSS` in the unit store. R319, U15: refuse. Safe
  (notes/assumptions/14.md). -/
  | oversizedUnit
  /-- Raised by a host move that changes the configuration between the release of reset and
  `s_done = 1`. R78, U15: refuse. Safe (notes/assumptions/6.md). -/
  | unstableConfiguration
  /-- Raised by a unit turn whose record decodes to no operation, the reserved codes of R104 among them.
  U8: refuse. Safe (notes/assumptions/10.md, 17.md). -/
  | undecodable (why : Reject)
  deriving DecidableEq, Repr

/-- The outcome of a step of this machine. -/
abbrev Result := Host.Outcome State Fault Refusal

/-- R45: the sender's registers after reset. -/
def Sender.reset : Sender :=
  { state := .send, halted := false, seqNum := 0, idx := 0, txCount := 0, retxCount := 0,
    sentAny := false, tmrRun := false, tmrCnt := 0 }

/-- R45: the receiver's registers after reset, for a given bound and given values of the four registers
whose value after reset is unspecified (U7). -/
def Receiver.resetWith (rxTimeoutTicks : Nat) (buf : Bytes) (src peer : Addr) (ext : Bytes) : Receiver :=
  { state := .waitPacket, expected := 0, extReceived := false, idleCnt := rxTimeoutTicks, buf := buf,
    src := src, seqNum := 0, eof := false, peer := peer, ext := ext }

/-- R290: the machine right after reset, `rst` just released, with the default parameters. DESIGN CHOICE
(notes/assumptions/1.md, unsafe): `r_buf` and `r_ext` empty, `r_src` and `r_peer` 0. DESIGN CHOICE
(notes/assumptions/2.md, unsafe): no cancellation, no configuration presented, nothing in transit, no
turn in the script. -/
def State.reset : State :=
  { params := {},
    host := { rst := false, sCancel := false, rCancel := false, nUnits := 0, sDest := 0, units := [] },
    snd := Sender.reset,
    rcv := Receiver.resetWith ({} : Config.Params).rxTimeoutTicks [] 0 0 [],
    chan := { sTx := [], rTx := [], sRx := none, rRx := none, toReceiver := [], toSender := [] },
    log := { sink := [], sDiag := [], rDiag := [] },
    unitOut := .none,
    script := [] }

end Machine
end Sys2Proof
end

