-- ==== Sys2Proof/Machine/Flags.lean ====
section
/-! DEFINITION. The conditions the two state machines look at: the codes of the states
(30_encoding.md R97, R98), the timer's abstract states (10_state.md R30), and the bits of the two
select words (R101, R102). -/

namespace Sys2Proof
namespace Machine

/-! ## Codes -/

/-- R97: the code of a sender state. -/
def SenderState.code : SenderState → BitVec 3
  | .send => 0b000
  | .waitAck => 0b001
  | .retransmit => 0b010
  | .advance => 0b011
  | .done => 0b100

/-- R98: the code of a receiver state. -/
def ReceiverState.code : ReceiverState → BitVec 3
  | .waitPacket => 0b000
  | .process => 0b001
  | .ack => 0b010
  | .done => 0b011
  | .timeoutAbort => 0b100

/-- R250: the code of a cause. -/
def Cause.code : Cause → BitVec 3
  | .channelLoss => 1
  | .corruptPacket => 2
  | .outOfOrderDuplicate => 3
  | .malformedPacket => 4
  | .sourceUnavailable => 5
  | .userCancellation => 6

/-! ## The retransmission timer -/

/-- R165, `has_expired()`: bit `expired` of the sender's select word. -/
def Sender.tmrExpired (x : Sender) : Bool := x.tmrRun && x.tmrCnt == 0

/-- R30: the three abstract states of the timer. -/
inductive TimerState where
  | stopped | running | expired
  deriving DecidableEq, Repr

/-- R30: every value of (`tmr_run`, `tmr_cnt`) is one of the three. -/
def Sender.timerState (x : Sender) : TimerState :=
  if x.tmrRun = false then .stopped else if x.tmrCnt = 0 then .expired else .running

/-! ## The sender's select word (R101) -/

/-- Bit `avail`: a datagram is offered on `S_RX`. -/
def State.senderAvail (s : State) : Bool := s.chan.sRx.isSome

/-- Bit `ok`: a datagram is offered on `S_RX` and `PKT_OK` holds for its bytes. -/
def State.senderOk (s : State) : Bool :=
  match s.chan.sRx with
  | none => false
  | some m => packetOk m.bytes

/-- R101: `ssel[8:0]`. -/
def State.ssel (s : State) : BitVec 9 :=
  s.snd.state.code ++ BitVec.ofBool s.snd.halted ++ BitVec.ofBool s.host.sCancel ++
    BitVec.ofBool s.snd.tmrRun ++ BitVec.ofBool s.snd.tmrExpired ++ BitVec.ofBool s.senderAvail ++
    BitVec.ofBool s.senderOk

/-! ## The receiver's select word (R102) -/

/-- Bit `avail`: a datagram is offered on `R_RX`. -/
def State.receiverAvail (s : State) : Bool := s.chan.rRx.isSome

/-- Bit `idle_exp`: the bound has passed (R170). -/
def Receiver.idleExpired (x : Receiver) : Bool := x.idleCnt == 0

/-- Bit `ok`: `PKT_OK(r_buf)`. -/
def Receiver.bufOk (x : Receiver) : Bool := packetOk x.buf

/-- Bit `match`: `ok` and the decoded sequence number equals `r_expected`. -/
def Receiver.bufMatch (x : Receiver) : Bool :=
  match decodePacket x.buf with
  | none => false
  | some k => x.bufOk && k.seqNum == x.expected

/-- Bit `eof`: `ok` and the decoded payload is the EOF marker. -/
def Receiver.bufEof (x : Receiver) : Bool :=
  match decodePacket x.buf with
  | none => false
  | some k => x.bufOk && isEof k.payload

/-- R102: `rsel[9:0]`. -/
def State.rsel (s : State) : BitVec 10 :=
  s.rcv.state.code ++ BitVec.ofBool s.host.rCancel ++ BitVec.ofBool s.receiverAvail ++
    BitVec.ofBool s.rcv.idleExpired ++ BitVec.ofBool s.rcv.bufOk ++ BitVec.ofBool s.rcv.extReceived ++
    BitVec.ofBool s.rcv.bufMatch ++ BitVec.ofBool s.rcv.bufEof

/-! ## The cause of a bad datagram -/

/-- R183, R214, R252, R254: `MalformedPacket` if `DECODE` fails, else `CorruptPacket`; asked only of a
datagram for which `PKT_OK` is false. -/
def badPacketCause (w : Bytes) : Cause :=
  match decodePacket w with
  | none => .malformedPacket
  | some _ => .corruptPacket

end Machine
end Sys2Proof
end

