-- ==== Sys2Proof/Machine/Operands.lean ====
section
/-! DEFINITION. Where the operations get their operands: the unit store (20_memory.md R61), the datagram
on offer (R63), the packet in the receiver's buffer (45_receiver_fsm.md R215 to R219). -/

namespace Sys2Proof
namespace Machine

/-- R61, `MemRead(UNIT, i)`: the whole unit at an index, `none` where the store has no such index. No
side effect. -/
def memRead (m : Memory) (i : BitVec 32) : Option Bytes := m[i.toNat]?

/-- R181: is there a unit left to send, `s_idx < n_units`? -/
def State.unitLeft (s : State) : Bool := decide (s.snd.idx < s.host.nUnits)

/-- R215 to R219: the decoded packet of `r_buf` when `PKT_OK(r_buf)` holds (R146). -/
def Receiver.packet (x : Receiver) : Option Packet :=
  if x.bufOk then decodePacket x.buf else none

end Machine
end Sys2Proof
end

