-- ==== Sys2Proof/Machine/Ops.lean ====
section
/-! DEFINITION. The named operations the meanings are built from: firing or holding, emitting and
taking (00_scope.md R12), the counters (R14), the timer's registers (43_timer_countdown.md R161, R162),
the next state, the report of a detected condition (60_exceptions.md R257, R260), and the answer of a
unit. -/

namespace Sys2Proof
namespace Machine

/-- R8, R10: an operation fires when its condition holds; otherwise it does not, and the state does not
change. DEDUCED (notes/assumptions/8.md), safe: step issues an operation only where the select word
picks it. -/
def fire (condition : Bool) (s : State) (effect : Result) : Result :=
  if condition then effect else .next s

/-- R290: no operation of an agent of the block is enabled while `rst = 1`. -/
def fireAgent (condition : Bool) (s : State) (effect : Result) : Result :=
  fire (!s.host.rst && condition) s effect

/-! ## Emitting and taking -/

/-- R62, `Emit(S_TX, (w, a))`. -/
def State.emitSTx (s : State) (w : Bytes) (a : Addr) : State :=
  { s with chan := { s.chan with sTx := s.chan.sTx ++ [{ bytes := w, addr := a }] } }

/-- R62, `Emit(R_TX, (w, a))`. -/
def State.emitRTx (s : State) (w : Bytes) (a : Addr) : State :=
  { s with chan := { s.chan with rTx := s.chan.rTx ++ [{ bytes := w, addr := a }] } }

/-- R65, `Emit(SINK, e)`. -/
def State.emitSink (s : State) (e : SinkEvent) : State :=
  { s with log := { s.log with sink := s.log.sink ++ [e] } }

/-- R63, `Take(S_RX)`: the offered datagram is removed for good. -/
def State.takeSRx (s : State) : State := { s with chan := { s.chan with sRx := none } }

/-- R63, `Take(R_RX)`: the offered datagram is removed for good. -/
def State.takeRRx (s : State) : State := { s with chan := { s.chan with rRx := none } }

/-! ## A detected condition

What stands in the place of taking an exception (R260): one cause code is emitted, nothing is saved, no
mode changes, and the detecting step writes its own next state. There is no return (R261). -/

/-- R257: one event on `S_DIAG`. -/
def State.reportS (s : State) (c : Cause) : State :=
  { s with log := { s.log with sDiag := s.log.sDiag ++ [c] } }

/-- R257: one event on `R_DIAG`. -/
def State.reportR (s : State) (c : Cause) : State :=
  { s with log := { s.log with rDiag := s.log.rDiag ++ [c] } }

/-! ## The sender's registers -/

/-- The next sender state, `s_state <- X`. -/
def State.gotoS (s : State) (x : SenderState) : State := { s with snd := { s.snd with state := x } }

/-- R26: `s_tx_count + 1` modulo `2^CNT_W`. -/
def State.countTx (s : State) : State := { s with snd := { s.snd with txCount := s.snd.txCount + 1 } }

/-- R27: `s_retx_count + 1` modulo `2^CNT_W`. -/
def State.countRetx (s : State) : State := { s with snd := { s.snd with retxCount := s.snd.retxCount + 1 } }

/-- R28: `s_sent_any <- 1`. -/
def State.markSent (s : State) : State := { s with snd := { s.snd with sentAny := true } }

/-- R23: `s_halted <- 1`. -/
def State.halt (s : State) : State := { s with snd := { s.snd with halted := true } }

/-- R24: `s_seq <- s_seq XOR 1`. -/
def State.toggleSeq (s : State) : State := { s with snd := { s.snd with seqNum := s.snd.seqNum.toggle } }

/-- R25: `s_idx <- s_idx + 1` modulo `2^IDX_W`. -/
def State.nextUnit (s : State) : State := { s with snd := { s.snd with idx := s.snd.idx + 1 } }

/-- R161: the timer is started with the full interval, from any state. -/
def State.startTimer (s : State) : State :=
  { s with snd := { s.snd with tmrRun := true, tmrCnt := s.params.txTimeoutTicks } }

/-- R162: the timer is stopped and its count cleared, from any state. -/
def State.stopTimer (s : State) : State :=
  { s with snd := { s.snd with tmrRun := false, tmrCnt := 0 } }

/-! ## The receiver's registers -/

/-- The next receiver state, `r_state <- X`. -/
def State.gotoR (s : State) (x : ReceiverState) : State := { s with rcv := { s.rcv with state := x } }

/-- R168: the full bound again. -/
def State.reloadIdle (s : State) : State :=
  { s with rcv := { s.rcv with idleCnt := s.params.rxTimeoutTicks } }

/-- R33: `r_expected <- r_expected XOR 1`. -/
def State.toggleExpected (s : State) : State :=
  { s with rcv := { s.rcv with expected := s.rcv.expected.toggle } }

/-- R37: the latches of the packet to acknowledge. -/
def State.latchAck (s : State) (q : SeqNum) (eof : Bool) : State :=
  { s with rcv := { s.rcv with seqNum := q, eof := eof } }

/-- R36: the datagram taken and its source. -/
def State.latchDatagram (s : State) (m : Datagram) : State :=
  { s with rcv := { s.rcv with buf := m.bytes, src := m.addr } }

/-- R38: the two ingredients of the destination's name, written once. -/
def State.latchName (s : State) (peer : Addr) (ext : Bytes) : State :=
  { s with rcv := { s.rcv with extReceived := true, peer := peer, ext := ext } }

/-! ## A unit's answer -/

/-- The answer of a pure function or of a query, nothing else written. -/
def State.answer (s : State) (a : UnitAnswer) : State := { s with unitOut := a }

end Machine
end Sys2Proof
end

