-- ==== Sys2Proof/Machine/Codec.lean ====
section
/-! DEFINITION. The packet codec exercised by itself (41_packet_codec.md): ENCODE, DECODE, MKPKT, ACK,
EOFPKT. No register is written; the answer goes to the model's own field (notes/assumptions/9.md). -/

namespace Sys2Proof
namespace Machine

/-- R120: operands outside their types are no input of the function (notes/assumptions/14.md). -/
def withOperands (inType : Bool) (effect : Result) : Result :=
  if inType then effect else .refused .operandOutsideType

/-- R120, `ENCODE(s, c, p)`. -/
def execEncode (q : SeqNum) (c p : Bytes) (s : State) : Result :=
  withOperands (tokenOk c && payloadOk p) (.next (s.answer (.bytes (encodePacket q c p))))

/-- R123, `DECODE(w)`: total on byte strings. -/
def execDecode (w : Bytes) (s : State) : Result :=
  .next (s.answer (match decodePacket w with | some k => .packet k | none => .malformed))

/-- R126, `MKPKT(s, p)`. -/
def execMkpkt (q : SeqNum) (p : Bytes) (s : State) : Result :=
  withOperands (payloadOk p) (.next (s.answer (.bytes (makePacket q p))))

/-- R127, `ACK(s)`, with the parameter `ACK_PAYLOAD`. -/
def execAck (q : SeqNum) (s : State) : Result :=
  withOperands (payloadOk s.params.ackPayload) (.next (s.answer (.bytes (ackPacket s.params q))))

/-- R128, `EOFPKT(s)`. -/
def execEofpkt (q : SeqNum) (s : State) : Result :=
  .next (s.answer (.bytes (eofPacket q)))

end Machine
end Sys2Proof
end

