-- ==== Sys2Proof/Machine/Checksum.lean ====
section
/-! DEFINITION. The checksum unit exercised by itself (42_checksum_unit.md): CHECKSUM, VERIFY, PKT_OK. No
register is written; the answer goes to the model's own field (notes/assumptions/9.md). -/

namespace Sys2Proof
namespace Machine

/-- R140, `CHECKSUM(s, p)`. -/
def execChecksum (q : SeqNum) (p : Bytes) (s : State) : Result :=
  withOperands (payloadOk p) (.next (s.answer (.bytes (checksum q p))))

/-- R143, `VERIFY(s, c, p)`. -/
def execVerify (q : SeqNum) (c p : Bytes) (s : State) : Result :=
  withOperands (tokenOk c && payloadOk p) (.next (s.answer (.bit (verify q c p))))

/-- R146, `PKT_OK(w)`: total on byte strings. -/
def execPktOk (w : Bytes) (s : State) : Result :=
  .next (s.answer (.bit (packetOk w)))

end Machine
end Sys2Proof
end

