-- ==== Sys2Proof/Machine/ReceiverFsm.lean ====
section
/-! DEFINITION. The nine operations of the receiver state machine (45_receiver_fsm.md). Each is one
atomic step; its condition is the one of its rule, written on the registers; that the select word of
R102 picks the operation exactly when this condition holds is a lemma, Laws/Select.lean. -/

namespace Sys2Proof
namespace Machine

/-- R213, `R_CANCEL`: in `WAIT_PACKET` only, before everything else. -/
def execRCancel (s : State) : Result :=
  fireAgent (s.rcv.state == .waitPacket && s.host.rCancel) s
    (.next (((s.reportR .userCancellation).emitSink .close).gotoR .done))

/-- R211, `R_RECV`: whatever is offered is taken, from whoever sent it, the bound passed or not. -/
def execRRecv (s : State) : Result :=
  match s.chan.rRx with
  | none => .next s
  | some m =>
    fireAgent (s.rcv.state == .waitPacket && !s.host.rCancel) s
      (.next ((s.takeRRx.latchDatagram m).gotoR .process))

/-- R212, `R_IDLE_TIMEOUT`: only when nothing is offered. -/
def execRIdleTimeout (s : State) : Result :=
  fireAgent (s.rcv.state == .waitPacket && !s.host.rCancel && !s.receiverAvail && s.rcv.idleExpired) s
    (.next (((s.reportR .channelLoss).emitSink .close).gotoR .timeoutAbort))

/-- R214, `R_DROP`: no acknowledgment, the bound restarts. -/
def execRDrop (s : State) : Result :=
  fireAgent (s.rcv.state == .process && !s.rcv.bufOk) s
    (.next (((s.reportR (badPacketCause s.rcv.buf)).reloadIdle).gotoR .waitPacket))

/-- R215, `R_EXT`: the first valid packet names the destination, whatever its sequence number;
`r_expected` toggles (D14). -/
def execRExt (s : State) : Result :=
  match s.rcv.packet with
  | none => .next s
  | some k =>
    fireAgent (s.rcv.state == .process && !s.rcv.extReceived) s
      (.next (((((s.latchName s.rcv.src k.payload).emitSink (.name s.rcv.src k.payload)).toggleExpected).latchAck
        k.seqNum (isEof k.payload)).gotoR .ack))

/-- R217, `R_DATA`. -/
def execRData (s : State) : Result :=
  match s.rcv.packet with
  | none => .next s
  | some k =>
    fireAgent (s.rcv.state == .process && s.rcv.extReceived && k.seqNum == s.rcv.expected && !isEof k.payload) s
      (.next ((((s.emitSink (.append k.payload)).toggleExpected).latchAck k.seqNum false).gotoR .ack))

/-- R218, `R_EOF`: nothing is appended and `r_expected` does not toggle. -/
def execREof (s : State) : Result :=
  match s.rcv.packet with
  | none => .next s
  | some k =>
    fireAgent (s.rcv.state == .process && s.rcv.extReceived && k.seqNum == s.rcv.expected && isEof k.payload) s
      (.next ((s.latchAck k.seqNum true).gotoR .ack))

/-- R219, `R_DUP`: a valid packet with the other sequence number, the EOF marker or not. -/
def execRDup (s : State) : Result :=
  match s.rcv.packet with
  | none => .next s
  | some k =>
    fireAgent (s.rcv.state == .process && s.rcv.extReceived && k.seqNum != s.rcv.expected) s
      (.next (((s.reportR .outOfOrderDuplicate).latchAck k.seqNum (isEof k.payload)).gotoR .ack))

/-- R220, `R_ACK`: the acknowledgment goes to the source of the datagram it acknowledges; after the EOF
packet the sink is closed, else the wait starts again with a full bound. -/
def execRAck (s : State) : Result :=
  fireAgent (s.rcv.state == .ack) s
    (withOperands (payloadOk s.params.ackPayload)
      (let t := s.emitRTx (ackPacket s.params s.rcv.seqNum) s.rcv.src
       .next (if s.rcv.eof then (t.emitSink .close).gotoR .done else t.reloadIdle.gotoR .waitPacket)))

end Machine
end Sys2Proof
end

