-- ==== Sys2Proof/Machine/SenderFsm.lean ====
section
/-! DEFINITION. The eight operations of the sender state machine (44_sender_fsm.md). Each is one atomic
step; its condition is the one of its rule, written on the registers; that the select word of R101 picks
the operation exactly when this condition holds (the index bound of S_SEND apart) is a lemma,
Laws/Select.lean. -/

namespace Sys2Proof
namespace Machine

/-- Is the timer RUNNING (R30), that is `running = 1` and `expired = 0`? -/
def Sender.tmrCounting (x : Sender) : Bool := x.tmrRun && !x.tmrExpired

/-- R188, `S_CANCEL`: in every state but `DONE`, before everything else (R259). -/
def execSCancel (s : State) : Result :=
  fireAgent (s.snd.state != .done && s.host.sCancel) s
    (.next ((s.stopTimer.reportS .userCancellation).gotoS .done))

/-- R181, `S_SEND`. With no unit left the operation is not enabled (R189 (b)). A unit the store does not
hold is a read that is never made (R61); a unit longer than `MSS` is refused (R319, U15). -/
def execSSend (s : State) : Result :=
  fireAgent (s.snd.state == .send && !s.host.sCancel && s.unitLeft) s
    (match memRead s.host.units s.snd.idx with
      | none => .fault (.absentUnit s.snd.idx)
      | some p =>
        if payloadOk p then
          .next ((((s.emitSTx (makePacket s.snd.seqNum p) s.host.sDest).countTx).markSent.startTimer).gotoS .waitAck)
        else .refused .oversizedUnit)

/-- R184, `S_TIMEOUT`: an expired timer ends the wait whether or not a datagram is offered; the timer is
left EXPIRED. -/
def execSTimeout (s : State) : Result :=
  fireAgent (s.snd.state == .waitAck && !s.host.sCancel && s.snd.tmrExpired) s
    (.next ((s.reportS .channelLoss).gotoS .retransmit))

/-- R182, `S_ACK_OK`: any valid packet is the acknowledgment; its sequence number, payload and source are
not looked at. -/
def execSAckOk (s : State) : Result :=
  fireAgent (s.snd.state == .waitAck && !s.host.sCancel && s.snd.tmrCounting && s.senderOk) s
    (.next ((s.takeSRx.stopTimer.toggleSeq.countTx).gotoS .advance))

/-- R183, `S_ACK_BAD`: a datagram that is not a valid packet is taken and dropped; no register changes. -/
def execSAckBad (s : State) : Result :=
  match s.chan.sRx with
  | none => .next s
  | some m =>
    fireAgent (s.snd.state == .waitAck && !s.host.sCancel && s.snd.tmrCounting && !packetOk m.bytes) s
      (.next (s.takeSRx.reportS (badPacketCause m.bytes)))

/-- R185, `S_RETRANSMIT`. -/
def execSRetransmit (s : State) : Result :=
  fireAgent (s.snd.state == .retransmit && !s.host.sCancel) s
    (.next (s.countTx.countRetx.gotoS .send))

/-- R186, `S_ADVANCE`: the comparison is for equality, on the incremented index. -/
def execSAdvance (s : State) : Result :=
  fireAgent (s.snd.state == .advance && !s.host.sCancel) s
    (.next (s.nextUnit.gotoS (if s.snd.idx + 1 = s.host.nUnits then .done else .send)))

/-- R187, `S_DONE_EOF`: once, whatever `s_cancel`; no counter changes. -/
def execSDoneEof (s : State) : Result :=
  fireAgent (s.snd.state == .done && !s.snd.halted) s
    (.next ((s.emitSTx (eofPacket s.snd.seqNum) s.host.sDest).halt))

end Machine
end Sys2Proof
end

