-- ==== Sys2Proof/Machine/Timer.lean ====
section
/-! DEFINITION. The retransmission timer and the receiver's idle countdown (43_timer_countdown.md):
TMR_START, TMR_STOP, TMR_TICK, TMR_IS_RUNNING, TMR_HAS_EXPIRED, RI_TICK. -/

namespace Sys2Proof
namespace Machine

/-- R161, `TMR_START`. -/
def execTmrStart (s : State) : Result := fireAgent true s (.next s.startTimer)

/-- R162, `TMR_STOP`. -/
def execTmrStop (s : State) : Result := fireAgent true s (.next s.stopTimer)

/-- R163, `TMR_TICK`: counts only while the timer is started and the count is above 0. -/
def execTmrTick (s : State) : Result :=
  fireAgent (s.snd.tmrRun && s.snd.tmrCnt != 0) s
    (.next { s with snd := { s.snd with tmrCnt := s.snd.tmrCnt - 1 } })

/-- R164, `TMR_IS_RUNNING`: true in both RUNNING and EXPIRED. -/
def execTmrIsRunning (s : State) : Result := .next (s.answer (.bit s.snd.tmrRun))

/-- R165, `TMR_HAS_EXPIRED`. -/
def execTmrHasExpired (s : State) : Result := .next (s.answer (.bit s.snd.tmrExpired))

/-- R169, `RI_TICK`: counts only in `WAIT_PACKET` while the count is above 0. -/
def execRiTick (s : State) : Result :=
  fireAgent (s.rcv.state == .waitPacket && s.rcv.idleCnt != 0) s
    (.next { s with rcv := { s.rcv with idleCnt := s.rcv.idleCnt - 1 } })

end Machine
end Sys2Proof
end

