-- ==== Sys2Proof/Machine/Dispatch.lean ====
section
/-! DEFINITION. One arm per operation of spec/opcode_table.json. -/

namespace Sys2Proof
namespace Machine

def exec (i : Instr) (s : State) : Host.Outcome State Fault Refusal :=
  match i with
  | .encode q c p => Sys2Proof.Machine.execEncode q c p s
  | .decode w => Sys2Proof.Machine.execDecode w s
  | .mkpkt q p => Sys2Proof.Machine.execMkpkt q p s
  | .ack q => Sys2Proof.Machine.execAck q s
  | .eofpkt q => Sys2Proof.Machine.execEofpkt q s
  | .checksum q p => Sys2Proof.Machine.execChecksum q p s
  | .verify q c p => Sys2Proof.Machine.execVerify q c p s
  | .pktOk w => Sys2Proof.Machine.execPktOk w s
  | .tmrStart => Sys2Proof.Machine.execTmrStart s
  | .tmrStop => Sys2Proof.Machine.execTmrStop s
  | .tmrTick => Sys2Proof.Machine.execTmrTick s
  | .tmrIsRunning => Sys2Proof.Machine.execTmrIsRunning s
  | .tmrHasExpired => Sys2Proof.Machine.execTmrHasExpired s
  | .riTick => Sys2Proof.Machine.execRiTick s
  | .sCancel => Sys2Proof.Machine.execSCancel s
  | .sSend => Sys2Proof.Machine.execSSend s
  | .sTimeout => Sys2Proof.Machine.execSTimeout s
  | .sAckOk => Sys2Proof.Machine.execSAckOk s
  | .sAckBad => Sys2Proof.Machine.execSAckBad s
  | .sRetransmit => Sys2Proof.Machine.execSRetransmit s
  | .sAdvance => Sys2Proof.Machine.execSAdvance s
  | .sDoneEof => Sys2Proof.Machine.execSDoneEof s
  | .rCancel => Sys2Proof.Machine.execRCancel s
  | .rRecv => Sys2Proof.Machine.execRRecv s
  | .rIdleTimeout => Sys2Proof.Machine.execRIdleTimeout s
  | .rDrop => Sys2Proof.Machine.execRDrop s
  | .rExt => Sys2Proof.Machine.execRExt s
  | .rData => Sys2Proof.Machine.execRData s
  | .rEof => Sys2Proof.Machine.execREof s
  | .rDup => Sys2Proof.Machine.execRDup s
  | .rAck => Sys2Proof.Machine.execRAck s

end Machine
end Sys2Proof
end

