-- ==== Sys2Proof/Machine/Environment.lean ====
section
/-! DEFINITION. What happens outside the block and is seen inside it: the moves of the transport
(20_memory.md R64) and of the host (00_scope.md R7, 70_reset_and_hazards.md R290, R301). A move that is
not possible (no such datagram, the channel already offers one, copies not allowed) changes nothing
(notes/assumptions/15.md). -/

namespace Sys2Proof
namespace Machine

/-! ## The transport -/

/-- The datagrams in transit in one direction. -/
def Channels.transit (c : Channels) (d : Direction) : List Datagram :=
  match d with
  | .toReceiver => c.toReceiver
  | .toSender => c.toSender

/-- The same channels with other datagrams in transit in one direction. -/
def Channels.withTransit (c : Channels) (d : Direction) (l : List Datagram) : Channels :=
  match d with
  | .toReceiver => { c with toReceiver := l }
  | .toSender => { c with toSender := l }

/-- The datagrams emitted and not yet accepted, in one direction. -/
def Channels.emitted (c : Channels) (d : Direction) : List Datagram :=
  match d with
  | .toReceiver => c.sTx
  | .toSender => c.rTx

/-- The same channels with other emitted datagrams in one direction. -/
def Channels.withEmitted (c : Channels) (d : Direction) (l : List Datagram) : Channels :=
  match d with
  | .toReceiver => { c with sTx := l }
  | .toSender => { c with rTx := l }

/-- The datagram on offer at the end of one direction. -/
def Channels.offered (c : Channels) (d : Direction) : Option Datagram :=
  match d with
  | .toReceiver => c.rRx
  | .toSender => c.sRx

/-- The same channels with another datagram, or none, on offer at the end of one direction. -/
def Channels.withOffered (c : Channels) (d : Direction) (m : Option Datagram) : Channels :=
  match d with
  | .toReceiver => { c with rRx := m }
  | .toSender => { c with sRx := m }

/-- *accept*: the oldest emitted datagram enters the transport, under a source address. -/
def Channels.accept (c : Channels) (d : Direction) (src : Addr) : Channels :=
  match c.emitted d with
  | [] => c
  | m :: rest => (c.withEmitted d rest).withTransit d (c.transit d ++ [{ bytes := m.bytes, addr := src }])

/-- Another party's datagram enters the transport. -/
def Channels.inject (c : Channels) (d : Direction) (m : Datagram) : Channels :=
  c.withTransit d (c.transit d ++ [m])

/-- *drop*: a datagram leaves the transport and is never offered. -/
def Channels.drop (c : Channels) (d : Direction) (k : Nat) : Channels :=
  c.withTransit d ((c.transit d).eraseIdx k)

/-- *corrupt*: the bytes of a datagram, and its length, are replaced by any other byte string. -/
def Channels.corrupt (c : Channels) (d : Direction) (k : Nat) (w : Bytes) : Channels :=
  c.withTransit d ((c.transit d).modify k fun m => { m with bytes := w })

/-- *offer*: any one datagram in transit is offered on the receive channel, if that offers nothing. -/
def Channels.offer (c : Channels) (d : Direction) (k : Nat) : Channels :=
  match c.offered d, (c.transit d)[k]? with
  | none, some m => (c.withTransit d ((c.transit d).eraseIdx k)).withOffered d (some m)
  | _, _ => c

/-- The end of an offer: what was not taken stays in the transport, where it can be dropped, corrupted or
offered again (R63: only a taken datagram is removed for good). -/
def Channels.withdraw (c : Channels) (d : Direction) : Channels :=
  match c.offered d with
  | none => c
  | some m => (c.withTransit d (c.transit d ++ [m])).withOffered d none

/-- *duplicate*: a datagram in transit is copied. -/
def Channels.duplicate (c : Channels) (d : Direction) (k : Nat) : Channels :=
  match (c.transit d)[k]? with
  | some m => c.withTransit d (c.transit d ++ [m])
  | none => c

/-- R64: one move of the transport. An address it brings has `ADDR_W` bits (notes/assumptions/5.md);
*duplicate* is possible only if `CHANNEL_DUPLICATES` is true. -/
def transportMove (m : TransportMove) (s : State) : Result :=
  match m with
  | .accept d src => .next { s with chan := s.chan.accept d (s.params.addr src) }
  | .inject d x => .next { s with chan := s.chan.inject d { x with addr := s.params.addr x.addr } }
  | .drop d k => .next { s with chan := s.chan.drop d k }
  | .corrupt d k w => .next { s with chan := s.chan.corrupt d k w }
  | .offer d k => .next { s with chan := s.chan.offer d k }
  | .withdraw d => .next { s with chan := s.chan.withdraw d }
  | .duplicate d k => fire s.params.channelDuplicates s (.next { s with chan := s.chan.duplicate d k })

/-! ## The host -/

/-- R45, R290, `RESET`: every register at its reset value, for given values of the four whose value is
unspecified. The transport, the unit store, the sink, the streams and the host's inputs are not touched
(R291). -/
def State.resetRegisters (s : State) (buf : Bytes) (src peer : Addr) (ext : Bytes) : State :=
  { s with snd := Sender.reset, rcv := Receiver.resetWith s.params.rxTimeoutTicks buf src peer ext }

/-- `rst` goes to 1. R255: of a block kept in reset "the counters are 0", so the registers have their
reset values from here on; the four unspecified ones are left (notes/assumptions/7.md). -/
def State.intoReset (s : State) : State :=
  let t := s.resetRegisters s.rcv.buf s.rcv.src s.rcv.peer s.rcv.ext
  { t with host := { s.host with rst := true } }

/-- R290: `rst` goes from 1 to 0. The four unspecified registers then hold any values of their types:
`ADDR_W` bits for an address, at most `MSS` bytes for `r_ext` (R31). -/
def State.afterReset (s : State) (buf : Bytes) (src peer : Addr) (ext : Bytes) : State :=
  let t := s.resetRegisters buf (s.params.addr src) (s.params.addr peer) (ext.take Config.mss)
  { t with host := { s.host with rst := false } }

/-- One move of the host. Lowering `rst` when it is 0 is no event; a configuration is presented while
`rst = 1` or after `s_done = 1`, and a change of it during a run has no meaning (R78, R301 (e), U15). -/
def hostMove (m : HostMove) (s : State) : Result :=
  match m with
  | .setSenderCancel b => .next { s with host := { s.host with sCancel := b } }
  | .setReceiverCancel b => .next { s with host := { s.host with rCancel := b } }
  | .raiseReset => .next s.intoReset
  | .releaseReset buf src peer ext => fire s.host.rst s (.next (s.afterReset buf src peer ext))
  | .load units n dest =>
    if s.host.rst || s.snd.halted then
      .next { s with host := { s.host with units := units, nUnits := n, sDest := s.params.addr dest } }
    else .refused .unstableConfiguration

/-! ## What the host prepares and reads (70_reset_and_hazards.md R301, 20_memory.md R65) -/

/-- Consecutive pieces of `MSS` bytes, at most `fuel` of them. -/
def splitFuel : Nat → Bytes → List Bytes
  | 0, _ => []
  | fuel + 1, file =>
    if file.isEmpty then [] else file.take Config.mss :: splitFuel fuel (file.drop Config.mss)

/-- R301, `split(file, MSS)`: the last piece has 1 to `MSS` bytes, an empty file gives none. -/
def split (file : Bytes) : List Bytes := splitFuel file.length file

/-- R301, R106, `UNITS(ext, file) = [ext] ++ split(file, MSS) ++ [EOF_MARKER]`. -/
def transferUnits (ext file : Bytes) : Memory := ext :: (split file ++ [Config.eofMarker])

/-- R65: the content of the file is the payloads of the `APPEND` events in the order emitted. -/
def fileContent : List SinkEvent → Bytes
  | [] => []
  | .append p :: rest => p ++ fileContent rest
  | .name _ _ :: rest => fileContent rest
  | .close :: rest => fileContent rest

end Machine
end Sys2Proof
end

