-- ==== Sys2Proof/Machine/Schedule.lean ====
section
/-! DEFINITION. How the next operation is chosen and run (00_scope.md R8 to R10): the turn at the head of
the script says which agent moves; a state machine's operation is the one its select word picks
(30_encoding.md R101, R102). And how a given operation is made the next one. -/

namespace Sys2Proof
namespace Machine

/-- What a selection does: the picked operation runs; a (hold) or (terminal) row changes nothing (R189,
R190, R221, R222); no row fits only a reserved code (R104), which no state holds. -/
def runSelection (x : Selection) (s : State) : Result :=
  match x with
  | .fire i => exec i s
  | .hold => .next s
  | .terminal => .next s
  | .noRow => .refused (.undecodable .reservedCode)

/-- A turn of `sender_fsm`: none of its operations is enabled while `rst = 1` (R290). -/
def senderTurn (s : State) : Result :=
  if s.host.rst then .next s else runSelection (decodeSsel s.ssel) s

/-- A turn of `receiver_fsm`: none of its operations is enabled while `rst = 1` (R290). -/
def receiverTurn (s : State) : Result :=
  if s.host.rst then .next s else runSelection (decodeRsel s.rsel) s

/-- A unit is exercised by itself: its record is decoded and run; a legal word that names no operation
changes nothing, any other record is refused (R104, U8). -/
def unitTurn (record : Bytes) (s : State) : Result :=
  match decode record with
  | .ok i => exec i s
  | .error .noOperation => .next s
  | .error why => .refused (.undecodable why)

/-- One turn. -/
def runTurn (t : Turn) (s : State) : Result :=
  match t with
  | .sender => senderTurn s
  | .receiver => receiverTurn s
  | .senderTick => exec .tmrTick s
  | .receiverTick => exec .riTick s
  | .unit record => unitTurn record s
  | .transport m => transportMove m s
  | .host m => hostMove m s

/-- The turn at the head of the script is taken and spent; with an empty script nobody moves. -/
def takeTurn (s : State) : Result :=
  match s.script with
  | [] => .next s
  | t :: rest => runTurn t { s with script := rest }

/-! ## Making an operation the next one -/

/-- A datagram that is a valid packet for the given sequence number and payload. -/
def validDatagram (q : SeqNum) (p : Bytes) : Datagram := { bytes := makePacket q p, addr := 0 }

/-- A sender that waits with its timer RUNNING. -/
def Sender.waiting (x : Sender) : Sender := { x with state := .waitAck, tmrRun := true, tmrCnt := 1 }

/-- A receiver that processes a packet after the extension. -/
def Receiver.processing (x : Receiver) (w : Bytes) : Receiver :=
  { x with state := .process, extReceived := true, buf := w }

/-- The state with the given turn next. -/
def State.withTurn (s : State) (t : Turn) : State := { s with script := t :: s.script }

/-- The same state, in the situation in which the operation is the one that fires next, and with the turn
that runs it: an operation of a state machine is selected by its registers and inputs, so these are set
to what its condition asks for; every other operation is put in the script. -/
def State.arrange (s : State) (i : Instr) : State :=
  match i with
  | .encode .. | .decode _ | .mkpkt .. | .ack _ | .eofpkt _ | .checksum .. | .verify .. | .pktOk _
  | .tmrStart | .tmrStop | .tmrIsRunning | .tmrHasExpired => s.withTurn (.unit (encode i))
  | .tmrTick => s.withTurn .senderTick
  | .riTick => s.withTurn .receiverTick
  | .sCancel =>
    { s with snd := { s.snd with state := if s.snd.state = SenderState.done then SenderState.send else s.snd.state },
             host := { s.host with sCancel := true } }.withTurn .sender
  | .sSend =>
    { s with snd := { s.snd with state := .send, idx := 0 },
             host := { s.host with sCancel := false, nUnits := 1, units := [[]] } }.withTurn .sender
  | .sTimeout =>
    { s with snd := { s.snd with state := .waitAck, tmrRun := true, tmrCnt := 0 },
             host := { s.host with sCancel := false } }.withTurn .sender
  | .sAckOk =>
    { s with snd := s.snd.waiting, host := { s.host with sCancel := false },
             chan := { s.chan with sRx := some (validDatagram 0 []) } }.withTurn .sender
  | .sAckBad =>
    { s with snd := s.snd.waiting, host := { s.host with sCancel := false },
             chan := { s.chan with sRx := some { bytes := [], addr := 0 } } }.withTurn .sender
  | .sRetransmit =>
    { s with snd := { s.snd with state := .retransmit }, host := { s.host with sCancel := false } }.withTurn .sender
  | .sAdvance =>
    { s with snd := { s.snd with state := .advance }, host := { s.host with sCancel := false } }.withTurn .sender
  | .sDoneEof => { s with snd := { s.snd with state := .done, halted := false } }.withTurn .sender
  | .rCancel =>
    { s with rcv := { s.rcv with state := .waitPacket }, host := { s.host with rCancel := true } }.withTurn .receiver
  | .rRecv =>
    { s with rcv := { s.rcv with state := .waitPacket }, host := { s.host with rCancel := false },
             chan := { s.chan with rRx := some { bytes := [], addr := 0 } } }.withTurn .receiver
  | .rIdleTimeout =>
    { s with rcv := { s.rcv with state := .waitPacket, idleCnt := 0 }, host := { s.host with rCancel := false },
             chan := { s.chan with rRx := none } }.withTurn .receiver
  | .rDrop => { s with rcv := { s.rcv with state := .process, buf := [] } }.withTurn .receiver
  | .rExt =>
    { s with rcv := { s.rcv with state := .process, extReceived := false, buf := makePacket 0 [] } }.withTurn .receiver
  | .rData => { s with rcv := s.rcv.processing (makePacket s.rcv.expected []) }.withTurn .receiver
  | .rEof => { s with rcv := s.rcv.processing (eofPacket s.rcv.expected) }.withTurn .receiver
  | .rDup => { s with rcv := s.rcv.processing (makePacket s.rcv.expected.toggle []) }.withTurn .receiver
  | .rAck => { s with rcv := { s.rcv with state := .ack } }.withTurn .receiver

/-- The state with `rst` released, so that the next turn is not held by it. -/
def State.outOfReset (s : State) : State := { s with host := { s.host with rst := false } }

/-- The situation for a table word: that of its operation, or, for a word that decodes to nothing, a unit
turn with the word's record, which step then refuses or spends. -/
def placeWord (s : State) (nbits w : Nat) : State :=
  match decodeTableWord nbits w with
  | some i => s.outOfReset.arrange i
  | none => s.withTurn (.unit (if 2 ^ nbits ≤ w then [] else tableRecord nbits w))

end Machine
end Sys2Proof
end

