-- ==== Sys2Proof/Machine/Step.lean ====
section
/-! DEFINITION. One step of the machine, and the state whose next step runs a given word of
spec/opcode_table.json. -/

namespace Sys2Proof
namespace Machine

/-- R8: one step is one turn of one agent. -/
def step (s : State) : Host.Outcome State Fault Refusal := takeTurn s

/-- The state with the operation of a table word as the one the next step runs
(notes/assumptions/12.md). -/
def State.withFetchWord (s : State) (nbits w : Nat) : State := placeWord s nbits w

end Machine
end Sys2Proof
end

