-- ==== Sys2Proof/Machine/Ports.lean ====
section
/-! DEFINITION. The status outputs of the block (10_state.md R40): plain copies or Boolean functions of
registers, no state of their own. -/

namespace Sys2Proof
namespace Machine

/-- `s_state_o` -/
def State.sStateO (s : State) : BitVec 3 := s.snd.state.code

/-- `s_seq_o`; with `s_idx_o` the in-flight unit (R192). -/
def State.sSeqO (s : State) : SeqNum := s.snd.seqNum

/-- `s_idx_o` -/
def State.sIdxO (s : State) : BitVec 32 := s.snd.idx

/-- `s_tx_count_o` -/
def State.sTxCountO (s : State) : BitVec 32 := s.snd.txCount

/-- `s_retx_count_o` -/
def State.sRetxCountO (s : State) : BitVec 32 := s.snd.retxCount

/-- `s_done` -/
def State.sDone (s : State) : Bool := s.snd.halted

/-- `s_complete`, meaningful when `s_done = 1`. -/
def State.sComplete (s : State) : Bool := s.snd.sentAny

/-- `tmr_running` -/
def State.tmrRunning (s : State) : Bool := s.snd.tmrRun

/-- `tmr_expired` -/
def State.tmrExpiredO (s : State) : Bool := s.snd.tmrExpired

/-- `r_state_o` -/
def State.rStateO (s : State) : BitVec 3 := s.rcv.state.code

/-- `r_expected_o` -/
def State.rExpectedO (s : State) : SeqNum := s.rcv.expected

/-- `r_done` -/
def State.rDone (s : State) : Bool := s.rcv.state == .done

/-- `r_abort` -/
def State.rAbort (s : State) : Bool := s.rcv.state == .timeoutAbort

/-- `r_named`: a name is reported (R221). -/
def State.rNamed (s : State) : Bool := s.rcv.state == .done && s.rcv.extReceived

/-- `r_peer_o`, meaningful only when `r_ext_received = 1`. -/
def State.rPeerO (s : State) : Addr := s.rcv.peer

/-- `r_ext_o`, meaningful only when `r_ext_received = 1`. -/
def State.rExtO (s : State) : Bytes := s.rcv.ext

/-- R190: the sender has finished. -/
def State.senderTerminal (s : State) : Bool := s.snd.state == .done && s.snd.halted

/-- R221: the receiver has finished. -/
def State.receiverTerminal (s : State) : Bool := s.rcv.state == .done || s.rcv.state == .timeoutAbort

/-- R189: the three cases in which the sender holds. -/
def State.senderHolds (s : State) : Bool :=
  !s.host.sCancel &&
    ((s.snd.state == .waitAck && s.snd.timerState == .running && !s.senderAvail) ||
     (s.snd.state == .send && decide (s.host.nUnits ≤ s.snd.idx)) ||
     (s.snd.state == .waitAck && !s.snd.tmrRun))

/-- R222: the one case in which the receiver holds. -/
def State.receiverHolds (s : State) : Bool :=
  s.rcv.state == .waitPacket && !s.host.rCancel && !s.receiverAvail && s.rcv.idleCnt != 0

end Machine
end Sys2Proof
end

