-- ==== Sys2Proof/Safety.lean ====
section
/-! DEFINITION. What counts as a safe state and a safe run, in the terms the statements use: the
invariants of the reachable states (10_state.md R44, R25, R30; 44_sender_fsm.md R193; 20_memory.md R62,
R65), what a conforming host presents (70_reset_and_hazards.md R301), and which scripts stay within the
agents of 00_scope.md R9. -/

namespace Sys2Proof
namespace Machine

/-! ## Scripts -/

/-- R9: a turn of an agent, the transport or the host, not a unit exercised by itself
(notes/assumptions/9.md). -/
def Turn.ofAgent (t : Turn) : Bool :=
  match t with
  | .unit _ => false
  | _ => true

/-- A turn that does not touch `rst` and presents no configuration. -/
def Turn.withinRun (t : Turn) : Bool :=
  match t with
  | .host .raiseReset => false
  | .host (.releaseReset ..) => false
  | .host (.load ..) => false
  | _ => true

/-- Every turn still to come is of an agent. -/
def State.agentsOnly (s : State) : Bool := s.script.all Turn.ofAgent

/-- Every turn still to come leaves `rst` and the configuration alone. -/
def State.oneRun (s : State) : Bool := s.script.all Turn.withinRun

/-! ## Registers -/

/-- The sender's part of R44, with what R30 says of a stopped timer. The last field is what makes (f)
inductive; it is a consequence of the same rules. -/
structure SenderInv (params : Config.Params) (x : Sender) : Prop where
  /-- R44 (b) -/
  halted_done : x.halted = true → x.state = .done
  /-- R44 (c) -/
  waiting_started : x.state = .waitAck → x.tmrRun = true
  /-- R44 (c) -/
  retransmit_expired : x.state = .retransmit → x.timerState = .expired
  /-- R44 (c) -/
  resting_stopped : x.state = .advance ∨ x.state = .done → x.tmrRun = false
  /-- R44 (c) -/
  send_not_running : x.state = .send → x.timerState = .stopped ∨ x.timerState = .expired
  /-- R44 (d) -/
  count_bounded : x.tmrCnt ≤ params.txTimeoutTicks
  /-- R21: the count has `TMR_W` bits. -/
  count_fits : x.tmrCnt < 2 ^ params.tmrW
  /-- R30 -/
  stopped_clear : x.timerState = .stopped → x.tmrCnt = 0
  /-- R44 (f) -/
  unsent_uncounted : x.sentAny = false → x.txCount = 0 ∧ x.retxCount = 0
  /-- Nothing was sent: the sender is still in its first state, or was cancelled there. -/
  unsent_place : x.sentAny = false → x.state = .send ∨ x.state = .done

/-- The receiver's part of R44, with the width R31 gives `r_ext`. -/
structure ReceiverInv (params : Config.Params) (x : Receiver) : Prop where
  /-- R44 (d) -/
  idle_bounded : x.idleCnt ≤ params.rxTimeoutTicks
  /-- R31: the count has `TMR_W` bits. -/
  idle_fits : x.idleCnt < 2 ^ params.tmrW
  /-- R44 (e) -/
  unnamed_expects_zero : x.extReceived = false → x.expected = 0
  /-- R31 -/
  ext_bounded : x.ext.length ≤ Config.mss

/-- R44, and R255 for a block kept in reset, for a machine whose script stays within the agents. -/
structure RegisterInv (s : State) : Prop where
  sender : SenderInv s.params s.snd
  receiver : ReceiverInv s.params s.rcv
  agents : s.agentsOnly = true
  /-- R255, R290: while `rst = 1` every register has its reset value, the counters 0. -/
  in_reset : s.host.rst = true → s.snd = Sender.reset ∧
    s.rcv = Receiver.resetWith s.params.rxTimeoutTicks s.rcv.buf s.rcv.src s.rcv.peer s.rcv.ext

/-- R193: unit `i` is always sent, and resent, with sequence number `i mod 2`. -/
structure AlternationInv (x : Sender) : Prop where
  unit_parity : x.state = .send ∨ x.state = .waitAck ∨ x.state = .retransmit → x.seqNum.value = x.idx.toNat % 2
  advance_parity : x.state = .advance → x.seqNum.value = (x.idx.toNat + 1) % 2

/-- R25: while a unit is in hand its index is below `n_units`, if there is a unit at all. Said outside
reset; `halted_done` is R44 (b). -/
structure IndexInv (s : State) : Prop where
  halted_done : s.snd.halted = true → s.snd.state = .done
  in_range : s.host.rst = false → 1 ≤ s.host.nUnits → s.snd.state ≠ .done → s.snd.idx < s.host.nUnits

/-! ## What leaves the block -/

/-- R62, R262: what the block emits is a valid packet of a legal length. -/
def emittedOk (m : Datagram) : Bool :=
  packetOk m.bytes && decide (Config.hdrLen ≤ m.bytes.length) && decide (m.bytes.length ≤ Config.maxDgram)

/-- Every datagram the transport has not accepted yet is one. -/
def EmittedInv (s : State) : Prop :=
  (∀ m ∈ s.chan.sTx, emittedOk m = true) ∧ (∀ m ∈ s.chan.rTx, emittedOk m = true)

/-- R65, R38, R221: what the events of `SINK` are, as the receiver's registers tell it: a `NAME` that
carries `r_peer` and `r_ext` once the extension was received, then `APPEND`s of at most `MSS` bytes,
then one `CLOSE` when the receiver is terminal. -/
def SinkShape (x : Receiver) (events : List SinkEvent) : Prop :=
  ∃ payloads : List Bytes,
    (∀ p ∈ payloads, p.length ≤ Config.mss) ∧
    (x.extReceived = false → payloads = []) ∧
    events = (if x.extReceived then [SinkEvent.name x.peer x.ext] else []) ++ payloads.map SinkEvent.append ++
      (if x.state = .done ∨ x.state = .timeoutAbort then [SinkEvent.close] else [])

/-- The sink's shape over one run: no reset and no new configuration to come. -/
structure SinkInv (s : State) : Prop where
  shape : SinkShape s.rcv s.log.sink
  one_run : s.oneRun = true

/-- Every address in the machine has at most `ADDR_W` bits (R6): the destination, the two address
registers, every datagram emitted, in transit or on offer, and the peers of the `NAME` events. -/
structure AddressesFit (s : State) : Prop where
  dest : s.host.sDest < 2 ^ s.params.addrW
  src : s.rcv.src < 2 ^ s.params.addrW
  peer : s.rcv.peer < 2 ^ s.params.addrW
  offeredS : ∀ m ∈ s.chan.sRx, m.addr < 2 ^ s.params.addrW
  offeredR : ∀ m ∈ s.chan.rRx, m.addr < 2 ^ s.params.addrW
  emittedS : ∀ m ∈ s.chan.sTx, m.addr < 2 ^ s.params.addrW
  emittedR : ∀ m ∈ s.chan.rTx, m.addr < 2 ^ s.params.addrW
  transitS : ∀ m ∈ s.chan.toSender, m.addr < 2 ^ s.params.addrW
  transitR : ∀ m ∈ s.chan.toReceiver, m.addr < 2 ^ s.params.addrW
  names : ∀ a e, SinkEvent.name a e ∈ s.log.sink → a < 2 ^ s.params.addrW

/-! ## The host's side -/

/-- R301 (a), (b), R6: the store holds `n_units` units of at most `MSS` bytes and the parameters are
legal. -/
def State.configured (s : State) : Bool :=
  s.params.wf && Memory.wf s.host.units && decide (s.host.units.length = s.host.nUnits.toNat)

/-- Right after reset, for any parameters, any inputs of the host but `rst`, any values of the four
registers whose reset value is unspecified, and any script. -/
def State.resetFor (params : Config.Params) (host : HostInputs) (buf : Bytes) (src peer : Addr) (ext : Bytes)
    (script : List Turn) : State :=
  { State.reset with
    params := params
    host := { host with rst := false }
    rcv := Receiver.resetWith params.rxTimeoutTicks buf src peer ext
    script := script }

/-! ## Runs -/

/-- `k` steps of the machine. -/
def run (k : Nat) (s : State) : Result := Host.Core.run Sys2Proof.core k s

end Machine
end Sys2Proof
end

