-- ==== Sys2Proof/Certificates/Slice0/Obligations.lean ====
section
/-! DEFINITION. The statements for the provers. Each is read from the spec's numbered rules; a docstring
names the rule, and says where a clause is an inference or a decision of the spec, or a choice of the
model. "The state is unchanged but for ..." is said by a record update of the state before: every
register, channel, stream and unit not written there is as before. -/

open Sys2Proof Sys2Proof.Machine

namespace Sys2Proof
namespace Machine

/-! ## Words the statements use -/

/-- The operations of `sender_fsm`. -/
def senderOperations : List Instr :=
  [.sCancel, .sSend, .sTimeout, .sAckOk, .sAckBad, .sRetransmit, .sAdvance, .sDoneEof]

/-- The operations of `receiver_fsm`. -/
def receiverOperations : List Instr :=
  [.rCancel, .rRecv, .rIdleTimeout, .rDrop, .rExt, .rData, .rEof, .rDup, .rAck]

/-- The operations that write the retransmission timer and nothing else. -/
def timerOperations : List Instr := [.tmrStart, .tmrStop, .tmrTick]

/-- The operations that write no register: the pure functions and the timer's queries. -/
def Instr.isPure (i : Instr) : Bool :=
  match i with
  | .encode .. | .decode _ | .mkpkt .. | .ack _ | .eofpkt _ | .checksum .. | .verify .. | .pktOk _
  | .tmrIsRunning | .tmrHasExpired => true
  | _ => false

/-- What can be seen of an outcome through a view of the state. -/
def observe {α : Type} (view : State → α) (r : Result) : Host.Outcome α Fault Refusal :=
  match r with
  | .next t => .next (view t)
  | .fault f => .fault f
  | .refused e => .refused e

/-- A byte string with one bit flipped: bit `b` of the byte at offset `k`. -/
def flipBit (w : Bytes) (k b : Nat) : Bytes := w.modify k fun x => x ^^^ (1#8 <<< b)

/-- The state without what stands in `r_peer` and `r_ext`. -/
def forgetName (s : State) : State := { s with rcv := { s.rcv with peer := 0, ext := [] } }

/-- The state without what stands in `r_buf` and `r_src`. -/
def forgetBuffer (s : State) : State := { s with rcv := { s.rcv with buf := [], src := 0 } }

/-- What the sender endpoint reads and writes: `TX_TIMEOUT_TICKS`; of the host's inputs `rst`, `s_cancel`,
`n_units`, `s_dest` and the unit store; its registers, its two channels, its diagnostic stream. -/
def senderView (s : State) :
    Nat × Bool × Bool × BitVec 32 × Addr × Memory × Sender × List Datagram × Option Datagram × List Cause :=
  (s.params.txTimeoutTicks, s.host.rst, s.host.sCancel, s.host.nUnits, s.host.sDest, s.host.units, s.snd, s.chan.sTx,
    s.chan.sRx, s.log.sDiag)

/-- What the receiver endpoint reads and writes: `RX_TIMEOUT_TICKS` and `ACK_PAYLOAD`; of the host's inputs
`rst` and `r_cancel` only; its registers, its two channels, the sink, its diagnostic stream. -/
def receiverView (s : State) :
    Nat × Bytes × Bool × Bool × Receiver × List Datagram × Option Datagram × List SinkEvent × List Cause :=
  (s.params.rxTimeoutTicks, s.params.ackPayload, s.host.rst, s.host.rCancel, s.rcv, s.chan.rTx, s.chan.rRx, s.log.sink,
    s.log.rDiag)

/-- The datagram with its address renamed. -/
def Datagram.rename (f : Addr → Addr) (m : Datagram) : Datagram := { m with addr := f m.addr }

/-- The event with its address, if it carries one, renamed. -/
def SinkEvent.rename (f : Addr → Addr) (e : SinkEvent) : SinkEvent :=
  match e with
  | .name peer ext => .name (f peer) ext
  | .append p => .append p
  | .close => .close

/-- The state with every address in it renamed: the destination, `r_src`, `r_peer`, those of the datagrams
emitted, on offer and in transit, and those of the `NAME` events. -/
def renameAddresses (f : Addr → Addr) (s : State) : State :=
  { s with
    host := { s.host with sDest := f s.host.sDest }
    rcv := { s.rcv with src := f s.rcv.src, peer := f s.rcv.peer }
    chan :=
      { sTx := s.chan.sTx.map (Datagram.rename f), rTx := s.chan.rTx.map (Datagram.rename f)
        sRx := s.chan.sRx.map (Datagram.rename f), rRx := s.chan.rRx.map (Datagram.rename f)
        toReceiver := s.chan.toReceiver.map (Datagram.rename f)
        toSender := s.chan.toSender.map (Datagram.rename f) }
    log := { s.log with sink := s.log.sink.map (SinkEvent.rename f) } }

/-- The turns that carry one unit across a transport that delivers everything, and its acknowledgment
back: send; accept, offer; receive, process, acknowledge; accept, offer; take the acknowledgment,
advance. The datagrams carry the source addresses `a` (the sender's) and `b` (the receiver's). -/
def deliveryRound (a b : Addr) : List Turn :=
  [.sender, .transport (.accept .toReceiver a), .transport (.offer .toReceiver 0), .receiver, .receiver, .receiver,
   .transport (.accept .toSender b), .transport (.offer .toSender 0), .sender, .sender]

/-- The turns of a whole transfer of `n` units, the final EOF packet included. -/
def deliveryScript (a b : Addr) (n : Nat) : List Turn :=
  (List.replicate n (deliveryRound a b)).flatten ++ [.sender]

end Machine
end Sys2Proof

/-! ## Encodings -/

/-- DESIGN CHOICE, notes/assumptions/10.md: the record is the model's; the words in it are those of R91,
R99, R101, R102. Every operation with operands in their types is read back whole. -/
def Obligations.DecodeOfEncodeIsTheOperation : Prop :=
  ∀ i : Instr, wellFormed i = true → decode (encode i) = .ok i

/-- R101, R102, R99: match values of the tables, written out, and the operations they pick; R97, R98, R250:
the codes of the states and of the causes. -/
def Obligations.TableWordsAndStateCodes : Prop :=
  (SenderState.send.code = 0b000 ∧ SenderState.waitAck.code = 0b001 ∧ SenderState.retransmit.code = 0b010 ∧
    SenderState.advance.code = 0b011 ∧ SenderState.done.code = 0b100) ∧
  (ReceiverState.waitPacket.code = 0b000 ∧ ReceiverState.process.code = 0b001 ∧ ReceiverState.ack.code = 0b010 ∧
    ReceiverState.done.code = 0b011 ∧ ReceiverState.timeoutAbort.code = 0b100) ∧
  (Cause.channelLoss.code = 1 ∧ Cause.corruptPacket.code = 2 ∧ Cause.outOfOrderDuplicate.code = 3 ∧
    Cause.malformedPacket.code = 4 ∧ Cause.sourceUnavailable.code = 5 ∧ Cause.userCancellation.code = 6) ∧
  decodeSsel 0b000010000 = .fire .sCancel ∧ decodeSsel 0b000000000 = .fire .sSend ∧
  decodeSsel 0b001001011 = .fire .sAckOk ∧ decodeSsel 0b001001010 = .fire .sAckBad ∧
  decodeSsel 0b001001100 = .fire .sTimeout ∧ decodeSsel 0b100000000 = .fire .sDoneEof ∧
  decodeRsel 0b0000100000 = .fire .rRecv ∧ decodeRsel 0b0010001110 = .fire .rData ∧
  decodeRsel 0b0010001111 = .fire .rEof ∧ decodeRsel 0b0010001100 = .fire .rDup ∧
  decodeRsel 0b0100000000 = .fire .rAck ∧
  decodeTcmd 0b01 = .fire .tmrStart ∧ decodeTcmd 0b10 = .fire .tmrStop ∧ decodeTcmd 0b11 = .noRow ∧
  decodeSsel 0b101000000 = .noRow ∧ decodeRsel 0b1110000000 = .noRow

/-- R101 "The pairs are disjoint, so at most one fits", R102 "exactly one row applies": the word formed
from any state fits exactly one row of its table. -/
def Obligations.ExactlyOneSelectRowFits : Prop :=
  ∀ s : State, (senderRows.filter fun r => r.fits s.ssel).length = 1 ∧
    (receiverRows.filter fun r => r.fits s.rsel).length = 1

/-! ## The codec and the checksum unit as functions -/

/-- R13: `popcount8`, `popcount`, `dec8` and `MKPKT`, as the rule defines them. -/
def Obligations.HelperFunctions : Prop :=
  (∀ b : Byte, popcount8 b = ((List.range 8).filter fun i => b.getLsbD i).length) ∧
  (∀ p : Bytes, popcount p = (p.map popcount8).sum) ∧
  (∀ n : Nat, n ≤ 99999999 → (dec8 n).length = 8 ∧
    ∀ k : Nat, k ≤ 7 → ((dec8 n)[k]?).map BitVec.toNat = some (0x30 + n / 10 ^ (7 - k) % 10)) ∧
  (∀ (q : SeqNum) (p : Bytes), makePacket q p = encodePacket q (checksum q p) p)

/-- R125 (a) and (b), an inference of the spec from R120 and R123: `ENCODE` and `DECODE` are an exact
inverse pair. -/
def Obligations.PacketCodecIsAnInversePair : Prop :=
  (∀ (q : SeqNum) (c p : Bytes), c.length = 8 → p.length ≤ Config.mss →
    decodePacket (encodePacket q c p) = some { seqNum := q, token := c, payload := p }) ∧
  (∀ (w : Bytes) (k : Packet), decodePacket w = some k → encodePacket k.seqNum k.token k.payload = w)

/-- R146, the law the spec infers from R125 and R144 (a): `PKT_OK` holds exactly for the packets `MKPKT`
makes. -/
def Obligations.ValidPacketsAreTheMadeOnes : Prop :=
  ∀ w : Bytes, packetOk w = true ↔ ∃ (q : SeqNum) (p : Bytes), p.length ≤ Config.mss ∧ w = makePacket q p

/-- R144 (b), the part the spec infers from R140 and R143: every single-bit change of a packet that
`MKPKT` made is refused. -/
def Obligations.EverySingleBitFlipIsCaught : Prop :=
  ∀ (q : SeqNum) (p : Bytes) (k b : Nat), p.length ≤ Config.mss → k < (makePacket q p).length → b < 8 →
    packetOk (flipBit (makePacket q p) k b) = false

/-- R141 (d), R145, inferences of the spec: two payloads within `MSS` have the same token exactly when
their bit counts with their sequence numbers agree; bytes of zeros at the end are not seen. -/
def Obligations.ChecksumSeesOnlyTheBitCount : Prop :=
  (∀ (q q' : SeqNum) (p p' : Bytes), p.length ≤ Config.mss → p'.length ≤ Config.mss →
    (checksum q p = checksum q' p' ↔ popcount p + q.value = popcount p' + q'.value)) ∧
  (∀ (q : SeqNum) (p : Bytes) (n : Nat), checksum q (p ++ List.replicate n 0) = checksum q p)

/-! ## The codec and the checksum unit exercised by themselves

That their answer stands in the field `unitOut` is the model's (notes/assumptions/9.md). -/

/-- R140: `CHECKSUM(s, p)`, payloads of 0 to `MSS` bytes. No register is written. -/
def Obligations.ChecksumAnswersTheBitCount : Prop :=
  ∀ (q : SeqNum) (p : Bytes) (s : State), p.length ≤ Config.mss →
    exec (.checksum q p) s = .next { s with unitOut := .bytes (dec8 (popcount p + q.toNat)) }

/-- R120, R126, R127, R128: the four operations that build a packet. No register is written. -/
def Obligations.EncodersAnswerThePacket : Prop :=
  ∀ (q : SeqNum) (c p : Bytes) (s : State), c.length = 8 → p.length ≤ Config.mss →
    exec (.encode q c p) s = .next { s with unitOut := .bytes ((0x30 + q.zeroExtend 8) :: (c ++ p)) } ∧
    exec (.mkpkt q p) s =
      .next { s with unitOut := .bytes ((0x30 + q.zeroExtend 8) :: (dec8 (popcount p + q.toNat) ++ p)) } ∧
    (s.params.ackPayload.length ≤ Config.mss →
      exec (.ack q) s = .next { s with unitOut := .bytes ((0x30 + q.zeroExtend 8) ::
        (dec8 (popcount s.params.ackPayload + q.toNat) ++ s.params.ackPayload)) }) ∧
    exec (.eofpkt q) s = .next { s with unitOut := .bytes ((0x30 + q.zeroExtend 8) ::
      (dec8 (15 + q.toNat) ++ [0x5C, 0x45, 0x4F, 0x46])) }

/-- R123: `DECODE(w)` on any byte string, both ways. No register is written. -/
def Obligations.DecoderAnswersThePacketOrMalformed : Prop :=
  ∀ (w : Bytes) (s : State),
    (∀ (q : SeqNum) (c p : Bytes), c.length = 8 → p.length ≤ Config.mss → w = (0x30 + q.zeroExtend 8) :: (c ++ p) →
      exec (.decode w) s = .next { s with unitOut := .packet { seqNum := q, token := c, payload := p } }) ∧
    (w.length < 9 ∨ 1009 < w.length ∨ (w[0]? ≠ some 0x30 ∧ w[0]? ≠ some 0x31) →
      exec (.decode w) s = .next { s with unitOut := .malformed })

/-- R143, R146: `VERIFY` compares tokens byte for byte; `PKT_OK(w)` is `VERIFY` of what `DECODE` gives, false
where `DECODE` fails. No register is written. -/
def Obligations.VerifiersAnswerTheComparison : Prop :=
  ∀ (q : SeqNum) (c p w : Bytes) (s : State),
    (c.length = 8 → p.length ≤ Config.mss →
      exec (.verify q c p) s = .next { s with unitOut := .bit (decide (dec8 (popcount p + q.toNat) = c)) }) ∧
    (∀ k : Packet, decodePacket w = some k →
      exec (.pktOk w) s = .next { s with
        unitOut := .bit (decide (dec8 (popcount k.payload + k.seqNum.toNat) = k.token)) }) ∧
    (decodePacket w = none → exec (.pktOk w) s = .next { s with unitOut := .bit false })

/-- DESIGN CHOICE, notes/assumptions/13.md and 14.md: where an operand is outside its type (R120), a unit
is longer than `MSS` (R319) or is not in the store (R61), the operation stops by name. -/
def Obligations.OperandsOutsideTheirTypesStop : Prop :=
  ∀ (q : SeqNum) (c p : Bytes) (s : State),
    (c.length ≠ 8 ∨ Config.mss < p.length →
      exec (.encode q c p) s = .refused .operandOutsideType ∧ exec (.verify q c p) s = .refused .operandOutsideType) ∧
    (Config.mss < p.length →
      exec (.mkpkt q p) s = .refused .operandOutsideType ∧ exec (.checksum q p) s = .refused .operandOutsideType) ∧
    (Config.mss < s.params.ackPayload.length → exec (.ack q) s = .refused .operandOutsideType ∧
      (s.host.rst = false → s.rcv.state = .ack → exec .rAck s = .refused .operandOutsideType)) ∧
    (s.host.rst = false → s.snd.state = .send → s.host.sCancel = false → s.snd.idx < s.host.nUnits →
      (memRead s.host.units s.snd.idx = none → exec .sSend s = .fault (.absentUnit s.snd.idx)) ∧
      (memRead s.host.units s.snd.idx = some p → Config.mss < p.length → exec .sSend s = .refused .oversizedUnit))

/-! ## The timers -/

/-- R161, R162 (with D18, D19: from every state of the timer), out of reset: a start loads the full
interval and the timer is RUNNING, a stop clears it and the timer is STOPPED. -/
def Obligations.TimerStartAndStop : Prop :=
  ∀ s : State, s.host.rst = false →
    exec .tmrStart s = .next { s with snd := { s.snd with tmrRun := true, tmrCnt := s.params.txTimeoutTicks } } ∧
    exec .tmrStop s = .next { s with snd := { s.snd with tmrRun := false, tmrCnt := 0 } } ∧
    (s.params.wf = true → ∀ t : State, exec .tmrStart s = .next t → t.snd.timerState = .running) ∧
    (∀ t : State, exec .tmrStop s = .next t → t.snd.timerState = .stopped)

/-- R163, R160, out of reset: a tick counts a RUNNING timer down by one, to EXPIRED from 1, and changes
nothing else and nothing in the other two states. -/
def Obligations.TimerTickCountsARunningTimer : Prop :=
  ∀ s : State, s.host.rst = false →
    (s.snd.timerState = .running →
      exec .tmrTick s = .next { s with snd := { s.snd with tmrCnt := s.snd.tmrCnt - 1 } } ∧
      s.snd.tmrCnt - 1 + 1 = s.snd.tmrCnt ∧
      ∀ t : State, exec .tmrTick s = .next t →
        (s.snd.tmrCnt = 1 → t.snd.timerState = .expired) ∧ (s.snd.tmrCnt ≠ 1 → t.snd.timerState = .running)) ∧
    (s.snd.timerState ≠ .running → exec .tmrTick s = .next s)

/-- R165 (and R164 beside it): `has_expired()` and `is_running()` answer and write no register; false in
STOPPED; false right after a start, since `TX_TIMEOUT_TICKS` is at least 1. -/
def Obligations.TimerQueriesAnswer : Prop :=
  ∀ s : State,
    exec .tmrHasExpired s = .next { s with unitOut := .bit (decide (s.snd.tmrRun = true ∧ s.snd.tmrCnt = 0)) } ∧
    (s.snd.timerState = .stopped → exec .tmrHasExpired s = .next { s with unitOut := .bit false }) ∧
    (s.host.rst = false → s.params.wf = true → ∀ t : State, exec .tmrStart s = .next t →
      exec .tmrHasExpired t = .next { t with unitOut := .bit false }) ∧
    exec .tmrIsRunning s = .next { s with unitOut := .bit s.snd.tmrRun } ∧
    (s.snd.timerState = .running ∨ s.snd.timerState = .expired →
      exec .tmrIsRunning s = .next { s with unitOut := .bit true })

/-- R163: `n` ticks with no start or stop between them take `n` from the count and stop at 0; so exactly
`TX_TIMEOUT_TICKS` ticks bring a timer just started to EXPIRED, and one fewer does not. -/
def Obligations.TimerExpiresAfterExactlyItsTicks : Prop :=
  ∀ (s : State) (n : Nat) (rest : List Turn), s.host.rst = false → s.snd.tmrRun = true →
    s.script = List.replicate n .senderTick ++ rest →
    run n s = .next { s with snd := { s.snd with tmrCnt := s.snd.tmrCnt - n }, script := rest } ∧
    (s.snd.tmrCnt = s.params.txTimeoutTicks → ∀ t : State, run n s = .next t →
      (t.snd.timerState = .expired ↔ s.params.txTimeoutTicks ≤ n))

/-- R169, out of reset: a receiver tick counts only in `WAIT_PACKET` and only above 0. -/
def Obligations.IdleTickCountsOnlyWhileWaiting : Prop :=
  ∀ s : State, s.host.rst = false →
    (s.rcv.state = .waitPacket → s.rcv.idleCnt ≠ 0 →
      exec .riTick s = .next { s with rcv := { s.rcv with idleCnt := s.rcv.idleCnt - 1 } } ∧
      s.rcv.idleCnt - 1 + 1 = s.rcv.idleCnt) ∧
    (s.rcv.state ≠ .waitPacket ∨ s.rcv.idleCnt = 0 → exec .riTick s = .next s)

/-- R222, R212, R169: a receiver that waits, is not cancelled and is offered nothing gives up after as many
ticks as its countdown holds, and not before. -/
def Obligations.ReceiverGivesUpAfterItsBound : Prop :=
  ∀ (s : State) (n : Nat) (rest : List Turn), s.host.rst = false → s.rcv.state = .waitPacket →
    s.host.rCancel = false → s.chan.rRx = none → s.script = List.replicate n .receiverTick ++ .receiver :: rest →
    (s.rcv.idleCnt ≤ n → run (n + 1) s = .next { s with
      rcv := { s.rcv with state := .timeoutAbort, idleCnt := 0 },
      log := { s.log with sink := s.log.sink ++ [.close], rDiag := s.log.rDiag ++ [.channelLoss] },
      script := rest }) ∧
    (n < s.rcv.idleCnt → run (n + 1) s = .next { s with
      rcv := { s.rcv with idleCnt := s.rcv.idleCnt - n }, script := rest })

/-! ## The sender -/

/-- R181: the current unit goes out as a packet with the current sequence number, is counted, and the timer
starts. -/
def Obligations.SendEmitsTheUnitAndStartsTheTimer : Prop :=
  ∀ (s : State) (p : Bytes), s.host.rst = false → s.snd.state = .send → s.host.sCancel = false →
    s.snd.idx < s.host.nUnits → memRead s.host.units s.snd.idx = some p → p.length ≤ Config.mss →
    exec .sSend s = .next { s with
      snd := { s.snd with state := .waitAck, txCount := s.snd.txCount + 1, sentAny := true, tmrRun := true,
                          tmrCnt := s.params.txTimeoutTicks },
      chan := { s.chan with sTx := s.chan.sTx ++
        [{ bytes := (0x30 + s.snd.seqNum.zeroExtend 8) :: (dec8 (popcount p + s.snd.seqNum.toNat) ++ p),
           addr := s.host.sDest }] } }

/-- R182 (with D16): any datagram with `PKT_OK`, whatever its sequence number, payload and source, ends the
wait. -/
def Obligations.AnyValidPacketIsTheAcknowledgment : Prop :=
  ∀ (s : State) (m : Datagram), s.host.rst = false → s.snd.state = .waitAck → s.host.sCancel = false →
    s.snd.timerState = .running → s.chan.sRx = some m → packetOk m.bytes = true →
    exec .sAckOk s = .next { s with
      snd := { s.snd with state := .advance, tmrRun := false, tmrCnt := 0, seqNum := s.snd.seqNum ^^^ 1#1,
                          txCount := s.snd.txCount + 1 },
      chan := { s.chan with sRx := none } }

/-- R183: a datagram that is not a valid packet is taken and dropped with its cause; no register changes. -/
def Obligations.InvalidAcknowledgmentIsDropped : Prop :=
  ∀ (s : State) (m : Datagram), s.host.rst = false → s.snd.state = .waitAck → s.host.sCancel = false →
    s.snd.timerState = .running → s.chan.sRx = some m → packetOk m.bytes = false →
    exec .sAckBad s = .next { s with
      chan := { s.chan with sRx := none },
      log := { s.log with sDiag := s.log.sDiag ++
        [if decodePacket m.bytes = none then .malformedPacket else .corruptPacket] } }

/-- R184 (with D21): an expired timer ends the wait whether or not a datagram is offered; the timer is left
EXPIRED. -/
def Obligations.ExpiryMovesToRetransmit : Prop :=
  ∀ s : State, s.host.rst = false → s.snd.state = .waitAck → s.host.sCancel = false →
    s.snd.timerState = .expired →
    exec .sTimeout s = .next { s with
      snd := { s.snd with state := .retransmit }, log := { s.log with sDiag := s.log.sDiag ++ [.channelLoss] } }

/-- R185: both counters, modulo `2^CNT_W`, and back to `SEND` with the same unit and sequence number. -/
def Obligations.RetransmitCountsAndSendsAgain : Prop :=
  ∀ s : State, s.host.rst = false → s.snd.state = .retransmit → s.host.sCancel = false →
    exec .sRetransmit s = .next { s with
      snd := { s.snd with state := .send, txCount := s.snd.txCount + 1, retxCount := s.snd.retxCount + 1 } } ∧
    (s.snd.txCount + 1).toNat = (s.snd.txCount.toNat + 1) % 2 ^ 32 ∧
    (s.snd.retxCount + 1).toNat = (s.snd.retxCount.toNat + 1) % 2 ^ 32

/-- R186: the index goes up by one modulo `2^IDX_W`; equality with `n_units` on the incremented value ends
the transfer. -/
def Obligations.AdvanceMovesToTheNextUnitOrDone : Prop :=
  ∀ s : State, s.host.rst = false → s.snd.state = .advance → s.host.sCancel = false →
    (s.snd.idx + 1).toNat = (s.snd.idx.toNat + 1) % 2 ^ 32 ∧
    (s.snd.idx + 1 = s.host.nUnits →
      exec .sAdvance s = .next { s with snd := { s.snd with state := .done, idx := s.snd.idx + 1 } }) ∧
    (s.snd.idx + 1 ≠ s.host.nUnits →
      exec .sAdvance s = .next { s with snd := { s.snd with state := .send, idx := s.snd.idx + 1 } })

/-- R187 (with D23), R190: the final EOF packet, whatever `s_cancel`, no counter changed; after it the
sender's turns change nothing. -/
def Obligations.FinalEofIsSentOnce : Prop :=
  ∀ s : State, s.host.rst = false → s.snd.state = .done → s.snd.halted = false →
    exec .sDoneEof s = .next { s with
      snd := { s.snd with halted := true },
      chan := { s.chan with sTx := s.chan.sTx ++
        [{ bytes := (0x30 + s.snd.seqNum.zeroExtend 8) ::
            (dec8 (15 + s.snd.seqNum.toNat) ++ [0x5C, 0x45, 0x4F, 0x46]), addr := s.host.sDest }] } } ∧
    ∀ (t : State) (rest : List Turn), exec .sDoneEof s = .next t →
      step { t with script := .sender :: rest } = .next { t with script := rest }

/-- R188 (with D22): cancellation stops the timer and goes to `DONE`; nothing else changes. -/
def Obligations.SenderCancelStopsTheTimer : Prop :=
  ∀ s : State, s.host.rst = false → s.snd.state ≠ .done → s.host.sCancel = true →
    exec .sCancel s = .next { s with
      snd := { s.snd with state := .done, tmrRun := false, tmrCnt := 0 },
      log := { s.log with sDiag := s.log.sDiag ++ [.userCancellation] } }

/-- R259 (with D21), R101: the order in which the sender looks at what holds at once. -/
def Obligations.SenderPriorities : Prop :=
  ∀ (s : State) (rest : List Turn), s.host.rst = false → s.script = .sender :: rest →
    (s.snd.state ≠ .done → s.host.sCancel = true → step s = exec .sCancel { s with script := rest }) ∧
    (s.snd.state = .waitAck → s.host.sCancel = false → s.snd.timerState = .expired →
      step s = exec .sTimeout { s with script := rest }) ∧
    (∀ m : Datagram, s.snd.state = .waitAck → s.host.sCancel = false → s.snd.timerState = .running →
      s.chan.sRx = some m →
      step s = (if packetOk m.bytes then exec .sAckOk { s with script := rest } else exec .sAckBad { s with script := rest })) ∧
    (s.snd.state = .send → s.host.sCancel = false → step s = exec .sSend { s with script := rest }) ∧
    (s.snd.state = .retransmit → s.host.sCancel = false → step s = exec .sRetransmit { s with script := rest }) ∧
    (s.snd.state = .advance → s.host.sCancel = false → step s = exec .sAdvance { s with script := rest }) ∧
    (s.snd.state = .done → s.snd.halted = false → step s = exec .sDoneEof { s with script := rest })

/-- R189: no operation of the sender is enabled, and it is not terminal (R190), in exactly the three cases;
then its turn changes nothing. -/
def Obligations.SenderHoldsInExactlyThreeCases : Prop :=
  ∀ (s : State) (rest : List Turn), s.host.rst = false → s.script = .sender :: rest →
    (s.senderHolds = true ↔
      s.senderTerminal = false ∧
      (∀ i ∈ senderOperations, decodeSsel s.ssel = .fire i → i = .sSend ∧ s.host.nUnits ≤ s.snd.idx)) ∧
    (s.senderHolds = true ∨ s.senderTerminal = true → step s = .next { s with script := rest })

/-- R122, an inference of the spec, R185: after a timeout the same bytes go out again. -/
def Obligations.RetransmissionIsByteIdentical : Prop :=
  ∀ (s : State) (p : Bytes), s.host.rst = false → s.snd.state = .send → s.host.sCancel = false →
    s.snd.idx < s.host.nUnits → memRead s.host.units s.snd.idx = some p → p.length ≤ Config.mss →
    ∃ (t₁ t₂ t₃ t₄ : State) (m : Datagram),
      exec .sSend s = .next t₁ ∧
      exec .sTimeout { t₁ with snd := { t₁.snd with tmrCnt := 0 } } = .next t₂ ∧
      exec .sRetransmit t₂ = .next t₃ ∧ exec .sSend t₃ = .next t₄ ∧
      t₁.chan.sTx = s.chan.sTx ++ [m] ∧ t₄.chan.sTx = s.chan.sTx ++ [m, m] ∧ t₄.snd.seqNum = s.snd.seqNum ∧
      t₄.snd.idx = s.snd.idx ∧ t₄.snd.retxCount = s.snd.retxCount + 1 ∧ t₄.snd.txCount = s.snd.txCount + 3

/-! ## The receiver -/

/-- R211 (with D34): whatever is offered is taken whole, from whoever sent it, the bound passed or not. -/
def Obligations.ReceiveTakesAnyDatagram : Prop :=
  ∀ (s : State) (m : Datagram), s.host.rst = false → s.rcv.state = .waitPacket → s.host.rCancel = false →
    s.chan.rRx = some m →
    exec .rRecv s = .next { s with
      rcv := { s.rcv with state := .process, buf := m.bytes, src := m.addr },
      chan := { s.chan with rRx := none } }

/-- R212: nothing offered and the bound passed. -/
def Obligations.IdleTimeoutAborts : Prop :=
  ∀ s : State, s.host.rst = false → s.rcv.state = .waitPacket → s.host.rCancel = false → s.chan.rRx = none →
    s.rcv.idleCnt = 0 →
    exec .rIdleTimeout s = .next { s with
      rcv := { s.rcv with state := .timeoutAbort },
      log := { s.log with sink := s.log.sink ++ [.close], rDiag := s.log.rDiag ++ [.channelLoss] } }

/-- R213 (with D27): the receiver's cancellation closes the sink and ends in `DONE`. -/
def Obligations.ReceiverCancelCloses : Prop :=
  ∀ s : State, s.host.rst = false → s.rcv.state = .waitPacket → s.host.rCancel = true →
    exec .rCancel s = .next { s with
      rcv := { s.rcv with state := .done },
      log := { s.log with sink := s.log.sink ++ [.close], rDiag := s.log.rDiag ++ [.userCancellation] } }

/-- R214: an invalid datagram is discarded with its cause, without acknowledgment, and the bound restarts. -/
def Obligations.InvalidDatagramIsDropped : Prop :=
  ∀ s : State, s.host.rst = false → s.rcv.state = .process → packetOk s.rcv.buf = false →
    exec .rDrop s = .next { s with
      rcv := { s.rcv with state := .waitPacket, idleCnt := s.params.rxTimeoutTicks },
      log := { s.log with rDiag := s.log.rDiag ++
        [if decodePacket s.rcv.buf = none then .malformedPacket else .corruptPacket] } }

/-- R215 (with D14, D15): the first valid packet names the destination, whatever its sequence number. -/
def Obligations.FirstValidPacketNamesTheDestination : Prop :=
  ∀ (s : State) (q : SeqNum) (p : Bytes), s.host.rst = false → s.rcv.state = .process →
    s.rcv.extReceived = false → p.length ≤ Config.mss → s.rcv.buf = makePacket q p →
    exec .rExt s = .next { s with
      rcv := { s.rcv with state := .ack, extReceived := true, peer := s.rcv.src, ext := p,
                          expected := s.rcv.expected ^^^ 1#1, seqNum := q,
                          eof := decide (p = [0x5C, 0x45, 0x4F, 0x46]) },
      log := { s.log with sink := s.log.sink ++ [.name s.rcv.src p] } }

/-- R217: a new chunk, in sequence and not the EOF marker, is appended and `r_expected` toggles. -/
def Obligations.InSequenceDataIsAppended : Prop :=
  ∀ (s : State) (p : Bytes), s.host.rst = false → s.rcv.state = .process → s.rcv.extReceived = true →
    p.length ≤ Config.mss → p ≠ [0x5C, 0x45, 0x4F, 0x46] → s.rcv.buf = makePacket s.rcv.expected p →
    exec .rData s = .next { s with
      rcv := { s.rcv with state := .ack, expected := s.rcv.expected ^^^ 1#1, seqNum := s.rcv.expected, eof := false },
      log := { s.log with sink := s.log.sink ++ [.append p] } }

/-- R218: the EOF packet in sequence: nothing appended, nothing toggled, nothing emitted. -/
def Obligations.InSequenceEofIsNotAppended : Prop :=
  ∀ s : State, s.host.rst = false → s.rcv.state = .process → s.rcv.extReceived = true →
    s.rcv.buf = makePacket s.rcv.expected [0x5C, 0x45, 0x4F, 0x46] →
    exec .rEof s = .next { s with rcv := { s.rcv with state := .ack, seqNum := s.rcv.expected, eof := true } }

/-- R219: a valid packet with the other sequence number: not written, not toggled, but acknowledged next;
the EOF marker still ends the transfer. -/
def Obligations.DuplicateIsNotWritten : Prop :=
  ∀ (s : State) (q : SeqNum) (p : Bytes), s.host.rst = false → s.rcv.state = .process → s.rcv.extReceived = true →
    q ≠ s.rcv.expected → p.length ≤ Config.mss → s.rcv.buf = makePacket q p →
    exec .rDup s = .next { s with
      rcv := { s.rcv with state := .ack, seqNum := q, eof := decide (p = [0x5C, 0x45, 0x4F, 0x46]) },
      log := { s.log with rDiag := s.log.rDiag ++ [.outOfOrderDuplicate] } }

/-- R220 (with D12): the acknowledgment of the received sequence number goes to the source of the datagram;
after EOF the sink is closed, else the bound restarts. -/
def Obligations.AcknowledgmentAnswersTheSource : Prop :=
  ∀ s : State, s.host.rst = false → s.rcv.state = .ack → s.params.ackPayload.length ≤ Config.mss →
    exec .rAck s = .next (
      let ackBytes := (0x30 + s.rcv.seqNum.zeroExtend 8) ::
        (dec8 (popcount s.params.ackPayload + s.rcv.seqNum.toNat) ++ s.params.ackPayload)
      let chan := { s.chan with rTx := s.chan.rTx ++ [{ bytes := ackBytes, addr := s.rcv.src }] }
      if s.rcv.eof then
        { s with chan := chan, rcv := { s.rcv with state := .done }, log := { s.log with sink := s.log.sink ++ [.close] } }
      else
        { s with chan := chan, rcv := { s.rcv with state := .waitPacket, idleCnt := s.params.rxTimeoutTicks } })

/-- R223 (a), an inference of the spec, R77: the same data packet processed twice is appended once and
acknowledged twice. -/
def Obligations.DeliveryIsIdempotent : Prop :=
  ∀ (s : State) (m : Datagram) (p : Bytes), s.host.rst = false → s.host.rCancel = false →
    s.rcv.state = .waitPacket → s.rcv.extReceived = true → s.params.ackPayload.length ≤ Config.mss →
    p.length ≤ Config.mss → p ≠ Config.eofMarker → m.bytes = makePacket s.rcv.expected p → s.chan.rRx = some m →
    s.script = [.receiver, .receiver, .receiver] →
    ∃ t₁ t₂ : State, run 3 s = .next t₁ ∧
      run 3 { t₁ with chan := { t₁.chan with rRx := some m }, script := [.receiver, .receiver, .receiver] } = .next t₂ ∧
      t₂.log.sink = s.log.sink ++ [.append p] ∧ t₂.rcv.state = .waitPacket ∧
      t₂.rcv.expected = s.rcv.expected.toggle ∧
      t₂.chan.rTx = s.chan.rTx ++ List.replicate 2 { bytes := ackPacket s.params s.rcv.expected, addr := m.addr }

/-- R259 (with D20, D27), R102: the order in which the receiver looks at what holds at once. -/
def Obligations.ReceiverPriorities : Prop :=
  ∀ (s : State) (rest : List Turn), s.host.rst = false → s.script = .receiver :: rest →
    (s.rcv.state = .waitPacket → s.host.rCancel = true → step s = exec .rCancel { s with script := rest }) ∧
    (s.rcv.state = .waitPacket → s.host.rCancel = false → s.chan.rRx ≠ none →
      step s = exec .rRecv { s with script := rest }) ∧
    (s.rcv.state = .waitPacket → s.host.rCancel = false → s.chan.rRx = none → s.rcv.idleCnt = 0 →
      step s = exec .rIdleTimeout { s with script := rest }) ∧
    (s.rcv.state = .process → packetOk s.rcv.buf = false → step s = exec .rDrop { s with script := rest }) ∧
    (∀ k : Packet, s.rcv.state = .process → packetOk s.rcv.buf = true → decodePacket s.rcv.buf = some k →
      step s =
        (if s.rcv.extReceived = false then exec .rExt { s with script := rest }
        else if k.seqNum ≠ s.rcv.expected then exec .rDup { s with script := rest }
        else if k.payload = Config.eofMarker then exec .rEof { s with script := rest }
        else exec .rData { s with script := rest })) ∧
    (s.rcv.state = .ack → step s = exec .rAck { s with script := rest })

/-- R222, R221: the receiver holds in exactly one case; there and in its terminal states a turn changes
nothing, and `PROCESS` and `ACK` never hold. -/
def Obligations.ReceiverHoldsInExactlyOneCase : Prop :=
  ∀ (s : State) (rest : List Turn), s.host.rst = false → s.script = .receiver :: rest →
    (s.receiverHolds = true ↔
      s.receiverTerminal = false ∧ ∀ i ∈ receiverOperations, decodeRsel s.rsel ≠ .fire i) ∧
    (s.receiverHolds = true ∨ s.receiverTerminal = true → step s = .next { s with script := rest }) ∧
    (s.receiverHolds = true → s.rcv.state = .waitPacket ∧ s.host.rCancel = false ∧ s.chan.rRx = none ∧ s.rcv.idleCnt ≠ 0)

/-! ## The whole machine -/

/-- R8, R101, R102, R163, R169; the script is the model's (notes/assumptions/3.md). A step takes the turn at
the head of the script; a turn of a state machine runs the operation its select word picks, a tick its
tick operation, a unit turn the operation its record decodes to. -/
def Obligations.StepRunsTheSelectedOperation : Prop :=
  ∀ (s : State) (rest : List Turn) (i : Instr),
    (s.host.rst = false → s.script = .sender :: rest → decodeSsel s.ssel = .fire i →
      step s = exec i { s with script := rest }) ∧
    (s.host.rst = false → s.script = .receiver :: rest → decodeRsel s.rsel = .fire i →
      step s = exec i { s with script := rest }) ∧
    (s.script = .senderTick :: rest → step s = exec .tmrTick { s with script := rest }) ∧
    (s.script = .receiverTick :: rest → step s = exec .riTick { s with script := rest }) ∧
    (∀ record : Bytes, s.script = .unit record :: rest → decode record = .ok i →
      step s = exec i { s with script := rest }) ∧
    (s.script = [] → step s = .next s)

/-- R8, R101, R102, R103; DEDUCED, notes/assumptions/8.md. Out of reset, an operation of a state machine that
its select word does not pick changes nothing. -/
def Obligations.OnlyTheSelectedOperationFires : Prop :=
  ∀ s : State, s.host.rst = false →
    (∀ i ∈ senderOperations, decodeSsel s.ssel ≠ .fire i → exec i s = .next s) ∧
    (∀ i ∈ receiverOperations, decodeRsel s.rsel ≠ .fire i → exec i s = .next s)

/-- R20, R3, R263: the frame. An operation of one endpoint leaves the registers, channels and streams of the
other as they were, none writes an input, a parameter or a unit of the store, and a pure function or a
query writes nothing but its answer. -/
def Obligations.OperationsKeepTheirFrame : Prop :=
  ∀ (i : Instr) (s t : State), exec i s = .next t →
    t.params = s.params ∧ t.host = s.host ∧ t.script = s.script ∧
    t.chan.toReceiver = s.chan.toReceiver ∧ t.chan.toSender = s.chan.toSender ∧
    (∀ j : BitVec 32, memRead t.host.units j = memRead s.host.units j) ∧
    (Instr.isPure i = true → t = { s with unitOut := t.unitOut }) ∧
    (Instr.isPure i = false → t.unitOut = s.unitOut) ∧
    (i ∈ senderOperations → t.rcv = s.rcv ∧ t.chan.rTx = s.chan.rTx ∧ t.chan.rRx = s.chan.rRx ∧
      t.log.sink = s.log.sink ∧ t.log.rDiag = s.log.rDiag) ∧
    (i ∈ timerOperations → t = { s with snd := { s.snd with tmrRun := t.snd.tmrRun, tmrCnt := t.snd.tmrCnt } }) ∧
    (i ∈ receiverOperations → t.snd = s.snd ∧ t.chan.sTx = s.chan.sTx ∧ t.chan.sRx = s.chan.sRx ∧
      t.log.sDiag = s.log.sDiag) ∧
    (i = .riTick → t = { s with rcv := { s.rcv with idleCnt := t.rcv.idleCnt } })

/-- R3, R20, R263, and R101, R102, R301 for what each side reads ("The receiver endpoint needs no
configuration"): what an endpoint does in a turn or on a tick of its own depends on its own side alone:
two machines that agree on it, and differ anywhere else, do the same there. -/
def Obligations.EndpointsDoNotInterfere : Prop :=
  ∀ (s s' : State) (rest rest' : List Turn),
    (∀ turn ∈ [Turn.sender, Turn.senderTick], s.script = turn :: rest → s'.script = turn :: rest' →
      senderView s = senderView s' → observe senderView (step s) = observe senderView (step s')) ∧
    (∀ turn ∈ [Turn.receiver, Turn.receiverTick], s.script = turn :: rest → s'.script = turn :: rest' →
      receiverView s = receiverView s' → observe receiverView (step s) = observe receiverView (step s'))

/-- R36, R38, U7, an inference of the spec: no step reads `r_peer` or `r_ext`, and outside `PROCESS` and
`ACK` none reads `r_buf` or `r_src`; a step that enters `PROCESS` has written both. So the values these
hold at reset, which the model chose (notes/assumptions/1.md), are never seen. -/
def Obligations.UnspecifiedBuffersAreNeverRead : Prop :=
  (∀ s s' : State, forgetName s = forgetName s' →
    observe forgetName (step s) = observe forgetName (step s')) ∧
  (∀ s s' : State, s.rcv.state ≠ .process → s.rcv.state ≠ .ack → forgetBuffer s = forgetBuffer s' →
    observe forgetBuffer (step s) = observe forgetBuffer (step s') ∧
    ∀ t t' : State, step s = .next t → step s' = .next t' → t.rcv.state = .process ∨ t.rcv.state = .ack → t = t')

/-- R262: with the store and the parameters as R301 and R6 ask, no step of an agent, of the transport or of
the host within a run ends in a fault or a refusal, whatever is offered. -/
def Obligations.NoDatagramStopsTheBlock : Prop :=
  ∀ s : State, s.configured = true → s.agentsOnly = true → s.oneRun = true → ∃ t : State, step s = .next t

/-- R250, R257, R260 (with R183, R214 for the two causes of a bad datagram): when one of the seven
operations the rule names fires, that is when it changes anything, it adds exactly its cause code to its
stream; nothing else an operation does adds any. -/
def Obligations.ConditionsAreReportedByTheirOperations : Prop :=
  ∀ (i : Instr) (s t : State), exec i s = .next t →
    (t.log.sDiag = s.log.sDiag ∨ ∃ c : Cause, t.log.sDiag = s.log.sDiag ++ [c] ∧
      ((i = .sTimeout ∧ c = .channelLoss) ∨ (i = .sAckBad ∧ (c = .corruptPacket ∨ c = .malformedPacket)) ∨
       (i = .sCancel ∧ c = .userCancellation))) ∧
    (t.log.rDiag = s.log.rDiag ∨ ∃ c : Cause, t.log.rDiag = s.log.rDiag ++ [c] ∧
      ((i = .rIdleTimeout ∧ c = .channelLoss) ∨ (i = .rDrop ∧ (c = .corruptPacket ∨ c = .malformedPacket)) ∨
       (i = .rDup ∧ c = .outOfOrderDuplicate) ∨ (i = .rCancel ∧ c = .userCancellation))) ∧
    (t ≠ s →
      (i = .sTimeout → t.log.sDiag = s.log.sDiag ++ [.channelLoss]) ∧
      (i = .sAckBad → ∃ m : Datagram, s.chan.sRx = some m ∧ t.log.sDiag = s.log.sDiag ++
        [if decodePacket m.bytes = none then .malformedPacket else .corruptPacket]) ∧
      (i = .sCancel → t.log.sDiag = s.log.sDiag ++ [.userCancellation]) ∧
      (i = .rIdleTimeout → t.log.rDiag = s.log.rDiag ++ [.channelLoss]) ∧
      (i = .rDrop → t.log.rDiag = s.log.rDiag ++
        [if decodePacket s.rcv.buf = none then .malformedPacket else .corruptPacket]) ∧
      (i = .rDup → t.log.rDiag = s.log.rDiag ++ [.outOfOrderDuplicate]) ∧
      (i = .rCancel → t.log.rDiag = s.log.rDiag ++ [.userCancellation]))

/-! ## Reset -/

/-- R45, R290: the registers right after reset, those whose value the spec gives. -/
def Obligations.ResetRegisters : Prop :=
  State.reset.snd.state = .send ∧ State.reset.snd.halted = false ∧ State.reset.snd.seqNum = 0 ∧
  State.reset.snd.idx = 0 ∧ State.reset.snd.txCount = 0 ∧ State.reset.snd.retxCount = 0 ∧
  State.reset.snd.sentAny = false ∧ State.reset.snd.timerState = .stopped ∧ State.reset.snd.tmrCnt = 0 ∧
  State.reset.rcv.state = .waitPacket ∧ State.reset.rcv.expected = 0 ∧ State.reset.rcv.extReceived = false ∧
  State.reset.rcv.seqNum = 0 ∧ State.reset.rcv.eof = false ∧ State.reset.rcv.idleCnt = State.reset.params.rxTimeoutTicks

/-- R290: while `rst = 1` no turn of an agent and none of its operations changes anything; when `rst`
goes to 0 every register has its value of R45, for any values of the four whose value is unspecified. R291:
the transport, the streams, the unit store and the other inputs stay as they were. R290 does not say what
the registers hold while `rst = 1`: that they have their values of R45 from the raise on is the model's
reading of R255 ("the counters are 0"), DEDUCED, and that the raise leaves the four unspecified ones and the
release cuts them to their types is the model's choice, both in notes/assumptions/7.md. -/
def Obligations.ResetHoldsAndReleases : Prop :=
  ∀ (s : State) (rest : List Turn),
    (s.script = .host .raiseReset :: rest →
      step s = .next { s with
        host := { s.host with rst := true },
        snd := { state := .send, halted := false, seqNum := 0, idx := 0, txCount := 0, retxCount := 0,
                 sentAny := false, tmrRun := false, tmrCnt := 0 },
        rcv := { state := .waitPacket, expected := 0, extReceived := false, idleCnt := s.params.rxTimeoutTicks,
                 buf := s.rcv.buf, src := s.rcv.src, seqNum := 0, eof := false, peer := s.rcv.peer, ext := s.rcv.ext },
        script := rest }) ∧
    (s.host.rst = true →
      (∀ turn ∈ [Turn.sender, Turn.receiver, Turn.senderTick, Turn.receiverTick], s.script = turn :: rest →
        step s = .next { s with script := rest }) ∧
      (∀ i ∈ senderOperations ++ receiverOperations ++ timerOperations ++ [.riTick], exec i s = .next s) ∧
      (∀ (buf : Bytes) (src peer : Addr) (ext : Bytes), s.script = .host (.releaseReset buf src peer ext) :: rest →
        step s = .next { s with
          host := { s.host with rst := false },
          snd := { state := .send, halted := false, seqNum := 0, idx := 0, txCount := 0, retxCount := 0,
                   sentAny := false, tmrRun := false, tmrCnt := 0 },
          rcv := { state := .waitPacket, expected := 0, extReceived := false, idleCnt := s.params.rxTimeoutTicks,
                   buf := buf, src := s.params.addr src, seqNum := 0, eof := false, peer := s.params.addr peer,
                   ext := ext.take 1000 },
          script := rest }))

/-- R44, R193, R25, R65, R62, R72: the invariants hold right after reset, for all legal parameters, all
inputs of the host (a configuration among them), all values of the four registers whose reset value is
unspecified, and all scripts of one run; `State.reset` is one of these states (the inputs and the script it
fixes are the model's choice, notes/assumptions/1.md, 2.md, 12.md). -/
def Obligations.ResetMeetsTheInvariants : Prop :=
  State.reset = State.resetFor {} State.reset.host [] 0 0 [] [] ∧
  ∀ (params : Config.Params) (host : HostInputs) (buf : Bytes) (src peer : Addr) (ext : Bytes) (script : List Turn),
    params.wf = true → host.sDest < 2 ^ params.addrW → src < 2 ^ params.addrW → peer < 2 ^ params.addrW →
    ext.length ≤ Config.mss → script.all Turn.ofAgent = true → script.all Turn.withinRun = true →
    RegisterInv (State.resetFor params host buf src peer ext script) ∧
    AlternationInv (State.resetFor params host buf src peer ext script).snd ∧
    IndexInv (State.resetFor params host buf src peer ext script) ∧
    EmittedInv (State.resetFor params host buf src peer ext script) ∧
    SinkInv (State.resetFor params host buf src peer ext script) ∧
    AddressesFit (State.resetFor params host buf src peer ext script)

/-! ## Invariants of every step -/

/-- R44 (a) to (f), inferences of the spec, with R30 and the widths R21 and R31 give the two counts and
`r_ext`. (a) holds by the types of the two state registers. That the registers have their reset values
while `rst = 1` is read from R255, notes/assumptions/7.md. -/
def Obligations.StepKeepsTheRegisterInvariant : Prop :=
  ∀ s t : State, s.params.wf = true → RegisterInv s → step s = .next t → RegisterInv t

/-- R193, an inference of the spec: unit `i` is always sent with sequence number `i mod 2`, in every run with
losses, retransmissions and cancellations. -/
def Obligations.StepKeepsTheAlternation : Prop :=
  ∀ s t : State, AlternationInv s.snd → step s = .next t → AlternationInv t.snd

/-- R25, an inference of the spec: while a unit is in hand, its index is below `n_units`. -/
def Obligations.StepKeepsTheIndexInRange : Prop :=
  ∀ s t : State, IndexInv s → step s = .next t → IndexInv t

/-- R65, R223 (d), R38, R221: over one run the sink sees at most one `NAME`, which carries `r_peer` and
`r_ext`, then only `APPEND`s, then exactly one `CLOSE` when the receiver is terminal. -/
def Obligations.StepKeepsTheSinkShape : Prop :=
  ∀ s t : State, SinkInv s → step s = .next t → SinkInv t

/-- R62, R262: everything the block emits is a valid packet of 9 to 1009 bytes. -/
def Obligations.StepEmitsOnlyValidPackets : Prop :=
  ∀ s t : State, EmittedInv s → step s = .next t → EmittedInv t

/-- R72, D38, R6: addresses are opaque, and only copied. Every operation does the same on renamed addresses,
whatever the renaming, as on the old ones; and every step, the transport's and the host's moves among them,
keeps every address within `ADDR_W` bits (notes/assumptions/5.md). -/
def Obligations.StepKeepsAddressesWithinTheirWidth : Prop :=
  (∀ (f : Addr → Addr) (i : Instr) (s : State),
    exec i (renameAddresses f s) = observe (renameAddresses f) (exec i s)) ∧
  (∀ s t : State, AddressesFit s → step s = .next t → AddressesFit t)

/-! ## Transfers -/

/-- R301, R106: what the host builds. The pieces of a file put end to end are the file, every piece but the
last has exactly `MSS` bytes and the last 1 to `MSS`, and `n_units = 2 + ceil(L / MSS)`. -/
def Obligations.TransferUnitsCutTheFile : Prop :=
  ∀ ext file : Bytes,
    (split file).flatten = file ∧ (∀ p ∈ split file, 1 ≤ p.length ∧ p.length ≤ Config.mss) ∧
    (∀ k : Nat, k + 1 < (split file).length → ((split file)[k]?).map List.length = some Config.mss) ∧
    transferUnits ext file = [ext] ++ split file ++ [Config.eofMarker] ∧
    (transferUnits ext file).length = 2 + (file.length + (Config.mss - 1)) / Config.mss

/-- R75, R191, R223 (b) and the source's Termination property (95_test_vectors.md 1.5), inferences of the
spec, on a transport that delivers everything, without ticks, cancellations or resets, in one order of
turns: any file whose pieces, and whose extension, are not the EOF marker (R311) arrives byte for byte,
both endpoints finish, and the counters are `2N` and 0. The destination is named with the `ADDR_W` bits of
the source address the transport brings (notes/assumptions/5.md). -/
def Obligations.LosslessTransferDeliversTheFile : Prop :=
  ∀ (s : State) (ext file : Bytes) (a b : Addr),
    s.params.wf = true → s.host.rst = false → s.host.sCancel = false → s.host.rCancel = false →
    s.host.units = transferUnits ext file → (transferUnits ext file).length < 2 ^ 32 →
    s.host.nUnits = BitVec.ofNat 32 (transferUnits ext file).length →
    ext.length ≤ Config.mss → ext ≠ Config.eofMarker → (∀ p ∈ split file, p ≠ Config.eofMarker) →
    s.snd = Sender.reset → s.rcv.state = .waitPacket → s.rcv.expected = 0 → s.rcv.extReceived = false →
    s.chan = { sTx := [], rTx := [], sRx := none, rRx := none, toReceiver := [], toSender := [] } →
    s.log.sink = [] → s.script = deliveryScript a b (transferUnits ext file).length →
    ∃ t : State, run (10 * (transferUnits ext file).length + 1) s = .next t ∧
      t.senderTerminal = true ∧ t.rNamed = true ∧ t.rDone = true ∧
      t.log.sink = [.name (s.params.addr a) ext] ++ (split file).map .append ++ [.close] ∧ fileContent t.log.sink = file ∧
      t.log.sDiag = s.log.sDiag ∧ t.log.rDiag = s.log.rDiag ∧
      t.snd.txCount = BitVec.ofNat 32 (2 * (transferUnits ext file).length) ∧ t.snd.retxCount = 0 ∧
      t.rcv.expected.value = ((transferUnits ext file).length - 1) % 2 ∧
      t.chan.sTx = [{ bytes := eofPacket t.snd.seqNum, addr := s.host.sDest }]
end

