-- ==== Sys2Proof/Laws/Wire.lean ====
section
/-! SUPPORT. The small lemmas of the packet codec and the checksum unit: lengths, the fields of a packet,
and that a token tells its number. -/

namespace Sys2Proof
namespace Machine

@[simp] theorem mss_eq : Config.mss = 1000 := rfl
@[simp] theorem hdrLen_eq : Config.hdrLen = 9 := rfl
@[simp] theorem maxDgram_eq : Config.maxDgram = 1009 := rfl
@[simp] theorem eofMarker_length : Config.eofMarker.length = 4 := rfl

theorem payloadOk_iff (p : Bytes) : payloadOk p = true ↔ p.length ≤ 1000 := decide_eq_true_iff

theorem tokenOk_iff (c : Bytes) : tokenOk c = true ↔ c.length = 8 := decide_eq_true_iff

/-! ## Sequence numbers -/

theorem seqNum_cases (q : SeqNum) : q = 0 ∨ q = 1 := by
  revert q; decide

@[simp] theorem seqOfByte_seqByte (q : SeqNum) : seqOfByte (seqByte q) = some q := by
  revert q; decide

/-- The two legal bytes, and the bit each stands for. -/
theorem seqOfByte_eq_some_iff (b : Byte) (q : SeqNum) : seqOfByte b = some q ↔ b = seqByte q := by
  revert b q; decide

theorem seqByte_injective {q q' : SeqNum} (h : seqByte q = seqByte q') : q = q' := by
  revert q q'; decide

@[simp] theorem toggle_toggle (q : SeqNum) : q.toggle.toggle = q := by
  revert q; decide

theorem toggle_ne (q : SeqNum) : q.toggle ≠ q := by
  revert q; decide

theorem toggle_eq_of_ne {q q' : SeqNum} (h : q ≠ q') : q.toggle = q' := by
  revert q q'; decide

theorem value_toggle (q : SeqNum) : q.toggle.value = 1 - q.value := by
  revert q; decide

theorem value_le_one (q : SeqNum) : q.value ≤ 1 := by
  revert q; decide

/-! ## Counting bits -/

theorem popcount8_le (b : Byte) : popcount8 b ≤ 8 := by
  revert b; decide

@[simp] theorem popcount_nil : popcount [] = 0 := rfl

@[simp] theorem popcount_cons (b : Byte) (p : Bytes) : popcount (b :: p) = popcount8 b + popcount p := rfl

@[simp] theorem popcount_append (p r : Bytes) : popcount (p ++ r) = popcount p + popcount r := by
  induction p with
  | nil => simp
  | cons b p ih => simp [ih]; omega

theorem popcount_le (p : Bytes) : popcount p ≤ 8 * p.length := by
  induction p with
  | nil => simp
  | cons b p ih =>
    have := popcount8_le b
    simp; omega

/-- R142: with payloads of at most `MSS` bytes the number stays far below `10^8`. -/
theorem checksumValue_lt (q : SeqNum) {p : Bytes} (h : p.length ≤ 1000) : checksumValue q p < 10 ^ 8 := by
  have := popcount_le p
  have := value_le_one q
  unfold checksumValue
  omega

/-! ## Tokens -/

@[simp] theorem dec8_length (n : Nat) : (dec8 n).length = 8 := rfl

@[simp] theorem checksum_length (q : SeqNum) (p : Bytes) : (checksum q p).length = 8 := rfl

theorem digitByte_toNat (n k : Nat) : (digitByte n k).toNat = 0x30 + n / 10 ^ (7 - k) % 10 := by
  have : n / 10 ^ (7 - k) % 10 < 10 := Nat.mod_lt _ (by decide)
  simp only [digitByte, BitVec.toNat_ofNat]
  omega

/-- A token tells its number, below `10^8`. -/
theorem dec8_injective {m n : Nat} (hm : m < 10 ^ 8) (hn : n < 10 ^ 8) (h : dec8 m = dec8 n) : m = n := by
  simp only [dec8, List.cons.injEq, and_true] at h
  obtain ⟨h0, h1, h2, h3, h4, h5, h6, h7⟩ := h
  have key : ∀ k, digitByte m k = digitByte n k → m / 10 ^ (7 - k) % 10 = n / 10 ^ (7 - k) % 10 := by
    intro k hk
    have e := congrArg BitVec.toNat hk
    rw [digitByte_toNat, digitByte_toNat] at e
    omega
  have e0 := key 0 h0
  have e1 := key 1 h1
  have e2 := key 2 h2
  have e3 := key 3 h3
  have e4 := key 4 h4
  have e5 := key 5 h5
  have e6 := key 6 h6
  have e7 := key 7 h7
  simp only [Nat.reduceSub, Nat.reducePow, Nat.div_one] at e0 e1 e2 e3 e4 e5 e6 e7 hm hn
  omega

/-! ## Packets -/

@[simp] theorem encodePacket_length (q : SeqNum) (c p : Bytes) :
    (encodePacket q c p).length = 1 + c.length + p.length := by
  simp [encodePacket]; omega

@[simp] theorem makePacket_length (q : SeqNum) (p : Bytes) : (makePacket q p).length = 9 + p.length := by
  simp [makePacket]

/-- Everything a successful `DECODE` says of its input. -/
theorem decodePacket_some {w : Bytes} {k : Packet} (h : decodePacket w = some k) :
    w = encodePacket k.seqNum k.token k.payload ∧ k.token.length = 8 ∧ k.payload.length ≤ 1000 := by
  unfold decodePacket at h
  split at h
  · cases h
  · split at h
    · cases h
    · rename_i h9 h1009
      cases w with
      | nil => cases h
      | cons b rest =>
        simp only at h
        split at h
        · cases h
        · rename_i q hq
          cases h
          rw [seqOfByte_eq_some_iff] at hq
          simp at h9 h1009
          refine ⟨?_, ?_, ?_⟩
          · simp [encodePacket, hq]
          · simp; omega
          · simp; omega

/-- `DECODE` gives back what `ENCODE` was given, with operands in their types. -/
theorem decodePacket_encodePacket_of_lengths (q : SeqNum) {c p : Bytes} (hc : c.length = 8) (hp : p.length ≤ 1000) :
    decodePacket (encodePacket q c p) = some { seqNum := q, token := c, payload := p } := by
  have h9 : ¬ (encodePacket q c p).length < Config.hdrLen := by simp; omega
  have h1009 : ¬ Config.maxDgram < (encodePacket q c p).length := by simp; omega
  have ht : (c ++ p).take 8 = c := by rw [← hc]; simp
  have hd : (c ++ p).drop 8 = p := by rw [← hc]; simp
  unfold decodePacket
  rw [if_neg h9, if_neg h1009]
  simp only [encodePacket, seqOfByte_seqByte, ht, hd]

theorem decodePacket_makePacket (q : SeqNum) {p : Bytes} (hp : p.length ≤ 1000) :
    decodePacket (makePacket q p) = some { seqNum := q, token := checksum q p, payload := p } :=
  decodePacket_encodePacket_of_lengths q (checksum_length q p) hp

theorem packetOk_makePacket (q : SeqNum) {p : Bytes} (hp : p.length ≤ 1000) : packetOk (makePacket q p) = true := by
  simp [packetOk, decodePacket_makePacket q hp, verify]

/-- A datagram that `PKT_OK` accepts decodes, and to the packet its own fields make. -/
theorem packetOk_decodes {w : Bytes} (h : packetOk w = true) :
    ∃ k, decodePacket w = some k ∧ k.payload.length ≤ 1000 ∧ w = makePacket k.seqNum k.payload := by
  unfold packetOk at h
  split at h
  · cases h
  · rename_i k hk
    obtain ⟨hw, -, hp⟩ := decodePacket_some hk
    refine ⟨k, hk, hp, ?_⟩
    have hv : checksum k.seqNum k.payload = k.token := by simpa [verify] using h
    rw [makePacket, hv]
    exact hw

end Machine
end Sys2Proof
end

