-- ==== Sys2Proof/Laws/Memory.lean ====
section
/-! SUPPORT. The unit store: its form at reset, that what the host's UNITS builds has it, and what a read
of it gives. The block has no operation that writes it (20_memory.md R61). -/

namespace Sys2Proof
namespace Machine

theorem reset_units_wf : Memory.wf State.reset.host.units = true := rfl

theorem memRead_some_iff (m : Memory) (i : BitVec 32) (p : Bytes) :
    memRead m i = some p ↔ m[i.toNat]? = some p := Iff.rfl

/-- A unit read from a well-formed store has at most `MSS` bytes. -/
theorem payloadOk_of_memRead {m : Memory} {i : BitVec 32} {p : Bytes} (hm : Memory.wf m = true)
    (h : memRead m i = some p) : payloadOk p = true := by
  have hp : p ∈ m := List.mem_of_getElem? h
  simp only [Memory.wf, List.all_eq_true] at hm
  exact hm p hp

/-- The pieces of a file have at most `MSS` bytes. -/
theorem splitFuel_payloads (n : Nat) (file : Bytes) : ∀ p ∈ splitFuel n file, payloadOk p = true := by
  induction n generalizing file with
  | zero => intro p hp; cases hp
  | succ n ih =>
    intro p hp
    unfold splitFuel at hp
    split at hp
    · cases hp
    · rcases List.mem_cons.mp hp with rfl | hp
      · simp [payloadOk]
      · exact ih _ p hp

/-- What the host builds by UNITS is a well-formed store, if the extension has at most `MSS` bytes. -/
theorem transferUnits_wf {ext : Bytes} (file : Bytes) (h : payloadOk ext = true) :
    Memory.wf (transferUnits ext file) = true := by
  simp only [Memory.wf, transferUnits, List.all_cons, List.all_append, Bool.and_eq_true, List.all_eq_true]
  exact ⟨h, splitFuel_payloads _ _, by simp [payloadOk]⟩

end Machine
end Sys2Proof
end

