-- ==== Sys2Proof/Laws/State.lean ====
section
/-! SUPPORT. One lemma per field of State per named update (Machine/Ops.lean, and the two
moves of `rst`, Machine/Environment.lean), so that no later proof
unfolds a record update: the field an update writes, and the seven it leaves. -/

namespace Sys2Proof
namespace Machine
namespace State

variable (s : State)

@[simp] theorem emitSTx_params (w : Bytes) (a : Addr) : (s.emitSTx w a).params = s.params := rfl
@[simp] theorem emitSTx_host (w : Bytes) (a : Addr) : (s.emitSTx w a).host = s.host := rfl
@[simp] theorem emitSTx_snd (w : Bytes) (a : Addr) : (s.emitSTx w a).snd = s.snd := rfl
@[simp] theorem emitSTx_rcv (w : Bytes) (a : Addr) : (s.emitSTx w a).rcv = s.rcv := rfl
@[simp] theorem emitSTx_chan (w : Bytes) (a : Addr) : (s.emitSTx w a).chan = { s.chan with sTx := s.chan.sTx ++ [{ bytes := w, addr := a }] } := rfl
@[simp] theorem emitSTx_log (w : Bytes) (a : Addr) : (s.emitSTx w a).log = s.log := rfl
@[simp] theorem emitSTx_unitOut (w : Bytes) (a : Addr) : (s.emitSTx w a).unitOut = s.unitOut := rfl
@[simp] theorem emitSTx_script (w : Bytes) (a : Addr) : (s.emitSTx w a).script = s.script := rfl

@[simp] theorem emitRTx_params (w : Bytes) (a : Addr) : (s.emitRTx w a).params = s.params := rfl
@[simp] theorem emitRTx_host (w : Bytes) (a : Addr) : (s.emitRTx w a).host = s.host := rfl
@[simp] theorem emitRTx_snd (w : Bytes) (a : Addr) : (s.emitRTx w a).snd = s.snd := rfl
@[simp] theorem emitRTx_rcv (w : Bytes) (a : Addr) : (s.emitRTx w a).rcv = s.rcv := rfl
@[simp] theorem emitRTx_chan (w : Bytes) (a : Addr) : (s.emitRTx w a).chan = { s.chan with rTx := s.chan.rTx ++ [{ bytes := w, addr := a }] } := rfl
@[simp] theorem emitRTx_log (w : Bytes) (a : Addr) : (s.emitRTx w a).log = s.log := rfl
@[simp] theorem emitRTx_unitOut (w : Bytes) (a : Addr) : (s.emitRTx w a).unitOut = s.unitOut := rfl
@[simp] theorem emitRTx_script (w : Bytes) (a : Addr) : (s.emitRTx w a).script = s.script := rfl

@[simp] theorem emitSink_params (e : SinkEvent) : (s.emitSink e).params = s.params := rfl
@[simp] theorem emitSink_host (e : SinkEvent) : (s.emitSink e).host = s.host := rfl
@[simp] theorem emitSink_snd (e : SinkEvent) : (s.emitSink e).snd = s.snd := rfl
@[simp] theorem emitSink_rcv (e : SinkEvent) : (s.emitSink e).rcv = s.rcv := rfl
@[simp] theorem emitSink_chan (e : SinkEvent) : (s.emitSink e).chan = s.chan := rfl
@[simp] theorem emitSink_log (e : SinkEvent) : (s.emitSink e).log = { s.log with sink := s.log.sink ++ [e] } := rfl
@[simp] theorem emitSink_unitOut (e : SinkEvent) : (s.emitSink e).unitOut = s.unitOut := rfl
@[simp] theorem emitSink_script (e : SinkEvent) : (s.emitSink e).script = s.script := rfl

@[simp] theorem takeSRx_params : (s.takeSRx).params = s.params := rfl
@[simp] theorem takeSRx_host : (s.takeSRx).host = s.host := rfl
@[simp] theorem takeSRx_snd : (s.takeSRx).snd = s.snd := rfl
@[simp] theorem takeSRx_rcv : (s.takeSRx).rcv = s.rcv := rfl
@[simp] theorem takeSRx_chan : (s.takeSRx).chan = { s.chan with sRx := none } := rfl
@[simp] theorem takeSRx_log : (s.takeSRx).log = s.log := rfl
@[simp] theorem takeSRx_unitOut : (s.takeSRx).unitOut = s.unitOut := rfl
@[simp] theorem takeSRx_script : (s.takeSRx).script = s.script := rfl

@[simp] theorem takeRRx_params : (s.takeRRx).params = s.params := rfl
@[simp] theorem takeRRx_host : (s.takeRRx).host = s.host := rfl
@[simp] theorem takeRRx_snd : (s.takeRRx).snd = s.snd := rfl
@[simp] theorem takeRRx_rcv : (s.takeRRx).rcv = s.rcv := rfl
@[simp] theorem takeRRx_chan : (s.takeRRx).chan = { s.chan with rRx := none } := rfl
@[simp] theorem takeRRx_log : (s.takeRRx).log = s.log := rfl
@[simp] theorem takeRRx_unitOut : (s.takeRRx).unitOut = s.unitOut := rfl
@[simp] theorem takeRRx_script : (s.takeRRx).script = s.script := rfl

@[simp] theorem reportS_params (c : Cause) : (s.reportS c).params = s.params := rfl
@[simp] theorem reportS_host (c : Cause) : (s.reportS c).host = s.host := rfl
@[simp] theorem reportS_snd (c : Cause) : (s.reportS c).snd = s.snd := rfl
@[simp] theorem reportS_rcv (c : Cause) : (s.reportS c).rcv = s.rcv := rfl
@[simp] theorem reportS_chan (c : Cause) : (s.reportS c).chan = s.chan := rfl
@[simp] theorem reportS_log (c : Cause) : (s.reportS c).log = { s.log with sDiag := s.log.sDiag ++ [c] } := rfl
@[simp] theorem reportS_unitOut (c : Cause) : (s.reportS c).unitOut = s.unitOut := rfl
@[simp] theorem reportS_script (c : Cause) : (s.reportS c).script = s.script := rfl

@[simp] theorem reportR_params (c : Cause) : (s.reportR c).params = s.params := rfl
@[simp] theorem reportR_host (c : Cause) : (s.reportR c).host = s.host := rfl
@[simp] theorem reportR_snd (c : Cause) : (s.reportR c).snd = s.snd := rfl
@[simp] theorem reportR_rcv (c : Cause) : (s.reportR c).rcv = s.rcv := rfl
@[simp] theorem reportR_chan (c : Cause) : (s.reportR c).chan = s.chan := rfl
@[simp] theorem reportR_log (c : Cause) : (s.reportR c).log = { s.log with rDiag := s.log.rDiag ++ [c] } := rfl
@[simp] theorem reportR_unitOut (c : Cause) : (s.reportR c).unitOut = s.unitOut := rfl
@[simp] theorem reportR_script (c : Cause) : (s.reportR c).script = s.script := rfl

@[simp] theorem gotoS_params (x : SenderState) : (s.gotoS x).params = s.params := rfl
@[simp] theorem gotoS_host (x : SenderState) : (s.gotoS x).host = s.host := rfl
@[simp] theorem gotoS_snd (x : SenderState) : (s.gotoS x).snd = { s.snd with state := x } := rfl
@[simp] theorem gotoS_rcv (x : SenderState) : (s.gotoS x).rcv = s.rcv := rfl
@[simp] theorem gotoS_chan (x : SenderState) : (s.gotoS x).chan = s.chan := rfl
@[simp] theorem gotoS_log (x : SenderState) : (s.gotoS x).log = s.log := rfl
@[simp] theorem gotoS_unitOut (x : SenderState) : (s.gotoS x).unitOut = s.unitOut := rfl
@[simp] theorem gotoS_script (x : SenderState) : (s.gotoS x).script = s.script := rfl

@[simp] theorem countTx_params : (s.countTx).params = s.params := rfl
@[simp] theorem countTx_host : (s.countTx).host = s.host := rfl
@[simp] theorem countTx_snd : (s.countTx).snd = { s.snd with txCount := s.snd.txCount + 1 } := rfl
@[simp] theorem countTx_rcv : (s.countTx).rcv = s.rcv := rfl
@[simp] theorem countTx_chan : (s.countTx).chan = s.chan := rfl
@[simp] theorem countTx_log : (s.countTx).log = s.log := rfl
@[simp] theorem countTx_unitOut : (s.countTx).unitOut = s.unitOut := rfl
@[simp] theorem countTx_script : (s.countTx).script = s.script := rfl

@[simp] theorem countRetx_params : (s.countRetx).params = s.params := rfl
@[simp] theorem countRetx_host : (s.countRetx).host = s.host := rfl
@[simp] theorem countRetx_snd : (s.countRetx).snd = { s.snd with retxCount := s.snd.retxCount + 1 } := rfl
@[simp] theorem countRetx_rcv : (s.countRetx).rcv = s.rcv := rfl
@[simp] theorem countRetx_chan : (s.countRetx).chan = s.chan := rfl
@[simp] theorem countRetx_log : (s.countRetx).log = s.log := rfl
@[simp] theorem countRetx_unitOut : (s.countRetx).unitOut = s.unitOut := rfl
@[simp] theorem countRetx_script : (s.countRetx).script = s.script := rfl

@[simp] theorem markSent_params : (s.markSent).params = s.params := rfl
@[simp] theorem markSent_host : (s.markSent).host = s.host := rfl
@[simp] theorem markSent_snd : (s.markSent).snd = { s.snd with sentAny := true } := rfl
@[simp] theorem markSent_rcv : (s.markSent).rcv = s.rcv := rfl
@[simp] theorem markSent_chan : (s.markSent).chan = s.chan := rfl
@[simp] theorem markSent_log : (s.markSent).log = s.log := rfl
@[simp] theorem markSent_unitOut : (s.markSent).unitOut = s.unitOut := rfl
@[simp] theorem markSent_script : (s.markSent).script = s.script := rfl

@[simp] theorem halt_params : (s.halt).params = s.params := rfl
@[simp] theorem halt_host : (s.halt).host = s.host := rfl
@[simp] theorem halt_snd : (s.halt).snd = { s.snd with halted := true } := rfl
@[simp] theorem halt_rcv : (s.halt).rcv = s.rcv := rfl
@[simp] theorem halt_chan : (s.halt).chan = s.chan := rfl
@[simp] theorem halt_log : (s.halt).log = s.log := rfl
@[simp] theorem halt_unitOut : (s.halt).unitOut = s.unitOut := rfl
@[simp] theorem halt_script : (s.halt).script = s.script := rfl

@[simp] theorem toggleSeq_params : (s.toggleSeq).params = s.params := rfl
@[simp] theorem toggleSeq_host : (s.toggleSeq).host = s.host := rfl
@[simp] theorem toggleSeq_snd : (s.toggleSeq).snd = { s.snd with seqNum := s.snd.seqNum.toggle } := rfl
@[simp] theorem toggleSeq_rcv : (s.toggleSeq).rcv = s.rcv := rfl
@[simp] theorem toggleSeq_chan : (s.toggleSeq).chan = s.chan := rfl
@[simp] theorem toggleSeq_log : (s.toggleSeq).log = s.log := rfl
@[simp] theorem toggleSeq_unitOut : (s.toggleSeq).unitOut = s.unitOut := rfl
@[simp] theorem toggleSeq_script : (s.toggleSeq).script = s.script := rfl

@[simp] theorem nextUnit_params : (s.nextUnit).params = s.params := rfl
@[simp] theorem nextUnit_host : (s.nextUnit).host = s.host := rfl
@[simp] theorem nextUnit_snd : (s.nextUnit).snd = { s.snd with idx := s.snd.idx + 1 } := rfl
@[simp] theorem nextUnit_rcv : (s.nextUnit).rcv = s.rcv := rfl
@[simp] theorem nextUnit_chan : (s.nextUnit).chan = s.chan := rfl
@[simp] theorem nextUnit_log : (s.nextUnit).log = s.log := rfl
@[simp] theorem nextUnit_unitOut : (s.nextUnit).unitOut = s.unitOut := rfl
@[simp] theorem nextUnit_script : (s.nextUnit).script = s.script := rfl

@[simp] theorem startTimer_params : (s.startTimer).params = s.params := rfl
@[simp] theorem startTimer_host : (s.startTimer).host = s.host := rfl
@[simp] theorem startTimer_snd : (s.startTimer).snd = { s.snd with tmrRun := true, tmrCnt := s.params.txTimeoutTicks } := rfl
@[simp] theorem startTimer_rcv : (s.startTimer).rcv = s.rcv := rfl
@[simp] theorem startTimer_chan : (s.startTimer).chan = s.chan := rfl
@[simp] theorem startTimer_log : (s.startTimer).log = s.log := rfl
@[simp] theorem startTimer_unitOut : (s.startTimer).unitOut = s.unitOut := rfl
@[simp] theorem startTimer_script : (s.startTimer).script = s.script := rfl

@[simp] theorem stopTimer_params : (s.stopTimer).params = s.params := rfl
@[simp] theorem stopTimer_host : (s.stopTimer).host = s.host := rfl
@[simp] theorem stopTimer_snd : (s.stopTimer).snd = { s.snd with tmrRun := false, tmrCnt := 0 } := rfl
@[simp] theorem stopTimer_rcv : (s.stopTimer).rcv = s.rcv := rfl
@[simp] theorem stopTimer_chan : (s.stopTimer).chan = s.chan := rfl
@[simp] theorem stopTimer_log : (s.stopTimer).log = s.log := rfl
@[simp] theorem stopTimer_unitOut : (s.stopTimer).unitOut = s.unitOut := rfl
@[simp] theorem stopTimer_script : (s.stopTimer).script = s.script := rfl

@[simp] theorem gotoR_params (x : ReceiverState) : (s.gotoR x).params = s.params := rfl
@[simp] theorem gotoR_host (x : ReceiverState) : (s.gotoR x).host = s.host := rfl
@[simp] theorem gotoR_snd (x : ReceiverState) : (s.gotoR x).snd = s.snd := rfl
@[simp] theorem gotoR_rcv (x : ReceiverState) : (s.gotoR x).rcv = { s.rcv with state := x } := rfl
@[simp] theorem gotoR_chan (x : ReceiverState) : (s.gotoR x).chan = s.chan := rfl
@[simp] theorem gotoR_log (x : ReceiverState) : (s.gotoR x).log = s.log := rfl
@[simp] theorem gotoR_unitOut (x : ReceiverState) : (s.gotoR x).unitOut = s.unitOut := rfl
@[simp] theorem gotoR_script (x : ReceiverState) : (s.gotoR x).script = s.script := rfl

@[simp] theorem reloadIdle_params : (s.reloadIdle).params = s.params := rfl
@[simp] theorem reloadIdle_host : (s.reloadIdle).host = s.host := rfl
@[simp] theorem reloadIdle_snd : (s.reloadIdle).snd = s.snd := rfl
@[simp] theorem reloadIdle_rcv : (s.reloadIdle).rcv = { s.rcv with idleCnt := s.params.rxTimeoutTicks } := rfl
@[simp] theorem reloadIdle_chan : (s.reloadIdle).chan = s.chan := rfl
@[simp] theorem reloadIdle_log : (s.reloadIdle).log = s.log := rfl
@[simp] theorem reloadIdle_unitOut : (s.reloadIdle).unitOut = s.unitOut := rfl
@[simp] theorem reloadIdle_script : (s.reloadIdle).script = s.script := rfl

@[simp] theorem toggleExpected_params : (s.toggleExpected).params = s.params := rfl
@[simp] theorem toggleExpected_host : (s.toggleExpected).host = s.host := rfl
@[simp] theorem toggleExpected_snd : (s.toggleExpected).snd = s.snd := rfl
@[simp] theorem toggleExpected_rcv : (s.toggleExpected).rcv = { s.rcv with expected := s.rcv.expected.toggle } := rfl
@[simp] theorem toggleExpected_chan : (s.toggleExpected).chan = s.chan := rfl
@[simp] theorem toggleExpected_log : (s.toggleExpected).log = s.log := rfl
@[simp] theorem toggleExpected_unitOut : (s.toggleExpected).unitOut = s.unitOut := rfl
@[simp] theorem toggleExpected_script : (s.toggleExpected).script = s.script := rfl

@[simp] theorem latchAck_params (q : SeqNum) (eof : Bool) : (s.latchAck q eof).params = s.params := rfl
@[simp] theorem latchAck_host (q : SeqNum) (eof : Bool) : (s.latchAck q eof).host = s.host := rfl
@[simp] theorem latchAck_snd (q : SeqNum) (eof : Bool) : (s.latchAck q eof).snd = s.snd := rfl
@[simp] theorem latchAck_rcv (q : SeqNum) (eof : Bool) : (s.latchAck q eof).rcv = { s.rcv with seqNum := q, eof := eof } := rfl
@[simp] theorem latchAck_chan (q : SeqNum) (eof : Bool) : (s.latchAck q eof).chan = s.chan := rfl
@[simp] theorem latchAck_log (q : SeqNum) (eof : Bool) : (s.latchAck q eof).log = s.log := rfl
@[simp] theorem latchAck_unitOut (q : SeqNum) (eof : Bool) : (s.latchAck q eof).unitOut = s.unitOut := rfl
@[simp] theorem latchAck_script (q : SeqNum) (eof : Bool) : (s.latchAck q eof).script = s.script := rfl

@[simp] theorem latchDatagram_params (m : Datagram) : (s.latchDatagram m).params = s.params := rfl
@[simp] theorem latchDatagram_host (m : Datagram) : (s.latchDatagram m).host = s.host := rfl
@[simp] theorem latchDatagram_snd (m : Datagram) : (s.latchDatagram m).snd = s.snd := rfl
@[simp] theorem latchDatagram_rcv (m : Datagram) : (s.latchDatagram m).rcv = { s.rcv with buf := m.bytes, src := m.addr } := rfl
@[simp] theorem latchDatagram_chan (m : Datagram) : (s.latchDatagram m).chan = s.chan := rfl
@[simp] theorem latchDatagram_log (m : Datagram) : (s.latchDatagram m).log = s.log := rfl
@[simp] theorem latchDatagram_unitOut (m : Datagram) : (s.latchDatagram m).unitOut = s.unitOut := rfl
@[simp] theorem latchDatagram_script (m : Datagram) : (s.latchDatagram m).script = s.script := rfl

@[simp] theorem latchName_params (peer : Addr) (ext : Bytes) : (s.latchName peer ext).params = s.params := rfl
@[simp] theorem latchName_host (peer : Addr) (ext : Bytes) : (s.latchName peer ext).host = s.host := rfl
@[simp] theorem latchName_snd (peer : Addr) (ext : Bytes) : (s.latchName peer ext).snd = s.snd := rfl
@[simp] theorem latchName_rcv (peer : Addr) (ext : Bytes) : (s.latchName peer ext).rcv = { s.rcv with extReceived := true, peer := peer, ext := ext } := rfl
@[simp] theorem latchName_chan (peer : Addr) (ext : Bytes) : (s.latchName peer ext).chan = s.chan := rfl
@[simp] theorem latchName_log (peer : Addr) (ext : Bytes) : (s.latchName peer ext).log = s.log := rfl
@[simp] theorem latchName_unitOut (peer : Addr) (ext : Bytes) : (s.latchName peer ext).unitOut = s.unitOut := rfl
@[simp] theorem latchName_script (peer : Addr) (ext : Bytes) : (s.latchName peer ext).script = s.script := rfl

@[simp] theorem answer_params (a : UnitAnswer) : (s.answer a).params = s.params := rfl
@[simp] theorem answer_host (a : UnitAnswer) : (s.answer a).host = s.host := rfl
@[simp] theorem answer_snd (a : UnitAnswer) : (s.answer a).snd = s.snd := rfl
@[simp] theorem answer_rcv (a : UnitAnswer) : (s.answer a).rcv = s.rcv := rfl
@[simp] theorem answer_chan (a : UnitAnswer) : (s.answer a).chan = s.chan := rfl
@[simp] theorem answer_log (a : UnitAnswer) : (s.answer a).log = s.log := rfl
@[simp] theorem answer_unitOut (a : UnitAnswer) : (s.answer a).unitOut = a := rfl
@[simp] theorem answer_script (a : UnitAnswer) : (s.answer a).script = s.script := rfl

@[simp] theorem withTurn_params (t : Turn) : (s.withTurn t).params = s.params := rfl
@[simp] theorem withTurn_host (t : Turn) : (s.withTurn t).host = s.host := rfl
@[simp] theorem withTurn_snd (t : Turn) : (s.withTurn t).snd = s.snd := rfl
@[simp] theorem withTurn_rcv (t : Turn) : (s.withTurn t).rcv = s.rcv := rfl
@[simp] theorem withTurn_chan (t : Turn) : (s.withTurn t).chan = s.chan := rfl
@[simp] theorem withTurn_log (t : Turn) : (s.withTurn t).log = s.log := rfl
@[simp] theorem withTurn_unitOut (t : Turn) : (s.withTurn t).unitOut = s.unitOut := rfl
@[simp] theorem withTurn_script (t : Turn) : (s.withTurn t).script = t :: s.script := rfl

@[simp] theorem intoReset_params : (s.intoReset).params = s.params := rfl
@[simp] theorem intoReset_host : (s.intoReset).host = { s.host with rst := true } := rfl
@[simp] theorem intoReset_snd : (s.intoReset).snd = Sender.reset := rfl
@[simp] theorem intoReset_rcv : (s.intoReset).rcv =
    Receiver.resetWith s.params.rxTimeoutTicks s.rcv.buf s.rcv.src s.rcv.peer s.rcv.ext := rfl
@[simp] theorem intoReset_chan : (s.intoReset).chan = s.chan := rfl
@[simp] theorem intoReset_log : (s.intoReset).log = s.log := rfl
@[simp] theorem intoReset_unitOut : (s.intoReset).unitOut = s.unitOut := rfl
@[simp] theorem intoReset_script : (s.intoReset).script = s.script := rfl

@[simp] theorem afterReset_params (buf : Bytes) (src peer : Addr) (ext : Bytes) : (s.afterReset buf src peer ext).params =
    s.params := rfl
@[simp] theorem afterReset_host (buf : Bytes) (src peer : Addr) (ext : Bytes) : (s.afterReset buf src peer ext).host =
    { s.host with rst := false } := rfl
@[simp] theorem afterReset_snd (buf : Bytes) (src peer : Addr) (ext : Bytes) : (s.afterReset buf src peer ext).snd =
    Sender.reset := rfl
@[simp] theorem afterReset_rcv (buf : Bytes) (src peer : Addr) (ext : Bytes) : (s.afterReset buf src peer ext).rcv =
    Receiver.resetWith s.params.rxTimeoutTicks buf (s.params.addr src) (s.params.addr peer) (ext.take Config.mss) := rfl
@[simp] theorem afterReset_chan (buf : Bytes) (src peer : Addr) (ext : Bytes) : (s.afterReset buf src peer ext).chan =
    s.chan := rfl
@[simp] theorem afterReset_log (buf : Bytes) (src peer : Addr) (ext : Bytes) : (s.afterReset buf src peer ext).log =
    s.log := rfl
@[simp] theorem afterReset_unitOut (buf : Bytes) (src peer : Addr) (ext : Bytes) : (s.afterReset buf src peer ext).unitOut =
    s.unitOut := rfl
@[simp] theorem afterReset_script (buf : Bytes) (src peer : Addr) (ext : Bytes) : (s.afterReset buf src peer ext).script =
    s.script := rfl

end State

/-! ## State.reset: the fields R45 gives -/

@[simp] theorem reset_snd : State.reset.snd = Sender.reset := rfl
@[simp] theorem reset_host_rst : State.reset.host.rst = false := rfl
@[simp] theorem reset_script : State.reset.script = [] := rfl

end Machine
end Sys2Proof
end

