-- ==== Sys2Proof/Laws/Ops.lean ====
section
/-! SUPPORT. One lemma per shared operation that says everything it can do, for later proofs to cite
instead of unfolding it. -/

namespace Sys2Proof
namespace Machine

/-! ## Firing or holding -/

theorem fire_true (s : State) (e : Result) : fire true s e = e := rfl
theorem fire_false (s : State) (e : Result) : fire false s e = .next s := rfl

/-- An operation that answers next either held, with nothing changed, or fired. -/
theorem fireAgent_next {c : Bool} {s t : State} {e : Result} (h : fireAgent c s e = .next t) :
    t = s ∨ (s.host.rst = false ∧ c = true ∧ e = .next t) := by
  unfold fireAgent fire at h
  split at h
  · rename_i hc; simp at hc; exact .inr ⟨hc.1, hc.2, h⟩
  · cases h; exact .inl rfl

theorem fireAgent_of {c : Bool} {s : State} (e : Result) (hr : s.host.rst = false) (hc : c = true) :
    fireAgent c s e = e := by
  simp [fireAgent, fire, hr, hc]

theorem fireAgent_reset {c : Bool} {s : State} (e : Result) (hr : s.host.rst = true) :
    fireAgent c s e = .next s := by
  simp [fireAgent, fire, hr]

/-- A unit that answers next was given operands within their types. -/
theorem withOperands_next {b : Bool} {e : Result} {t : State} (h : withOperands b e = .next t) :
    b = true ∧ e = .next t := by
  unfold withOperands at h
  split at h
  · exact ⟨by assumption, h⟩
  · cases h

/-! ## Addresses from outside -/

/-- Of an address from outside at most `ADDR_W` bits enter. -/
theorem addr_lt (p : Config.Params) (a : Addr) : p.addr a < 2 ^ p.addrW := Nat.mod_lt _ (Nat.two_pow_pos _)

/-- An address of `ADDR_W` bits enters whole. -/
theorem addr_of_lt {p : Config.Params} {a : Addr} (h : a < 2 ^ p.addrW) : p.addr a = a := Nat.mod_eq_of_lt h

/-! ## The packet of r_buf -/

theorem packet_of_ok {x : Receiver} (h : x.bufOk = true) : x.packet = decodePacket x.buf := by
  simp [Receiver.packet, h]

/-- The packet in the buffer is a valid one, and the buffer holds it whole. -/
theorem packet_some {x : Receiver} {k : Packet} (h : x.packet = some k) :
    x.bufOk = true ∧ decodePacket x.buf = some k ∧ k.payload.length ≤ 1000 := by
  unfold Receiver.packet at h
  split at h
  · exact ⟨by assumption, h, (decodePacket_some h).2.2⟩
  · cases h

/-- There is a packet exactly when the bit `ok` is 1. -/
theorem packet_isSome (x : Receiver) : x.packet.isSome = x.bufOk := by
  cases h : x.bufOk with
  | false => simp [Receiver.packet, h]
  | true =>
    obtain ⟨k, hk, -⟩ := packetOk_decodes h
    simp [Receiver.packet, h, hk]

theorem bufMatch_of_packet {x : Receiver} {k : Packet} (h : x.packet = some k) :
    x.bufMatch = (k.seqNum == x.expected) := by
  obtain ⟨hok, hd, -⟩ := packet_some h
  simp [Receiver.bufMatch, hd, hok]

theorem bufEof_of_packet {x : Receiver} {k : Packet} (h : x.packet = some k) :
    x.bufEof = isEof k.payload := by
  obtain ⟨hok, hd, -⟩ := packet_some h
  simp [Receiver.bufEof, hd, hok]

/-! ## The timer's abstract states (R30) -/

theorem timerState_stopped (x : Sender) : x.timerState = .stopped ↔ x.tmrRun = false := by
  unfold Sender.timerState
  split
  · simp_all
  · split <;> simp_all

theorem timerState_expired (x : Sender) : x.timerState = .expired ↔ x.tmrExpired = true := by
  unfold Sender.timerState Sender.tmrExpired
  split
  · simp_all
  · split <;> simp_all

theorem timerState_running (x : Sender) : x.timerState = .running ↔ x.tmrCounting = true := by
  unfold Sender.timerState Sender.tmrCounting Sender.tmrExpired
  split
  · simp_all
  · split <;> simp_all

/-! ## Turns -/

theorem takeTurn_cons {s : State} {t : Turn} {rest : List Turn} (h : s.script = t :: rest) :
    takeTurn s = runTurn t { s with script := rest } := by
  simp [takeTurn, h]

theorem takeTurn_nil {s : State} (h : s.script = []) : takeTurn s = .next s := by
  simp [takeTurn, h]

/-- A selection that answers next either ran the operation it picked, or changed nothing. -/
theorem runSelection_next {x : Selection} {s t : State} (h : runSelection x s = .next t) :
    t = s ∨ ∃ i, x = .fire i ∧ exec i s = .next t := by
  unfold runSelection at h
  split at h
  · exact .inr ⟨_, rfl, h⟩
  · cases h; exact .inl rfl
  · cases h; exact .inl rfl
  · cases h

end Machine
end Sys2Proof
end

