-- ==== Sys2Proof/Laws/PerInstr.lean ====
section
/-! SUPPORT. Per-operation lemmas about the issue record: its first byte is a known tag. -/

namespace Sys2Proof
namespace Laws
namespace RecordHead

/-- The record of an operation is not empty, and its tag is one of the model's fifteen. -/
def Statement (i : Instr) : Prop :=
  ∃ tag body, encode i = tag :: body ∧ 1 ≤ tag.toNat ∧ tag.toNat ≤ 15

theorem encode (q : SeqNum) (c : Bytes) (p : Bytes) : Statement (.encode q c p) := ⟨_, _, rfl, by decide, by decide⟩
theorem decode (w : Bytes) : Statement (.decode w) := ⟨_, _, rfl, by decide, by decide⟩
theorem mkpkt (q : SeqNum) (p : Bytes) : Statement (.mkpkt q p) := ⟨_, _, rfl, by decide, by decide⟩
theorem ack (q : SeqNum) : Statement (.ack q) := ⟨_, _, rfl, by decide, by decide⟩
theorem eofpkt (q : SeqNum) : Statement (.eofpkt q) := ⟨_, _, rfl, by decide, by decide⟩
theorem checksum (q : SeqNum) (p : Bytes) : Statement (.checksum q p) := ⟨_, _, rfl, by decide, by decide⟩
theorem verify (q : SeqNum) (c : Bytes) (p : Bytes) : Statement (.verify q c p) := ⟨_, _, rfl, by decide, by decide⟩
theorem pktOk (w : Bytes) : Statement (.pktOk w) := ⟨_, _, rfl, by decide, by decide⟩
theorem tmrStart : Statement .tmrStart := ⟨_, _, rfl, by decide, by decide⟩
theorem tmrStop : Statement .tmrStop := ⟨_, _, rfl, by decide, by decide⟩
theorem tmrTick : Statement .tmrTick := ⟨_, _, rfl, by decide, by decide⟩
theorem tmrIsRunning : Statement .tmrIsRunning := ⟨_, _, rfl, by decide, by decide⟩
theorem tmrHasExpired : Statement .tmrHasExpired := ⟨_, _, rfl, by decide, by decide⟩
theorem riTick : Statement .riTick := ⟨_, _, rfl, by decide, by decide⟩
theorem sCancel : Statement .sCancel := ⟨_, _, rfl, by decide, by decide⟩
theorem sSend : Statement .sSend := ⟨_, _, rfl, by decide, by decide⟩
theorem sTimeout : Statement .sTimeout := ⟨_, _, rfl, by decide, by decide⟩
theorem sAckOk : Statement .sAckOk := ⟨_, _, rfl, by decide, by decide⟩
theorem sAckBad : Statement .sAckBad := ⟨_, _, rfl, by decide, by decide⟩
theorem sRetransmit : Statement .sRetransmit := ⟨_, _, rfl, by decide, by decide⟩
theorem sAdvance : Statement .sAdvance := ⟨_, _, rfl, by decide, by decide⟩
theorem sDoneEof : Statement .sDoneEof := ⟨_, _, rfl, by decide, by decide⟩
theorem rCancel : Statement .rCancel := ⟨_, _, rfl, by decide, by decide⟩
theorem rRecv : Statement .rRecv := ⟨_, _, rfl, by decide, by decide⟩
theorem rIdleTimeout : Statement .rIdleTimeout := ⟨_, _, rfl, by decide, by decide⟩
theorem rDrop : Statement .rDrop := ⟨_, _, rfl, by decide, by decide⟩
theorem rExt : Statement .rExt := ⟨_, _, rfl, by decide, by decide⟩
theorem rData : Statement .rData := ⟨_, _, rfl, by decide, by decide⟩
theorem rEof : Statement .rEof := ⟨_, _, rfl, by decide, by decide⟩
theorem rDup : Statement .rDup := ⟨_, _, rfl, by decide, by decide⟩
theorem rAck : Statement .rAck := ⟨_, _, rfl, by decide, by decide⟩

end RecordHead
end Laws
end Sys2Proof
end

