-- ==== Sys2Proof/Laws/Select.lean ====
section
/-! SUPPORT. The select words and the conditions they stand for: which row of each table the word formed
from a state picks, as a case analysis on the state register. -/

namespace Sys2Proof
namespace Machine

theorem senderOk_avail (s : State) : s.senderOk = true → s.senderAvail = true := by
  unfold State.senderOk State.senderAvail
  split <;> simp_all

theorem tmrExpired_run (x : Sender) : x.tmrExpired = true → x.tmrRun = true := by
  simp [Sender.tmrExpired]; intro h _; exact h

/-- The sender's choice in one state, said with the conditions instead of the word. -/
def senderChoice (state : SenderState) (halted cancel running expired avail ok : Bool) : Selection :=
  match state with
  | .send => if cancel then .fire .sCancel else .fire .sSend
  | .waitAck =>
    if cancel then .fire .sCancel
    else if expired then .fire .sTimeout
    else if !running then .hold
    else if ok then .fire .sAckOk
    else if avail then .fire .sAckBad
    else .hold
  | .retransmit => if cancel then .fire .sCancel else .fire .sRetransmit
  | .advance => if cancel then .fire .sCancel else .fire .sAdvance
  | .done => if halted then .terminal else .fire .sDoneEof

/-- The receiver's choice in one state, said with the conditions instead of the word. -/
def receiverChoice (state : ReceiverState) (cancel avail idleExp ok ext isMatch eof : Bool) : Selection :=
  match state with
  | .waitPacket =>
    if cancel then .fire .rCancel
    else if avail then .fire .rRecv
    else if idleExp then .fire .rIdleTimeout
    else .hold
  | .process =>
    if !ok then .fire .rDrop
    else if !ext then .fire .rExt
    else if !isMatch then .fire .rDup
    else if eof then .fire .rEof
    else .fire .rData
  | .ack => .fire .rAck
  | .done => .terminal
  | .timeoutAbort => .terminal

theorem decodeSsel_bits (st : SenderState) (h c r e a o : Bool) (ha : o = true → a = true) (he : e = true → r = true) :
    decodeSsel (st.code ++ BitVec.ofBool h ++ BitVec.ofBool c ++ BitVec.ofBool r ++ BitVec.ofBool e ++
      BitVec.ofBool a ++ BitVec.ofBool o) = senderChoice st h c r e a o := by
  cases st <;> revert h c r e a o <;> decide

theorem decodeRsel_bits (st : ReceiverState) (c a i o x m e : Bool) :
    decodeRsel (st.code ++ BitVec.ofBool c ++ BitVec.ofBool a ++ BitVec.ofBool i ++ BitVec.ofBool o ++
      BitVec.ofBool x ++ BitVec.ofBool m ++ BitVec.ofBool e) = receiverChoice st c a i o x m e := by
  cases st <;> revert c a i o x m e <;> decide

/-- What the sender's select word picks, for every state. -/
theorem decodeSsel_ssel (s : State) :
    decodeSsel s.ssel = senderChoice s.snd.state s.snd.halted s.host.sCancel s.snd.tmrRun s.snd.tmrExpired
      s.senderAvail s.senderOk :=
  decodeSsel_bits _ _ _ _ _ _ _ (senderOk_avail s) (tmrExpired_run s.snd)

/-- What the receiver's select word picks, for every state. -/
theorem decodeRsel_rsel (s : State) :
    decodeRsel s.rsel = receiverChoice s.rcv.state s.host.rCancel s.receiverAvail s.rcv.idleExpired s.rcv.bufOk
      s.rcv.extReceived s.rcv.bufMatch s.rcv.bufEof :=
  decodeRsel_bits _ _ _ _ _ _ _ _

end Machine
end Sys2Proof
end

