-- ==== Sys2Proof/Laws/Step.lean ====
section
/-! SUPPORT. Said once: what one step can do. It spends a turn and changes nothing else, or runs one
operation, or makes one move of the transport or of the host; and what those two moves leave alone. -/

namespace Sys2Proof
namespace Machine

/-- The operations the sender's select table can pick. -/
theorem senderChoice_fire {st : SenderState} {h c r e a o : Bool} {i : Instr}
    (hi : senderChoice st h c r e a o = .fire i) :
    i ∈ [.sCancel, .sSend, .sTimeout, .sAckOk, .sAckBad, .sRetransmit, .sAdvance, Instr.sDoneEof] := by
  cases st <;> simp only [senderChoice] at hi <;> (repeat' split at hi) <;> cases hi <;> decide

/-- The operations the receiver's select table can pick. -/
theorem receiverChoice_fire {st : ReceiverState} {c a i o x m e : Bool} {j : Instr}
    (hj : receiverChoice st c a i o x m e = .fire j) :
    j ∈ [.rCancel, .rRecv, .rIdleTimeout, .rDrop, .rExt, .rData, .rEof, .rDup, Instr.rAck] := by
  cases st <;> simp only [receiverChoice] at hj <;> (repeat' split at hj) <;> cases hj <;> decide

/-- The operation, if any, that a turn can run. -/
def Turn.runs (t : Turn) (i : Instr) : Prop :=
  match t with
  | .sender => i ∈ [.sCancel, .sSend, .sTimeout, .sAckOk, .sAckBad, .sRetransmit, .sAdvance, Instr.sDoneEof]
  | .receiver => i ∈ [.rCancel, .rRecv, .rIdleTimeout, .rDrop, .rExt, .rData, .rEof, .rDup, Instr.rAck]
  | .senderTick => i = .tmrTick
  | .receiverTick => i = .riTick
  | .unit record => decode record = .ok i
  | .transport _ => False
  | .host _ => False

/-- Everything a step that answers next can have done. -/
theorem step_next {s t : State} (h : step s = .next t) :
    (s.script = [] ∧ t = s) ∨
    ∃ turn rest, s.script = turn :: rest ∧
      (t = { s with script := rest } ∨
       (∃ i, turn.runs i ∧ exec i { s with script := rest } = .next t) ∨
       (∃ m, turn = .transport m ∧ transportMove m { s with script := rest } = .next t) ∨
       (∃ m, turn = .host m ∧ hostMove m { s with script := rest } = .next t)) := by
  cases hs : s.script with
  | nil => rw [step, takeTurn_nil hs] at h; cases h; exact .inl ⟨rfl, rfl⟩
  | cons turn rest =>
    refine .inr ⟨turn, rest, rfl, ?_⟩
    rw [step, takeTurn_cons hs] at h
    cases turn with
    | sender =>
      simp only [runTurn, senderTurn] at h
      split at h
      · cases h; exact .inl rfl
      · rw [decodeSsel_ssel] at h
        rcases runSelection_next h with rfl | ⟨i, hi, h⟩
        · exact .inl rfl
        · exact .inr (.inl ⟨i, senderChoice_fire hi, h⟩)
    | receiver =>
      simp only [runTurn, receiverTurn] at h
      split at h
      · cases h; exact .inl rfl
      · rw [decodeRsel_rsel] at h
        rcases runSelection_next h with rfl | ⟨i, hi, h⟩
        · exact .inl rfl
        · exact .inr (.inl ⟨i, receiverChoice_fire hi, h⟩)
    | senderTick => exact .inr (.inl ⟨.tmrTick, rfl, h⟩)
    | receiverTick => exact .inr (.inl ⟨.riTick, rfl, h⟩)
    | unit record =>
      simp only [runTurn, unitTurn] at h
      split at h
      · rename_i i hi; exact .inr (.inl ⟨i, hi, h⟩)
      · cases h; exact .inl rfl
      · cases h
    | transport m => exact .inr (.inr (.inl ⟨m, rfl, h⟩))
    | host m => exact .inr (.inr (.inr ⟨m, rfl, h⟩))

/-- A move of the transport touches the channels only, and emits nothing. -/
theorem transportMove_next {m : TransportMove} {s t : State} (h : transportMove m s = .next t) :
    t = { s with chan := t.chan } ∧ t.chan.sTx ⊆ s.chan.sTx ∧ t.chan.rTx ⊆ s.chan.rTx := by
  cases m with
  | accept d src =>
    simp only [transportMove, Host.Outcome.next.injEq] at h
    subst h
    cases d <;> simp only [Channels.accept, Channels.emitted] <;> split <;>
      simp_all [Channels.withTransit, Channels.withEmitted]
  | offer d k =>
    simp only [transportMove, Host.Outcome.next.injEq] at h
    subst h
    cases d <;> simp only [Channels.offer, Channels.offered] <;> split <;>
      simp_all [Channels.withTransit, Channels.withOffered]
  | withdraw d =>
    simp only [transportMove, Host.Outcome.next.injEq] at h
    subst h
    cases d <;> simp only [Channels.withdraw, Channels.offered] <;> split <;>
      simp_all [Channels.withTransit, Channels.withOffered]
  | duplicate d k =>
    simp only [transportMove, fire] at h
    split at h <;> cases h
    · cases d <;> simp only [Channels.duplicate] <;> split <;> simp_all [Channels.withTransit]
    · simp
  | inject d x =>
    simp only [transportMove, Host.Outcome.next.injEq] at h
    subst h; cases d <;> simp [Channels.inject, Channels.withTransit]
  | drop d k =>
    simp only [transportMove, Host.Outcome.next.injEq] at h
    subst h; cases d <;> simp [Channels.drop, Channels.withTransit]
  | corrupt d k w =>
    simp only [transportMove, Host.Outcome.next.injEq] at h
    subst h; cases d <;> simp [Channels.corrupt, Channels.withTransit]

/-- A move of the host touches its inputs only, and the configuration only while `rst = 1` or after
`s_done = 1`; or it raises reset; or it releases reset. -/
theorem hostMove_next {m : HostMove} {s t : State} (h : hostMove m s = .next t) :
    (t = { s with host := t.host } ∧ t.host.rst = s.host.rst ∧
      ((t.host.units = s.host.units ∧ t.host.nUnits = s.host.nUnits ∧ t.host.sDest = s.host.sDest) ∨
       (∃ u n a, m = .load u n a ∧
         t.host = { s.host with units := u, nUnits := n, sDest := s.params.addr a } ∧
         (s.host.rst = true ∨ s.snd.halted = true)))) ∨
    (m = .raiseReset ∧ t = s.intoReset) ∨
    (∃ b a p e, m = .releaseReset b a p e ∧ s.host.rst = true ∧ t = s.afterReset b a p e) := by
  cases m with
  | releaseReset b a p e =>
    simp only [hostMove, fire] at h
    split at h <;> cases h
    · exact .inr (.inr ⟨b, a, p, e, rfl, by assumption, rfl⟩)
    · exact .inl ⟨rfl, rfl, .inl ⟨rfl, rfl, rfl⟩⟩
  | load u n a =>
    simp only [hostMove] at h
    split at h <;> cases h
    rename_i hh
    exact .inl ⟨rfl, rfl, .inr ⟨u, n, a, rfl, rfl, by simpa using hh⟩⟩
  | setSenderCancel b => cases h; exact .inl ⟨rfl, rfl, .inl ⟨rfl, rfl, rfl⟩⟩
  | setReceiverCancel b => cases h; exact .inl ⟨rfl, rfl, .inl ⟨rfl, rfl, rfl⟩⟩
  | raiseReset => cases h; exact .inr (.inl ⟨rfl, rfl⟩)

end Machine
end Sys2Proof
end

