-- ==== Sys2Proof/Tests/Slice0.lean ====
section
/-! SUPPORT. The model's own tests. Words and expected values are written out from the spec: the tables of
30_encoding.md and the vectors of 95_test_vectors.md part 2 (their ids stand in the names: E, X, K, V, T,
I, VS, VR). After them, one witness for every obligation that has hypotheses. -/

namespace Sys2Proof
namespace Tests

open Sys2Proof.Machine

/-! ## Helpers -/

/-- The state after, where there is one. -/
def after (r : Result) : Option State :=
  match r with
  | .next t => some t
  | .fault _ => none
  | .refused _ => none

/-- The refusal, where there is one. -/
def why (r : Result) : Option Refusal :=
  match r with
  | .refused e => some e
  | .next _ => none
  | .fault _ => none

/-- What a unit answers to an operation, run right after reset. -/
def answerOf (i : Instr) : Option UnitAnswer := (after (exec i State.reset)).map (·.unitOut)

/-- The bytes of `.txt`, `hello`, `\EOF`, `Hi`. -/
def txt : Bytes := [0x2E, 0x74, 0x78, 0x74]
def hello : Bytes := [0x68, 0x65, 0x6C, 0x6C, 0x6F]
def eof : Bytes := [0x5C, 0x45, 0x4F, 0x46]
def hi : Bytes := [0x48, 0x69]

/-- `000000016.txt`, `100000022hello`, `000000015\EOF`, `100000016\EOF`, `000000000`, `100000001`,
`100000000`, `10000001`, `000000006Hi`, `100000017.txt`, `000000017.txt`. -/
def dTxt : Bytes := [0x30, 0x30, 0x30, 0x30, 0x30, 0x30, 0x30, 0x31, 0x36, 0x2E, 0x74, 0x78, 0x74]
def dHello : Bytes := [0x31, 0x30, 0x30, 0x30, 0x30, 0x30, 0x30, 0x32, 0x32, 0x68, 0x65, 0x6C, 0x6C, 0x6F]
def dEof0 : Bytes := [0x30, 0x30, 0x30, 0x30, 0x30, 0x30, 0x30, 0x31, 0x35, 0x5C, 0x45, 0x4F, 0x46]
def dEof1 : Bytes := [0x31, 0x30, 0x30, 0x30, 0x30, 0x30, 0x30, 0x31, 0x36, 0x5C, 0x45, 0x4F, 0x46]
def dAck0 : Bytes := [0x30, 0x30, 0x30, 0x30, 0x30, 0x30, 0x30, 0x30, 0x30]
def dAck1 : Bytes := [0x31, 0x30, 0x30, 0x30, 0x30, 0x30, 0x30, 0x30, 0x31]
def dBad : Bytes := [0x31, 0x30, 0x30, 0x30, 0x30, 0x30, 0x30, 0x30, 0x30]
def dShort : Bytes := [0x31, 0x30, 0x30, 0x30, 0x30, 0x30, 0x30, 0x31]
def dHi : Bytes := [0x30, 0x30, 0x30, 0x30, 0x30, 0x30, 0x30, 0x30, 0x36, 0x48, 0x69]
def dTxt1 : Bytes := [0x31, 0x30, 0x30, 0x30, 0x30, 0x30, 0x30, 0x31, 0x37, 0x2E, 0x74, 0x78, 0x74]
def dTxtBad : Bytes := [0x30, 0x30, 0x30, 0x30, 0x30, 0x30, 0x30, 0x31, 0x37, 0x2E, 0x74, 0x78, 0x74]

/-- Addresses of the vectors: A, B, Z. -/
def addrA : Addr := 10
def addrB : Addr := 11
def addrZ : Addr := 35

/-- A sender in the notation of 95_test_vectors.md 2.8, not halted. -/
def sender (st : SenderState) (q : SeqNum) (idx tx retx : BitVec 32) (any run : Bool) (cnt : Nat) : Sender :=
  { state := st, halted := false, seqNum := q, idx := idx, txCount := tx, retxCount := retx, sentAny := any,
    tmrRun := run, tmrCnt := cnt }

/-- The situation of a sender row: the units `.txt`, `hello`, `\EOF`, the destination B. -/
def senderCase (x : Sender) (cancel : Bool) (offered : Option Bytes) : State :=
  { State.reset with
    host := { State.reset.host with sCancel := cancel, nUnits := 3, sDest := addrB, units := [txt, hello, eof] },
    snd := x,
    chan := { State.reset.chan with sRx := offered.map fun w => { bytes := w, addr := addrB } },
    script := [.sender] }

/-- A receiver in the notation of 95_test_vectors.md 2.9, with its buffer and the buffer's source. -/
def receiver (st : ReceiverState) (expected : SeqNum) (ext : Bool) (idle : Nat) (q : SeqNum) (e : Bool)
    (buf : Bytes) (src : Addr) : Receiver :=
  { state := st, expected := expected, extReceived := ext, idleCnt := idle, buf := buf, src := src, seqNum := q,
    eof := e, peer := 0, ext := [] }

/-- The situation of a receiver row. -/
def receiverCase (x : Receiver) (cancel : Bool) (offered : Option Datagram) : State :=
  { State.reset with
    host := { State.reset.host with rCancel := cancel }, rcv := x,
    chan := { State.reset.chan with rRx := offered }, script := [.receiver] }

/-- A sender with a timer in a given state. -/
def timerCase (run : Bool) (cnt : Nat) : State :=
  { State.reset with snd := { State.reset.snd with tmrRun := run, tmrCnt := cnt } }

/-- The timer's registers after an operation. -/
def timerAfter (r : Result) : Option (Bool × Nat) := (after r).map fun t => (t.snd.tmrRun, t.snd.tmrCnt)

/-! ## Well-formed and ill-formed operations (R120, R140, R143) -/

/-- A payload of 1001 bytes, and one of 1000. -/
def tooLong : Bytes := List.replicate 1001 0
def longest : Bytes := List.replicate 1000 0xFF

theorem payloadOk_tooLong : payloadOk tooLong = false := by
  unfold payloadOk tooLong
  rw [List.length_replicate]
  rfl

theorem payloadOk_longest : payloadOk longest = true := by
  unfold payloadOk longest
  rw [List.length_replicate]
  rfl

theorem test_illformed_encode_token : wellFormed (.encode 0 [0x30, 0x30] []) = false := by decide
theorem test_illformed_encode_payload : wellFormed (.encode 0 (dec8 0) tooLong) = false := by
  simp [wellFormed, payloadOk_tooLong]
theorem test_illformed_mkpkt : wellFormed (.mkpkt 1 tooLong) = false := by simp [wellFormed, payloadOk_tooLong]
theorem test_illformed_checksum : wellFormed (.checksum 1 tooLong) = false := by
  simp [wellFormed, payloadOk_tooLong]
theorem test_illformed_verify_token : wellFormed (.verify 0 (List.replicate 9 0x30) []) = false := by decide
theorem test_illformed_verify_payload : wellFormed (.verify 0 (dec8 0) tooLong) = false := by
  simp [wellFormed, payloadOk_tooLong]
theorem test_wellformed_longest : wellFormed (.mkpkt 1 longest) = true := by
  simp [wellFormed, payloadOk_longest]

/-! ## Decoding: words written out bit by bit from the rows of 30_encoding.md

Sender (R101): state code, halted, cancel, running, expired, avail, ok. Receiver (R102): state code, cancel,
avail, idle_exp, ok, extrcv, match, eof. The words are the ones of the vectors VS1 to VS19 where these give
all nine bits. -/

theorem test_word_s_send : decodeSsel 0b000_0_0_0_0_0_0 = .fire .sSend := by decide
theorem test_word_s_cancel : decodeSsel 0b001_0_1_1_1_1_1 = .fire .sCancel := by decide
theorem test_word_s_timeout : decodeSsel 0b001_0_0_1_1_1_1 = .fire .sTimeout := by decide
theorem test_word_s_ack_ok : decodeSsel 0b001_0_0_1_0_1_1 = .fire .sAckOk := by decide
theorem test_word_s_ack_bad : decodeSsel 0b001_0_0_1_0_1_0 = .fire .sAckBad := by decide
theorem test_word_s_retransmit : decodeSsel 0b010_0_0_1_1_0_0 = .fire .sRetransmit := by decide
theorem test_word_s_advance : decodeSsel 0b011_0_0_0_0_0_0 = .fire .sAdvance := by decide
theorem test_word_s_done_eof : decodeSsel 0b100_0_1_0_0_0_0 = .fire .sDoneEof := by decide
theorem test_word_s_hold : decodeSsel 0b001_0_0_1_0_0_0 = .hold ∧ decodeSsel 0b001_0_0_0_0_1_1 = .hold := by decide
theorem test_word_s_terminal : decodeSsel 0b100_1_0_0_0_1_1 = .terminal := by decide
theorem test_word_s_reserved : decodeSsel 0b101_0_0_0_0_0_0 = .noRow ∧ decodeSsel 0b110_0_0_0_0_0_0 = .noRow ∧
    decodeSsel 0b111_1_1_1_1_1_1 = .noRow := by decide

theorem test_word_r_cancel : decodeRsel 0b000_1_1_0_0_1_0_0 = .fire .rCancel := by decide
theorem test_word_r_recv : decodeRsel 0b000_0_1_1_0_0_0_0 = .fire .rRecv := by decide
theorem test_word_r_idle_timeout : decodeRsel 0b000_0_0_1_0_0_0_0 = .fire .rIdleTimeout := by decide
theorem test_word_r_drop : decodeRsel 0b001_0_0_0_0_1_0_0 = .fire .rDrop := by decide
theorem test_word_r_ext : decodeRsel 0b001_0_0_0_1_0_1_1 = .fire .rExt := by decide
theorem test_word_r_data : decodeRsel 0b001_0_0_0_1_1_1_0 = .fire .rData := by decide
theorem test_word_r_eof : decodeRsel 0b001_0_0_0_1_1_1_1 = .fire .rEof := by decide
theorem test_word_r_dup : decodeRsel 0b001_0_0_0_1_1_0_1 = .fire .rDup := by decide
theorem test_word_r_ack : decodeRsel 0b010_1_0_0_0_0_0_0 = .fire .rAck := by decide
theorem test_word_r_hold : decodeRsel 0b000_0_0_0_1_1_1_1 = .hold := by decide
theorem test_word_r_terminal : decodeRsel 0b011_0_1_0_0_0_0_0 = .terminal ∧
    decodeRsel 0b100_0_0_1_0_0_0_0 = .terminal := by decide
theorem test_word_r_reserved : decodeRsel 0b101_0_0_0_0_0_0_0 = .noRow ∧ decodeRsel 0b111_0_0_0_0_0_0_0 = .noRow := by
  decide

theorem test_word_tmr : decodeTcmd 0b00 = .hold ∧ decodeTcmd 0b01 = .fire .tmrStart ∧
    decodeTcmd 0b10 = .fire .tmrStop ∧ decodeTcmd 0b11 = .noRow := by decide

/-- The records of the operations whose words the spec gives: WIRE, TCMD, SSEL, RSEL. -/
theorem test_record_encode : decode (0x01 :: dHello) = .ok (.encode 1 [0x30, 0x30, 0x30, 0x30, 0x30, 0x30, 0x32, 0x32] hello) := by
  rfl
theorem test_record_decode : decode (0x02 :: dHello) = .ok (.decode dHello) := by rfl
theorem test_record_mkpkt : decode (0x03 :: 0x31 :: hello) = .ok (.mkpkt 1 hello) := by rfl
theorem test_record_ack : decode [0x04, 0x31] = .ok (.ack 1) := by rfl
theorem test_record_eofpkt : decode [0x05, 0x30] = .ok (.eofpkt 0) := by rfl
theorem test_record_checksum : decode (0x06 :: 0x30 :: hi) = .ok (.checksum 0 hi) := by rfl
theorem test_record_verify : decode (0x07 :: dEof0) = .ok (.verify 0 [0x30, 0x30, 0x30, 0x30, 0x30, 0x30, 0x31, 0x35] eof) := by
  rfl
theorem test_record_pkt_ok : decode [0x08] = .ok (.pktOk []) := by rfl
theorem test_record_tmr : decode [0x09, 0x01] = .ok .tmrStart ∧ decode [0x09, 0x02] = .ok .tmrStop := ⟨rfl, rfl⟩
theorem test_record_ticks : decode [0x0A] = .ok .tmrTick ∧ decode [0x0D] = .ok .riTick := ⟨rfl, rfl⟩
theorem test_record_queries : decode [0x0B] = .ok .tmrIsRunning ∧ decode [0x0C] = .ok .tmrHasExpired := ⟨rfl, rfl⟩
theorem test_record_s_ack_ok : decode [0x0E, 0x4B, 0x00] = .ok .sAckOk := by rfl
theorem test_record_s_done_eof : decode [0x0E, 0x00, 0x01] = .ok .sDoneEof := by rfl
theorem test_record_r_data : decode [0x0F, 0x8E, 0x00] = .ok .rData := by rfl
theorem test_record_r_ack : decode [0x0F, 0x00, 0x01] = .ok .rAck := by rfl

/-- Every way a record is refused, by name. -/
theorem test_record_rejects :
    decode [] = .error .emptyRecord ∧ decode [0x10] = .error .unknownTag ∧ decode [0x0A, 0x00] = .error .wrongLength ∧
    decode (0x01 :: dShort) = .error .malformedWire ∧ decode [0x04, 0x32] = .error .badSequenceByte ∧
    decode [0x09, 0x05] = .error .highBitsSet ∧ decode [0x0E, 0x00, 0x02] = .error .highBitsSet ∧
    decode [0x09, 0x00] = .error .noOperation ∧ decode [0x09, 0x03] = .error .reservedCode ∧
    decode [0x0E, 0x40, 0x01] = .error .reservedCode ∧ decode [0x0F, 0x80, 0x02] = .error .reservedCode :=
  ⟨rfl, rfl, rfl, rfl, rfl, rfl, rfl, rfl, rfl, rfl, rfl⟩

theorem test_record_reject_payload : decode (0x03 :: 0x30 :: tooLong) = .error .payloadTooLong := by
  simp [decode, decodeSeqPayload, seqOfByte, payloadOk_tooLong]

/-- The table's words (match values, in whole bytes) and the operation each stands for; the three words
that are a match value of both tables read as the sender's (notes/assumptions/11.md). -/
theorem test_table_words :
    decodeTableWord 8 0x1 = some .tmrStart ∧ decodeTableWord 8 0x2 = some .tmrStop ∧
    decodeTableWord 16 0x010 = some .sCancel ∧ decodeTableWord 16 0x000 = some .sSend ∧
    decodeTableWord 16 0x044 = some .sTimeout ∧ decodeTableWord 16 0x04B = some .sAckOk ∧
    decodeTableWord 16 0x04A = some .sAckBad ∧ decodeTableWord 16 0x080 = some .sRetransmit ∧
    decodeTableWord 16 0x0C0 = some .sAdvance ∧ decodeTableWord 16 0x100 = some .sDoneEof ∧
    decodeTableWord 16 0x040 = some .rCancel ∧ decodeTableWord 16 0x020 = some .rRecv ∧
    decodeTableWord 10 0x010 = some .rIdleTimeout ∧ decodeTableWord 10 0x080 = some .rDrop ∧
    decodeTableWord 16 0x088 = some .rExt ∧ decodeTableWord 16 0x08E = some .rData ∧
    decodeTableWord 16 0x08F = some .rEof ∧ decodeTableWord 16 0x08C = some .rDup ∧
    decodeTableWord 10 0x100 = some .rAck ∧ decodeTableWord 8 0x3 = none ∧ decodeTableWord 9 0x140 = none := by
  decide

/-- A placed word's next step runs its operation: the timer starts; the first unit goes out; a packet is
dropped. -/
theorem test_place_tmr_start :
    timerAfter (step (State.reset.withFetchWord 8 0x1)) = some (true, 1000) := by decide
theorem test_place_s_send :
    (after (step (State.reset.withFetchWord 16 0x000))).map (·.snd.state) = some .waitAck := by decide
theorem test_place_r_dup :
    (after (step (State.reset.withFetchWord 16 0x08C))).map (fun t => (t.rcv.state, t.log.rDiag)) =
      some (.ack, [.outOfOrderDuplicate]) := by decide
theorem test_place_reserved :
    why (step (State.reset.withFetchWord 8 0x3)) = some (.undecodable .reservedCode) := by decide

/-! ## Codec (2.1, 2.2) -/

theorem test_E4_encode : answerOf (.encode 1 [0x30, 0x30, 0x30, 0x30, 0x30, 0x30, 0x32, 0x32] hello) = some (.bytes dHello) := by
  decide
theorem test_E3_mkpkt : answerOf (.mkpkt 0 txt) = some (.bytes dTxt) := by decide
theorem test_E9_mkpkt : answerOf (.mkpkt 1 [0xFF]) = some (.bytes [0x31, 0x30, 0x30, 0x30, 0x30, 0x30, 0x30, 0x30, 0x39, 0xFF]) := by
  decide
theorem test_E2_ack : answerOf (.ack 1) = some (.bytes dAck1) := by decide
theorem test_E6_eofpkt : answerOf (.eofpkt 1) = some (.bytes dEof1) := by decide
theorem test_X12_decode : answerOf (.decode dHello) =
    some (.packet { seqNum := 1, token := [0x30, 0x30, 0x30, 0x30, 0x30, 0x30, 0x32, 0x32], payload := hello }) := by decide
theorem test_X4_X5_decode : answerOf (.decode dShort) = some .malformed ∧
    answerOf (.decode [0x32, 0x30, 0x30, 0x30, 0x30, 0x30, 0x30, 0x30, 0x32]) = some .malformed := by decide

/-! ## Checksum unit (2.3, 2.4) -/

theorem test_K9_checksum : answerOf (.checksum 1 hello) = some (.bytes [0x30, 0x30, 0x30, 0x30, 0x30, 0x30, 0x32, 0x32]) := by
  decide
theorem test_K15_checksum : popcount (List.replicate 1000 0xFF) + 1 = 8001 ∧
    dec8 8001 = [0x30, 0x30, 0x30, 0x30, 0x38, 0x30, 0x30, 0x31] := by
  have key : ∀ n : Nat, popcount (List.replicate n 0xFF) = 8 * n := by
    intro n
    induction n with
    | zero => rfl
    | succ n ih =>
      have h : popcount8 (0xFF : Byte) = 8 := by decide
      rw [List.replicate_succ, popcount_cons, ih, h]; omega
  exact ⟨by rw [key], by decide⟩
theorem test_verify : answerOf (.verify 0 [0x30, 0x30, 0x30, 0x30, 0x30, 0x30, 0x31, 0x35] eof) = some (.bit true) ∧
    answerOf (.verify 1 [0x30, 0x30, 0x30, 0x30, 0x30, 0x30, 0x31, 0x35] eof) = some (.bit false) := by decide
theorem test_V3_V8_pkt_ok : answerOf (.pktOk dHello) = some (.bit true) ∧ answerOf (.pktOk dBad) = some (.bit false) := by
  decide
theorem test_V18_pkt_ok : answerOf (.pktOk (dEof0 ++ [0x00, 0x00])) = some (.bit true) ∧
    isEof (eof ++ [0x00, 0x00]) = false := by decide

/-! ## Timers (2.5, 2.6) -/

theorem test_T2_T3_start : timerAfter (exec .tmrStart (timerCase true 0)) = some (true, 1000) ∧
    timerAfter (exec .tmrStart (timerCase true 412)) = some (true, 1000) := by decide
theorem test_T4_T5_stop : timerAfter (exec .tmrStop (timerCase true 412)) = some (false, 0) ∧
    timerAfter (exec .tmrStop (timerCase true 0)) = some (false, 0) := by decide
theorem test_T7_T9_tick : timerAfter (exec .tmrTick (timerCase true 1000)) = some (true, 999) ∧
    timerAfter (exec .tmrTick (timerCase true 1)) = some (true, 0) := by decide
theorem test_T10_T11_tick : timerAfter (exec .tmrTick (timerCase true 0)) = some (true, 0) ∧
    timerAfter (exec .tmrTick (timerCase false 0)) = some (false, 0) := by decide
theorem test_T9_queries : (timerCase true 0).tmrRunning = true ∧
    (after (exec .tmrIsRunning (timerCase true 0))).map (·.unitOut) = some (.bit true) ∧
    (after (exec .tmrHasExpired (timerCase true 0))).map (·.unitOut) = some (.bit true) ∧
    (after (exec .tmrHasExpired (timerCase true 412))).map (·.unitOut) = some (.bit false) ∧
    (after (exec .tmrIsRunning (timerCase false 0))).map (·.unitOut) = some (.bit false) := by decide
theorem test_I1_I3_ri_tick :
    (after (exec .riTick (receiverCase (receiver .waitPacket 0 false 5000 0 false [] 0) false none))).map (·.rcv.idleCnt) =
      some 4999 ∧
    (after (exec .riTick (receiverCase (receiver .waitPacket 0 false 0 0 false [] 0) false none))).map (·.rcv.idleCnt) =
      some 0 := by decide
theorem test_I4_ri_tick :
    (after (exec .riTick (receiverCase (receiver .process 0 false 77 0 false [] 0) false none))).map (·.rcv.idleCnt) =
      some 77 := by decide

/-! ## Sender (2.8) -/

theorem test_VS1_send :
    (after (step (senderCase (sender .send 0 0 0 0 false false 0) false none))).map (fun t => (t.snd, t.chan.sTx)) =
      some (sender .waitAck 0 0 1 0 true true 1000, [{ bytes := dTxt, addr := addrB }]) := by decide
theorem test_VS3_cancel :
    (after (step (senderCase (sender .send 0 0 0 0 false false 0) true none))).map (fun t => (t.snd, t.log.sDiag)) =
      some (sender .done 0 0 0 0 false false 0, [.userCancellation]) := by decide
theorem test_VS6_ack_ok :
    (after (step (senderCase (sender .waitAck 1 1 3 0 true true 1) false (some dTxt)))).map (fun t => (t.snd, t.chan.sRx)) =
      some (sender .advance 0 1 4 0 true false 0, none) := by decide
theorem test_VS7_ack_bad :
    (after (step (senderCase (sender .waitAck 1 1 3 0 true true 7) false (some dBad)))).map (fun t => (t.snd, t.log.sDiag)) =
      some (sender .waitAck 1 1 3 0 true true 7, [.corruptPacket]) := by decide
theorem test_VS9_ack_bad :
    (after (step (senderCase (sender .waitAck 1 1 3 0 true true 7) false (some [])))).map (fun t => (t.chan.sRx, t.log.sDiag)) =
      some (none, [.malformedPacket]) := by decide
theorem test_VS10_timeout :
    (after (step (senderCase (sender .waitAck 1 1 3 0 true true 0) false (some dAck1)))).map
        (fun t => (t.snd, t.chan.sRx.isSome, t.log.sDiag)) =
      some (sender .retransmit 1 1 3 0 true true 0, true, [.channelLoss]) := by decide
theorem test_VS11_cancel :
    (after (step (senderCase (sender .waitAck 1 1 3 0 true true 0) true (some dAck1)))).map (·.snd) =
      some (sender .done 1 1 3 0 true false 0) := by decide
theorem test_VS13_hold :
    (after (step (senderCase (sender .waitAck 1 1 3 0 true false 0) false (some dAck1)))).map (fun t => (t.snd, t.chan.sRx.isSome)) =
      some (sender .waitAck 1 1 3 0 true false 0, true) := by decide
theorem test_VS14_retransmit :
    (after (step (senderCase (sender .retransmit 1 1 3 0 true true 0) false none))).map (·.snd) =
      some (sender .send 1 1 4 1 true true 0) := by decide
theorem test_W3_retransmit :
    (after (step (senderCase (sender .retransmit 1 1 3 0xFFFFFFFF true true 0) false none))).map (·.snd.retxCount) = some 0 := by
  decide
theorem test_VS15_VS16_advance :
    (after (step (senderCase (sender .advance 0 1 4 0 true false 0) false none))).map (·.snd) =
      some (sender .send 0 2 4 0 true false 0) ∧
    (after (step (senderCase (sender .advance 1 2 6 0 true false 0) false none))).map (·.snd) =
      some (sender .done 1 3 6 0 true false 0) := by decide
theorem test_VS4_VS18_done_eof :
    (after (step (senderCase (sender .done 0 0 0 0 false false 0) true none))).map (fun t => (t.chan.sTx, t.sDone, t.sComplete)) =
      some ([{ bytes := dEof0, addr := addrB }], true, false) ∧
    (after (step (senderCase (sender .done 1 3 6 0 true false 0) false none))).map (fun t => (t.chan.sTx, t.snd.txCount)) =
      some ([{ bytes := dEof1, addr := addrB }], 6) := by decide
theorem test_absent_unit : why (exec .sSend (senderCase (sender .send 0 0 0 0 false false 0) false none)) = none ∧
    after (exec .sSend { (senderCase (sender .send 0 2 0 0 false false 0) false none) with
      host := { State.reset.host with nUnits := 3, units := [txt] } }) = none := by decide

/-! ## Receiver (2.9) -/

theorem test_VR3_recv :
    (after (step (receiverCase (receiver .waitPacket 0 false 0 0 false [] 0) false
        (some { bytes := [0x6A, 0x75, 0x6E, 0x6B], addr := addrZ })))).map (fun t => (t.rcv, t.chan.rRx)) =
      some (receiver .process 0 false 0 0 false [0x6A, 0x75, 0x6E, 0x6B] addrZ, none) := by decide
theorem test_VR4_idle_timeout :
    (after (step (receiverCase (receiver .waitPacket 0 false 0 0 false [] 0) false none))).map
        (fun t => (t.rcv.state, t.log.sink, t.log.rDiag)) = some (.timeoutAbort, [.close], [.channelLoss]) := by decide
theorem test_VR6_cancel :
    (after (step (receiverCase (receiver .waitPacket 1 true 5000 0 false [] 0) true
        (some { bytes := dHello, addr := addrA })))).map (fun t => (t.rcv.state, t.log.sink, t.log.rDiag, t.chan.rRx.isSome)) =
      some (.done, [.close], [.userCancellation], true) := by decide
theorem test_VR7_VR8_drop :
    (after (step (receiverCase (receiver .process 0 false 77 0 false [] addrZ) false none))).map
        (fun t => (t.rcv.state, t.rcv.idleCnt, t.log.rDiag)) = some (.waitPacket, 5000, [.malformedPacket]) ∧
    (after (step (receiverCase (receiver .process 0 false 77 0 false dTxtBad addrA) false none))).map
        (fun t => (t.rcv.idleCnt, t.log.rDiag, t.chan.rTx)) = some (5000, [.corruptPacket], []) := by decide
theorem test_VR9_ext :
    (after (step (receiverCase (receiver .process 0 false 5000 0 false dTxt1 addrA) false none))).map
        (fun t => (t.rcv, t.log.sink)) =
      some ({ receiver .ack 1 true 5000 1 false dTxt1 addrA with peer := addrA, ext := txt }, [.name addrA txt]) := by decide
theorem test_VR10_ext :
    (after (step (receiverCase (receiver .process 0 false 5000 0 false dEof0 addrA) false none))).map
        (fun t => (t.rcv.eof, t.log.sink)) = some (true, [.name addrA eof]) := by decide
theorem test_VR12_VR13_data :
    (after (step (receiverCase (receiver .process 1 true 5000 0 false dAck1 addrA) false none))).map
        (fun t => (t.rcv.expected, t.log.sink)) = some (0, [.append []]) ∧
    (after (step (receiverCase (receiver .process 0 true 5000 0 false dHi addrA) false none))).map
        (fun t => (t.rcv, t.log.sink)) = some (receiver .ack 1 true 5000 0 false dHi addrA, [.append hi]) := by decide
theorem test_VR14_eof :
    (after (step (receiverCase (receiver .process 1 true 5000 0 false dEof1 addrA) false none))).map
        (fun t => (t.rcv, t.log.sink, t.log.rDiag)) = some (receiver .ack 1 true 5000 1 true dEof1 addrA, [], []) := by decide
theorem test_VR15_VR16_dup :
    (after (step (receiverCase (receiver .process 0 true 5000 0 false dEof1 addrA) false none))).map
        (fun t => (t.rcv, t.log.rDiag)) = some (receiver .ack 0 true 5000 1 true dEof1 addrA, [.outOfOrderDuplicate]) ∧
    (after (step (receiverCase (receiver .process 0 true 5000 0 false dHello addrA) false none))).map
        (fun t => (t.rcv.eof, t.log.sink)) = some (false, []) := by decide
theorem test_VR18_ack :
    (after (step (receiverCase (receiver .ack 0 true 123 1 false dHello addrB) false none))).map
        (fun t => (t.rcv, t.chan.rTx)) =
      some (receiver .waitPacket 0 true 5000 1 false dHello addrB, [{ bytes := dAck1, addr := addrB }]) := by decide
theorem test_VR19_ack :
    (after (step (receiverCase (receiver .ack 0 true 5000 0 true dEof0 addrB) false none))).map
        (fun t => (t.rcv.state, t.chan.rTx, t.log.sink)) =
      some (.done, [{ bytes := dAck0, addr := addrB }], [.close]) := by decide
theorem test_VR21_terminal :
    (after (step (receiverCase (receiver .done 0 true 5000 0 false [] 0) false (some { bytes := dEof1, addr := addrA })))).map
        (fun t => (t.rcv.state, t.chan.rRx.isSome)) = some (.done, true) := by decide

/-! ## The environment (R64, R290, R301, R78) -/

theorem test_units : transferUnits txt hello = [txt, hello, eof] ∧ transferUnits [] [] = [[], eof] := by decide
theorem test_load_during_run :
    why (step { State.reset with script := [.host (.load [txt] 1 addrB)] }) = some .unstableConfiguration := by decide
theorem test_load_in_reset :
    (after (step { State.reset with
      host := { State.reset.host with rst := true }
      script := [.host (.load [txt, eof] 2 addrB)] })).map (·.host.nUnits) = some 2 := by decide
theorem test_duplicate_needs_parameter :
    (after (step { State.reset with
      chan := { State.reset.chan with toSender := [{ bytes := dAck0, addr := addrB }] }
      script := [.transport (.duplicate .toSender 0)] })).map (·.chan.toSender.length) = some 1 := by decide

/-- R6: other legal parameters, with counts that 16 bits do not hold. -/
def fastTicks : Config.Params := { tickHz := 100000, tmrW := 20, addrW := 8 }

theorem test_wide_timer : fastTicks.wf = true ∧ ({ fastTicks with tmrW := 16 } : Config.Params).wf = false ∧
    timerAfter (exec .tmrStart { timerCase false 0 with params := fastTicks }) = some (true, 100000) := by decide

/-- R255: a block put into reset after a transfer has counters of 0; R291: what was emitted stays. -/
theorem test_raise_reset :
    (after (step { senderCase (sender .done 1 3 6 2 true false 0) false none with
      log := { State.reset.log with sDiag := [.channelLoss] }
      script := [.host .raiseReset] })).map
        (fun t => (t.host.rst, t.snd.txCount, t.snd.retxCount, t.host.nUnits, t.log.sDiag)) =
      some (true, 0, 0, 3, [.channelLoss]) := by decide

/-- R6, R40: of an address from outside only its `ADDR_W` bits enter. -/
theorem test_addr_w :
    (after (step { State.reset with
      params := fastTicks
      script := [.transport (.inject .toSender { bytes := [], addr := 0x123 })] })).map (·.chan.toSender) =
      some [{ bytes := [], addr := 0x23 }] := by decide

/-! ## Witnesses: for every obligation with hypotheses, a state and operands that meet them together, one
for each clause -/

/-- The waiting sender of VS5, VS7, VS10, with a count, a cancellation and a datagram. -/
def waiting (cnt : Nat) (cancel : Bool) (offered : Option Bytes) : State :=
  senderCase (sender .waitAck 1 1 3 0 true true cnt) cancel offered

/-- A resting sender in a given state. -/
def resting (st : SenderState) (cancel : Bool) : State := senderCase (sender st 0 0 0 0 false false 0) cancel none

/-- A receiver that processes a datagram from A, after the extension or before it. -/
def processing (expected : SeqNum) (ext : Bool) (buf : Bytes) : State :=
  receiverCase (receiver .process expected ext 5000 0 false buf addrA) false none

/-- A receiver that waits, with a count, a cancellation and a datagram. -/
def listening (idle : Nat) (cancel : Bool) (offered : Option Datagram) : State :=
  receiverCase (receiver .waitPacket 0 true idle 0 false [] addrA) cancel offered

/-- A machine held in reset. -/
def held (turns : List Turn) : State :=
  { State.reset with
    host := { State.reset.host with rst := true }
    script := turns }

theorem witness_DecodeOfEncodeIsTheOperation : wellFormed (.encode 1 (dec8 22) hello) = true ∧
    wellFormed (.mkpkt 1 longest) = true := ⟨by decide, test_wellformed_longest⟩

theorem witness_HelperFunctions : (99999999 ≤ 99999999 ∧ 0 ≤ 7) ∧ (0 ≤ 99999999 ∧ 7 ≤ 7) := by decide

theorem witness_PacketCodecIsAnInversePair : ((dec8 0).length = 8 ∧ ([] : Bytes).length ≤ Config.mss) ∧
    decodePacket dAck1 = some { seqNum := 1, token := dec8 1, payload := [] } := by decide

theorem witness_ValidPacketsAreTheMadeOnes : packetOk dHello = true ∧ dHello = makePacket 1 hello := by decide

theorem witness_EverySingleBitFlipIsCaught : hello.length ≤ Config.mss ∧ 0 < (makePacket 1 hello).length ∧
    13 < (makePacket 1 hello).length ∧ 7 < 8 := by decide

theorem witness_ChecksumSeesOnlyTheBitCount : ([0x41] : Bytes).length ≤ Config.mss ∧ ([0x42] : Bytes).length ≤ Config.mss ∧
    checksum 0 [0x41] = checksum 0 [0x42] := by decide

theorem witness_ChecksumAnswersTheBitCount : ([] : Bytes).length ≤ Config.mss ∧ longest.length ≤ Config.mss :=
  ⟨by decide, (payloadOk_iff longest).mp payloadOk_longest⟩

theorem witness_EncodersAnswerThePacket : (dec8 22).length = 8 ∧ hello.length ≤ Config.mss ∧
    State.reset.params.ackPayload.length ≤ Config.mss := by decide

theorem witness_DecoderAnswersThePacketOrMalformed :
    ((dec8 22).length = 8 ∧ hello.length ≤ Config.mss ∧ dHello = (0x30 + (1 : SeqNum).zeroExtend 8) :: (dec8 22 ++ hello)) ∧
    dShort.length < 9 ∧ 1009 < (0x30 :: (dec8 8008 ++ (0xFF :: tooLong))).length ∧
    ((0x32 :: dec8 2)[0]? ≠ some 0x30 ∧ (0x32 :: dec8 2)[0]? ≠ some 0x31) := by
  refine ⟨by decide, by decide, ?_, by decide⟩
  rw [List.length_cons, List.length_append, List.length_cons, tooLong, List.length_replicate]
  decide

theorem witness_VerifiersAnswerTheComparison : ((dec8 15).length = 8 ∧ eof.length ≤ Config.mss) ∧
    decodePacket dBad = some { seqNum := 1, token := dec8 0, payload := [] } ∧ decodePacket dShort = none := by decide

theorem witness_OperandsOutsideTheirTypesStop : (dec8 0 ++ [0x30]).length ≠ 8 ∧ Config.mss < tooLong.length ∧
    ((receiverCase (receiver .ack 0 true 0 0 false [] 0) false none).host.rst = false ∧
      (receiverCase (receiver .ack 0 true 0 0 false [] 0) false none).rcv.state = .ack) ∧
    (∃ s : State, s.host.rst = false ∧ s.snd.state = .send ∧ s.host.sCancel = false ∧ s.snd.idx < s.host.nUnits ∧
      memRead s.host.units s.snd.idx = none) ∧
    (∃ s : State, s.host.rst = false ∧ s.snd.state = .send ∧ s.host.sCancel = false ∧ s.snd.idx < s.host.nUnits ∧
      memRead s.host.units s.snd.idx = some tooLong) := by
  have h : Config.mss < tooLong.length := by
    rw [tooLong, List.length_replicate]
    decide
  refine ⟨by decide, h, by decide, ⟨{ resting .send false with host := { State.reset.host with nUnits := 1 } }, by decide⟩, ?_⟩
  exact ⟨{ resting .send false with host := { State.reset.host with nUnits := 1, units := [tooLong] } },
    rfl, rfl, rfl, by decide, rfl⟩

theorem witness_TimerStartAndStop : (timerCase true 412).host.rst = false ∧ (timerCase true 412).params.wf = true ∧
    (∃ t, exec .tmrStart (timerCase true 412) = .next t) ∧ (∃ t, exec .tmrStop (timerCase true 412) = .next t) :=
  ⟨rfl, by decide, ⟨_, rfl⟩, ⟨_, rfl⟩⟩

theorem witness_TimerTickCountsARunningTimer : (timerCase true 1).host.rst = false ∧
    (timerCase true 1).snd.timerState = .running ∧ (timerCase true 2).snd.timerState = .running ∧
    (∃ t, exec .tmrTick (timerCase true 1) = .next t) ∧ (timerCase true 0).snd.timerState ≠ .running ∧
    (timerCase false 0).snd.timerState ≠ .running :=
  ⟨rfl, by decide, by decide, ⟨_, rfl⟩, by decide, by decide⟩

theorem witness_TimerQueriesAnswer : (timerCase false 0).snd.timerState = .stopped ∧
    (timerCase true 1).snd.timerState = .running ∧ (timerCase true 0).snd.timerState = .expired ∧
    (timerCase true 0).host.rst = false ∧ (timerCase true 0).params.wf = true ∧
    ∃ t, exec .tmrStart (timerCase true 0) = .next t :=
  ⟨by decide, by decide, by decide, rfl, by decide, _, rfl⟩

/-- A started timer with an interval of two ticks, and a script of ticks. -/
def ticking (n : Nat) : State :=
  { timerCase true 2 with
    params := { State.reset.params with txTimeout := 2, tickHz := 1 }
    script := List.replicate n .senderTick ++ [] }

theorem witness_TimerExpiresAfterExactlyItsTicks : ∀ n ∈ [1, 2], (ticking n).host.rst = false ∧
    (ticking n).snd.tmrRun = true ∧ (ticking n).script = List.replicate n .senderTick ++ [] ∧
    (ticking n).snd.tmrCnt = (ticking n).params.txTimeoutTicks := by
  intro n _
  exact ⟨rfl, rfl, rfl, rfl⟩

theorem witness_IdleTickCountsOnlyWhileWaiting : (listening 1 false none).host.rst = false ∧
    (listening 1 false none).rcv.state = .waitPacket ∧ (listening 1 false none).rcv.idleCnt ≠ 0 ∧
    (listening 0 false none).rcv.idleCnt = 0 ∧ (processing 0 true []).rcv.state ≠ .waitPacket := by decide

/-- A receiver that waits for two more ticks, with a script of ticks and one turn. -/
def waitingOut (n : Nat) : State :=
  { listening 2 false none with script := List.replicate n .receiverTick ++ [.receiver] }

theorem witness_ReceiverGivesUpAfterItsBound : (∀ n ∈ [1, 2], (waitingOut n).host.rst = false ∧
    (waitingOut n).rcv.state = .waitPacket ∧ (waitingOut n).host.rCancel = false ∧ (waitingOut n).chan.rRx = none ∧
    (waitingOut n).script = List.replicate n .receiverTick ++ .receiver :: []) ∧
    (waitingOut 2).rcv.idleCnt ≤ 2 ∧ 1 < (waitingOut 1).rcv.idleCnt :=
  ⟨fun _ _ => ⟨rfl, rfl, rfl, rfl, rfl⟩, by decide, by decide⟩

theorem witness_SendEmitsTheUnitAndStartsTheTimer : (resting .send false).host.rst = false ∧
    (resting .send false).snd.state = .send ∧ (resting .send false).host.sCancel = false ∧
    (resting .send false).snd.idx < (resting .send false).host.nUnits ∧
    memRead (resting .send false).host.units (resting .send false).snd.idx = some txt ∧ txt.length ≤ Config.mss :=
  ⟨rfl, rfl, rfl, by decide, rfl, by decide⟩

theorem witness_AnyValidPacketIsTheAcknowledgment : (waiting 1 false (some dAck1)).host.rst = false ∧
    (waiting 1 false (some dAck1)).snd.state = .waitAck ∧ (waiting 1 false (some dAck1)).host.sCancel = false ∧
    (waiting 1 false (some dAck1)).snd.timerState = .running ∧
    (waiting 1 false (some dAck1)).chan.sRx = some { bytes := dAck1, addr := addrB } ∧ packetOk dAck1 = true := by decide

theorem witness_InvalidAcknowledgmentIsDropped : (waiting 7 false (some dBad)).host.rst = false ∧
    (waiting 7 false (some dBad)).snd.state = .waitAck ∧ (waiting 7 false (some dBad)).host.sCancel = false ∧
    (waiting 7 false (some dBad)).snd.timerState = .running ∧
    (waiting 7 false (some dBad)).chan.sRx = some { bytes := dBad, addr := addrB } ∧ packetOk dBad = false ∧
    packetOk [] = false := by decide

theorem witness_ExpiryMovesToRetransmit : (waiting 0 false none).host.rst = false ∧
    (waiting 0 false none).snd.state = .waitAck ∧ (waiting 0 false none).host.sCancel = false ∧
    (waiting 0 false none).snd.timerState = .expired := by decide

theorem witness_RetransmitCountsAndSendsAgain : (resting .retransmit false).host.rst = false ∧
    (resting .retransmit false).snd.state = .retransmit ∧ (resting .retransmit false).host.sCancel = false := by decide

theorem witness_AdvanceMovesToTheNextUnitOrDone : (resting .advance false).host.rst = false ∧
    (resting .advance false).snd.state = .advance ∧ (resting .advance false).host.sCancel = false ∧
    (resting .advance false).snd.idx + 1 ≠ (resting .advance false).host.nUnits ∧
    (senderCase (sender .advance 1 2 6 0 true false 0) false none).snd.idx + 1 =
      (senderCase (sender .advance 1 2 6 0 true false 0) false none).host.nUnits := by decide

theorem witness_FinalEofIsSentOnce : (resting .done true).host.rst = false ∧ (resting .done true).snd.state = .done ∧
    (resting .done true).snd.halted = false ∧ ∃ t, exec .sDoneEof (resting .done true) = .next t :=
  ⟨rfl, rfl, rfl, _, rfl⟩

theorem witness_SenderCancelStopsTheTimer : (waiting 5 true none).host.rst = false ∧
    (waiting 5 true none).snd.state ≠ .done ∧ (waiting 5 true none).host.sCancel = true := by decide

theorem witness_SenderPriorities :
    (∀ s ∈ [waiting 0 true (some dAck1), waiting 0 false (some dAck1), waiting 1 false (some dAck1), resting .send false,
      resting .retransmit false, resting .advance false, resting .done true], s.host.rst = false ∧ s.script = [.sender]) ∧
    (waiting 0 true (some dAck1)).snd.state ≠ .done ∧ (waiting 0 true (some dAck1)).host.sCancel = true ∧
    (waiting 0 false (some dAck1)).snd.timerState = .expired ∧ (waiting 1 false (some dAck1)).snd.timerState = .running ∧
    (waiting 1 false (some dAck1)).chan.sRx = some { bytes := dAck1, addr := addrB } ∧
    (resting .done true).snd.halted = false := by decide

theorem witness_SenderHoldsInExactlyThreeCases :
    (∀ s ∈ [waiting 3 false none, senderCase (sender .waitAck 1 1 3 0 true false 0) false (some dAck1),
      senderCase (sender .send 0 3 0 0 false false 0) false none],
      s.host.rst = false ∧ s.script = [.sender] ∧ s.senderHolds = true) ∧
    (resting .send false).senderHolds = false ∧
    ({ resting .done false with snd := { (resting .done false).snd with halted := true } } : State).senderTerminal = true := by
  decide

theorem witness_RetransmissionIsByteIdentical : (resting .send false).host.rst = false ∧
    (resting .send false).snd.state = .send ∧ (resting .send false).host.sCancel = false ∧
    (resting .send false).snd.idx < (resting .send false).host.nUnits ∧
    memRead (resting .send false).host.units (resting .send false).snd.idx = some txt ∧ txt.length ≤ Config.mss :=
  ⟨rfl, rfl, rfl, by decide, rfl, by decide⟩

theorem witness_ReceiveTakesAnyDatagram :
    (listening 0 false (some { bytes := [], addr := addrZ })).host.rst = false ∧
    (listening 0 false (some { bytes := [], addr := addrZ })).rcv.state = .waitPacket ∧
    (listening 0 false (some { bytes := [], addr := addrZ })).host.rCancel = false ∧
    (listening 0 false (some { bytes := [], addr := addrZ })).chan.rRx = some { bytes := [], addr := addrZ } := by decide

theorem witness_IdleTimeoutAborts : (listening 0 false none).host.rst = false ∧
    (listening 0 false none).rcv.state = .waitPacket ∧ (listening 0 false none).host.rCancel = false ∧
    (listening 0 false none).chan.rRx = none ∧ (listening 0 false none).rcv.idleCnt = 0 := by decide

theorem witness_ReceiverCancelCloses : (listening 0 true none).host.rst = false ∧
    (listening 0 true none).rcv.state = .waitPacket ∧ (listening 0 true none).host.rCancel = true := by decide

theorem witness_InvalidDatagramIsDropped : (processing 0 false dTxtBad).host.rst = false ∧
    (processing 0 false dTxtBad).rcv.state = .process ∧ packetOk (processing 0 false dTxtBad).rcv.buf = false ∧
    packetOk (processing 0 false []).rcv.buf = false := by decide

theorem witness_FirstValidPacketNamesTheDestination : (processing 0 false dTxt1).host.rst = false ∧
    (processing 0 false dTxt1).rcv.state = .process ∧ (processing 0 false dTxt1).rcv.extReceived = false ∧
    txt.length ≤ Config.mss ∧ (processing 0 false dTxt1).rcv.buf = makePacket 1 txt := by decide

theorem witness_InSequenceDataIsAppended : (processing 0 true dHi).host.rst = false ∧
    (processing 0 true dHi).rcv.state = .process ∧ (processing 0 true dHi).rcv.extReceived = true ∧
    hi.length ≤ Config.mss ∧ hi ≠ [0x5C, 0x45, 0x4F, 0x46] ∧
    (processing 0 true dHi).rcv.buf = makePacket (processing 0 true dHi).rcv.expected hi := by decide

theorem witness_InSequenceEofIsNotAppended : (processing 1 true dEof1).host.rst = false ∧
    (processing 1 true dEof1).rcv.state = .process ∧ (processing 1 true dEof1).rcv.extReceived = true ∧
    (processing 1 true dEof1).rcv.buf = makePacket (processing 1 true dEof1).rcv.expected [0x5C, 0x45, 0x4F, 0x46] := by
  decide

theorem witness_DuplicateIsNotWritten : (processing 0 true dHello).host.rst = false ∧
    (processing 0 true dHello).rcv.state = .process ∧ (processing 0 true dHello).rcv.extReceived = true ∧
    (1 : SeqNum) ≠ (processing 0 true dHello).rcv.expected ∧ hello.length ≤ Config.mss ∧
    (processing 0 true dHello).rcv.buf = makePacket 1 hello := by decide

theorem witness_AcknowledgmentAnswersTheSource : ∀ e : Bool,
    (receiverCase (receiver .ack 0 true 5 1 e dHello addrB) false none).host.rst = false ∧
    (receiverCase (receiver .ack 0 true 5 1 e dHello addrB) false none).rcv.state = .ack ∧
    (receiverCase (receiver .ack 0 true 5 1 e dHello addrB) false none).params.ackPayload.length ≤ Config.mss := by decide

theorem witness_DeliveryIsIdempotent : ∃ s : State, ∃ m : Datagram, s.host.rst = false ∧ s.host.rCancel = false ∧
    s.rcv.state = .waitPacket ∧ s.rcv.extReceived = true ∧ s.params.ackPayload.length ≤ Config.mss ∧
    hi.length ≤ Config.mss ∧ hi ≠ Config.eofMarker ∧ m.bytes = makePacket s.rcv.expected hi ∧ s.chan.rRx = some m ∧
    s.script = [.receiver, .receiver, .receiver] :=
  ⟨{ listening 9 false (some { bytes := dHi, addr := addrA }) with script := [.receiver, .receiver, .receiver] },
    { bytes := dHi, addr := addrA }, by decide⟩

theorem witness_ReceiverPriorities :
    (∀ s ∈ [listening 0 true (some { bytes := dHi, addr := addrA }), listening 0 false (some { bytes := dHi, addr := addrA }),
      listening 0 false none, processing 0 false dTxtBad, processing 0 true dHi, processing 0 true dHello,
      receiverCase (receiver .ack 0 true 5 1 false dHello addrB) true none], s.host.rst = false ∧ s.script = [.receiver]) ∧
    (listening 0 true (some { bytes := dHi, addr := addrA })).host.rCancel = true ∧
    (listening 0 false none).rcv.idleCnt = 0 ∧ packetOk (processing 0 false dTxtBad).rcv.buf = false ∧
    packetOk dHi = true ∧ decodePacket dHi = some { seqNum := 0, token := dec8 6, payload := hi } := by decide

theorem witness_ReceiverHoldsInExactlyOneCase : (listening 1 false none).host.rst = false ∧
    (listening 1 false none).script = [.receiver] ∧ (listening 1 false none).receiverHolds = true ∧
    (listening 0 false none).receiverHolds = false ∧
    (receiverCase (receiver .timeoutAbort 0 false 0 0 false [] 0) false none).receiverTerminal = true := by decide

theorem witness_StepRunsTheSelectedOperation :
    ((resting .send false).host.rst = false ∧ (resting .send false).script = .sender :: [] ∧
      decodeSsel (resting .send false).ssel = .fire .sSend) ∧
    ((listening 0 false none).host.rst = false ∧ (listening 0 false none).script = .receiver :: [] ∧
      decodeRsel (listening 0 false none).rsel = .fire .rIdleTimeout) ∧
    (ticking 1).script = .senderTick :: [] ∧ (waitingOut 1).script = .receiverTick :: [.receiver] ∧
    (held [.unit [0x0A]]).script = .unit [0x0A] :: [] ∧ decode [0x0A] = .ok .tmrTick ∧ (held []).script = [] :=
  ⟨by decide, by decide, rfl, rfl, rfl, rfl, rfl⟩

theorem witness_OnlyTheSelectedOperationFires : (resting .send false).host.rst = false ∧ Instr.sAdvance ∈ senderOperations ∧
    decodeSsel (resting .send false).ssel ≠ .fire .sAdvance ∧ Instr.rAck ∈ receiverOperations ∧
    decodeRsel (resting .send false).rsel ≠ .fire .rAck := by decide

theorem witness_OperationsKeepTheirFrame : (∃ t, exec .sSend (resting .send false) = .next t) ∧
    (∃ t, exec .tmrStart (timerCase true 0) = .next t) ∧ (∃ t, exec .rData (processing 0 true dHi) = .next t) ∧
    (∃ t, exec .riTick (listening 1 false none) = .next t) ∧ (∃ t, exec (.checksum 1 hello) State.reset = .next t) :=
  ⟨⟨_, rfl⟩, ⟨_, rfl⟩, ⟨_, rfl⟩, ⟨_, rfl⟩, ⟨_, rfl⟩⟩

/-- Two machines that differ in the other endpoint and in every input the endpoint does not read. -/
theorem witness_EndpointsDoNotInterfere :
    (∀ turn ∈ [Turn.sender, .senderTick], ∃ s s' : State, s.script = turn :: [] ∧ s'.script = turn :: [] ∧
      senderView s = senderView s' ∧ s.host ≠ s'.host ∧ s.rcv ≠ s'.rcv) ∧
    (∀ turn ∈ [Turn.receiver, .receiverTick], ∃ s s' : State, s.script = turn :: [] ∧ s'.script = turn :: [] ∧
      receiverView s = receiverView s' ∧ s.host ≠ s'.host ∧ s.snd ≠ s'.snd) :=
  have hs : (resting .send false).host ≠ { (resting .send false).host with rCancel := true } := by decide
  have hr : (resting .send false).rcv ≠ (processing 0 true dHi).rcv := by decide
  have hs' : (listening 0 false none).host ≠ { (resting .done true).host with nUnits := 7 } := by decide
  have hr' : (listening 0 false none).snd ≠ (resting .done false).snd := by decide
  ⟨fun turn _ => ⟨{ resting .send false with script := [turn] },
      { resting .send false with
        host := { (resting .send false).host with rCancel := true }
        rcv := (processing 0 true dHi).rcv
        script := [turn] },
      rfl, rfl, rfl, hs, hr⟩,
   fun turn _ => ⟨{ listening 0 false none with script := [turn] },
      { listening 0 false none with
        host := { (resting .done true).host with nUnits := 7 }
        snd := (resting .done false).snd
        script := [turn] },
      rfl, rfl, rfl, hs', hr'⟩⟩

theorem witness_UnspecifiedBuffersAreNeverRead :
    (∃ s s' : State, forgetName s = forgetName s' ∧ s ≠ s') ∧
    (∃ s s' t t' : State, s.rcv.state ≠ .process ∧ s.rcv.state ≠ .ack ∧ forgetBuffer s = forgetBuffer s' ∧ s ≠ s' ∧
      step s = .next t ∧ step s' = .next t' ∧ t.rcv.state = .process) :=
  ⟨⟨processing 0 true dHi, { processing 0 true dHi with rcv := { (processing 0 true dHi).rcv with peer := 7 } }, by decide⟩,
   ⟨listening 0 false (some { bytes := dHi, addr := addrA }),
    { listening 0 false (some { bytes := dHi, addr := addrA }) with
      rcv := { (listening 0 false none).rcv with buf := dTxt, src := addrZ } }, _, _,
    by decide, by decide, by decide, by decide, rfl, rfl, rfl⟩⟩

theorem witness_NoDatagramStopsTheBlock : (resting .send false).configured = true ∧
    (resting .send false).agentsOnly = true ∧ (resting .send false).oneRun = true := by decide

/-- Each of the seven operations fires somewhere. -/
theorem witness_ConditionsAreReportedByTheirOperations : ∀ c ∈ [(Instr.sTimeout, waiting 0 false none),
    (.sAckBad, waiting 1 false (some dBad)), (.sCancel, waiting 1 true none), (.rIdleTimeout, listening 0 false none),
    (.rDrop, processing 0 true []), (.rDup, processing 0 true dHello), (.rCancel, listening 0 true none)],
    ∃ t, exec c.1 c.2 = .next t ∧ t ≠ c.2 := by
  have key : ∀ (i : Instr) (s : State), (after (exec i s)).isSome = true → after (exec i s) ≠ some s →
      ∃ t, exec i s = .next t ∧ t ≠ s := by
    intro i s h h'
    cases he : exec i s with
    | next t => exact ⟨t, rfl, fun e => h' (by rw [he, e]; rfl)⟩
    | fault f => rw [he] at h; cases h
    | refused e => rw [he] at h; cases h
  intro c hc
  exact key c.1 c.2 (by revert c; decide) (by revert c; decide)

theorem witness_ResetHoldsAndReleases : (∀ turn ∈ [Turn.sender, .receiver, .senderTick, .receiverTick,
    .host (.releaseReset hello addrZ addrA txt)], (held [turn]).host.rst = true ∧ (held [turn]).script = turn :: []) ∧
    { resting .done false with script := [.host .raiseReset] }.script = .host .raiseReset :: [] := by
  decide

theorem witness_ResetMeetsTheInvariants : fastTicks.wf = true ∧ (resting .send true).host.sDest < 2 ^ fastTicks.addrW ∧
    addrZ < 2 ^ fastTicks.addrW ∧ addrA < 2 ^ fastTicks.addrW ∧ txt.length ≤ Config.mss ∧
    (resting .send true).host.nUnits = 3 ∧
    [Turn.sender, .receiver, .senderTick].all Turn.ofAgent = true ∧
    [Turn.sender, .receiver, .senderTick].all Turn.withinRun = true := by decide

/-- Out of reset, and held in it. -/
theorem witness_StepKeepsTheRegisterInvariant : ∀ s ∈ [resting .send false, held [.host (.releaseReset hello 1 2 txt)]],
    s.params.wf = true ∧ RegisterInv s ∧ (after (step s)).isSome = true := by
  intro s hs
  rw [List.mem_cons, List.mem_singleton] at hs
  rcases hs with rfl | rfl <;>
    exact ⟨by decide, ⟨⟨by decide, by decide, by decide, by decide, by decide, by decide, by decide, by decide, by decide,
      by decide⟩, ⟨by decide, by decide, by decide, by decide⟩, by decide, by decide⟩, by decide⟩

theorem witness_StepKeepsTheAlternation : AlternationInv (waiting 1 false (some dAck1)).snd ∧
    ∃ t, step (waiting 1 false (some dAck1)) = .next t := ⟨⟨by decide, by decide⟩, _, rfl⟩

theorem witness_StepKeepsTheIndexInRange :
    IndexInv (senderCase (sender .advance 0 1 4 0 true false 0) false none) ∧
    ∃ t, step (senderCase (sender .advance 0 1 4 0 true false 0) false none) = .next t :=
  ⟨⟨by decide, by decide⟩, _, rfl⟩

/-- A receiver that was named and has a chunk to append. -/
def named : State :=
  { processing 0 true dHi with log := { State.reset.log with sink := [.name 0 [], .append hello] } }

theorem witness_StepKeepsTheSinkShape : SinkInv named ∧ ∃ t, step named = .next t :=
  ⟨⟨⟨[hello], by decide, by decide, rfl⟩, rfl⟩, _, rfl⟩

theorem witness_StepEmitsOnlyValidPackets : EmittedInv (resting .send false) ∧ ∃ t, step (resting .send false) = .next t :=
  ⟨⟨by decide, by decide⟩, _, rfl⟩

theorem witness_StepKeepsAddressesWithinTheirWidth : AddressesFit named ∧ SinkEvent.name 0 [] ∈ named.log.sink ∧
    ∃ t, step named = .next t := by
  refine ⟨⟨by decide, by decide, by decide, by decide, by decide, by decide, by decide, by decide, by decide, ?_⟩,
    by decide, _, rfl⟩
  intro a e h
  have h : a = 0 ∧ e = [] := by simpa [named] using h
  rw [h.1]
  decide

/-- A file of 1005 bytes has a piece that is not the last. -/
theorem witness_TransferUnitsCutTheFile : 0 + 1 < (split (longest ++ hello)).length := by
  have h : (longest ++ hello).length = 1005 := by
    rw [List.length_append, longest, List.length_replicate]
    decide
  have step : ∀ (n : Nat) (w : Bytes), 0 < w.length →
      splitFuel (n + 1) w = w.take Config.mss :: splitFuel n (w.drop Config.mss) := by
    intro n w hw
    cases w with
    | nil => cases hw
    | cons x rest => rfl
  rw [split, h, step _ _ (by omega), step _ _ (by rw [List.length_drop, h]; decide), List.length_cons, List.length_cons]
  omega

/-- A transfer of the file `hello` with the extension `.txt`, over the turns of `deliveryScript`. -/
def transferStart : State :=
  { State.reset with
    host := { State.reset.host with units := transferUnits txt hello, nUnits := 3, sDest := addrB }
    script := deliveryScript addrA addrB 3 }

theorem witness_LosslessTransferDeliversTheFile : transferStart.params.wf = true ∧ transferStart.host.rst = false ∧
    transferStart.host.sCancel = false ∧ transferStart.host.rCancel = false ∧
    transferStart.host.units = transferUnits txt hello ∧ (transferUnits txt hello).length < 2 ^ 32 ∧
    transferStart.host.nUnits = BitVec.ofNat 32 (transferUnits txt hello).length ∧
    txt.length ≤ Config.mss ∧ txt ≠ Config.eofMarker ∧ (∀ p ∈ split hello, p ≠ Config.eofMarker) ∧
    transferStart.snd = Sender.reset ∧ transferStart.rcv.state = .waitPacket ∧ transferStart.rcv.expected = 0 ∧
    transferStart.rcv.extReceived = false ∧
    transferStart.chan = { sTx := [], rTx := [], sRx := none, rRx := none, toReceiver := [], toSender := [] } ∧
    transferStart.log.sink = [] ∧ transferStart.script = deliveryScript addrA addrB (transferUnits txt hello).length :=
  ⟨by decide, rfl, rfl, rfl, rfl, by decide, by decide, by decide, by decide, by decide, rfl, rfl, rfl, rfl, rfl, rfl,
    by decide⟩

end Tests
end Sys2Proof
end

