-- ==== Sys2Proof/Proofs/Scope.lean ====
section
/-! The helper functions of 00_scope.md R13, each brought to the form in which the rule defines it. -/

namespace Sys2Proof
namespace Machine

/-- Choosing the elements that satisfy `f` and counting them adds 1 for each. -/
theorem length_filter_eq_sum_toNat {α : Type} (f : α → Bool) (l : List α) :
    (l.filter f).length = (l.map fun a => (f a).toNat).sum := by
  induction l with
  | nil => rfl
  | cons a l ih => cases h : f a <;> simp [h, ih, Nat.add_comm]

theorem popcount8_eq_length_filter (b : Byte) :
    popcount8 b = ((List.range 8).filter fun i => b.getLsbD i).length := by
  rw [length_filter_eq_sum_toNat]
  simp only [popcount8, List.range_succ, List.range_zero, List.nil_append, List.map_append, List.map_cons,
    List.map_nil, List.sum_append_nat, List.sum_singleton]

theorem popcount_eq_sum (p : Bytes) : popcount p = (p.map popcount8).sum := by
  induction p with
  | nil => rfl
  | cons b p ih => rw [popcount_cons, ih, List.map_cons, List.sum_cons]

theorem dec8_eq_map_digitByte (n : Nat) : dec8 n = (List.range 8).map (digitByte n) := rfl

theorem dec8_getElem? (n : Nat) {k : Nat} (hk : k < 8) : (dec8 n)[k]? = some (digitByte n k) := by
  rw [dec8_eq_map_digitByte, List.getElem?_map, List.getElem?_range hk, Option.map_some]

/-- Settles O4: the count of a byte as a sum over its eight bits, the count of a string by induction, a token as
the eight digits in order. -/
theorem helperFunctions : Obligations.HelperFunctions := by
  refine ⟨popcount8_eq_length_filter, popcount_eq_sum, fun n _ => ⟨dec8_length n, fun k hk => ?_⟩, fun _ _ => rfl⟩
  rw [dec8_getElem? n (Nat.lt_succ_of_le hk), Option.map_some, digitByte_toNat]

end Machine
end Sys2Proof
end

