-- ==== Sys2Proof/Proofs/ResetValues.lean ====
section
/-! The registers right after reset: the values of 10_state.md R45, and the timer's abstract state of R30. -/

namespace Sys2Proof
namespace Machine

/-- R30: a timer that does not run is STOPPED, whatever its count. -/
theorem Sender.timerState_of_tmrRun_false {x : Sender} (h : x.tmrRun = false) : x.timerState = .stopped := if_pos h

@[simp] theorem Sender.reset_timerState : Sender.reset.timerState = .stopped :=
  Sender.timerState_of_tmrRun_false rfl

/-- The idle countdown starts at the machine's own bound (92_eei_decisions.md D28). -/
@[simp] theorem reset_rcv :
    State.reset.rcv = Receiver.resetWith State.reset.params.rxTimeoutTicks [] 0 0 [] := rfl

/-- Settles O50: the two blocks of registers are `Sender.reset` and `Receiver.resetWith`, whose fields are the
values R45 gives; the timer's state is read from its run bit. -/
theorem resetRegisters : Obligations.ResetRegisters := by
  unfold Obligations.ResetRegisters
  rw [reset_snd, reset_rcv]
  exact ⟨rfl, rfl, rfl, rfl, rfl, rfl, rfl, Sender.reset_timerState, rfl, rfl, rfl, rfl, rfl, rfl, rfl⟩

end Machine
end Sys2Proof
end

