-- ==== Sys2Proof/Proofs/Priorities.lean ====
section
/-! Which operation a turn runs: each row of the two select tables said with the registers, channels and inputs
its word stands for (30_encoding.md R101, R102), and from the rows the order of 60_exceptions.md R259. -/

namespace Sys2Proof
namespace Machine

/-! ## A turn runs what the select word picks -/

section Turns
variable {s : State} {rest : List Turn} {i : Instr}

theorem step_of_ssel_fires (hr : s.host.rst = false) (hs : s.script = .sender :: rest)
    (hi : decodeSsel s.ssel = .fire i) : step s = exec i { s with script := rest } := by
  have hsel : decodeSsel { s with script := rest }.ssel = .fire i := hi
  simp [step, takeTurn_cons hs, runTurn, senderTurn, hr, hsel, runSelection]

theorem step_of_rsel_fires (hr : s.host.rst = false) (hs : s.script = .receiver :: rest)
    (hi : decodeRsel s.rsel = .fire i) : step s = exec i { s with script := rest } := by
  have hsel : decodeRsel { s with script := rest }.rsel = .fire i := hi
  simp [step, takeTurn_cons hs, runTurn, receiverTurn, hr, hsel, runSelection]

end Turns

/-! ## The sender's rows (R101) -/

theorem senderOk_of_offered {s : State} {m : Datagram} (hm : s.chan.sRx = some m) :
    s.senderOk = packetOk m.bytes := by
  simp [State.senderOk, hm]

/-- R30: a RUNNING timer has its run bit set and has not expired. -/
theorem tmrRun_and_not_tmrExpired {x : Sender} (h : x.timerState = .running) :
    x.tmrRun = true ∧ x.tmrExpired = false := by
  simpa [Sender.tmrCounting] using (timerState_running x).mp h

section SenderRows
variable {s : State}

theorem ssel_fires_sCancel (hst : s.snd.state ≠ .done) (hc : s.host.sCancel = true) :
    decodeSsel s.ssel = .fire .sCancel := by
  rw [decodeSsel_ssel, hc]
  cases h : s.snd.state with
  | done => exact absurd h hst
  | send | waitAck | retransmit | advance => rfl

theorem ssel_fires_sSend (hst : s.snd.state = .send) (hc : s.host.sCancel = false) :
    decodeSsel s.ssel = .fire .sSend := by
  rw [decodeSsel_ssel, hst, hc]; rfl

theorem ssel_fires_sTimeout (hst : s.snd.state = .waitAck) (hc : s.host.sCancel = false)
    (ht : s.snd.timerState = .expired) : decodeSsel s.ssel = .fire .sTimeout := by
  rw [decodeSsel_ssel, hst, hc, (timerState_expired s.snd).mp ht]; rfl

/-- In `WAIT_ACK` with a RUNNING timer the bit `ok` of the datagram on offer decides. -/
theorem ssel_of_offered {m : Datagram} (hst : s.snd.state = .waitAck) (hc : s.host.sCancel = false)
    (ht : s.snd.timerState = .running) (hm : s.chan.sRx = some m) :
    decodeSsel s.ssel = if packetOk m.bytes then .fire .sAckOk else .fire .sAckBad := by
  obtain ⟨hrun, hexp⟩ := tmrRun_and_not_tmrExpired ht
  have havail : s.senderAvail = true := congrArg Option.isSome hm
  rw [decodeSsel_ssel, hst, hc, hrun, hexp, havail, senderOk_of_offered hm]; rfl

theorem ssel_fires_sRetransmit (hst : s.snd.state = .retransmit) (hc : s.host.sCancel = false) :
    decodeSsel s.ssel = .fire .sRetransmit := by
  rw [decodeSsel_ssel, hst, hc]; rfl

theorem ssel_fires_sAdvance (hst : s.snd.state = .advance) (hc : s.host.sCancel = false) :
    decodeSsel s.ssel = .fire .sAdvance := by
  rw [decodeSsel_ssel, hst, hc]; rfl

theorem ssel_fires_sDoneEof (hst : s.snd.state = .done) (hh : s.snd.halted = false) :
    decodeSsel s.ssel = .fire .sDoneEof := by
  rw [decodeSsel_ssel, hst, hh]; rfl

end SenderRows

/-! ## The receiver's rows (R102) -/

section ReceiverRows
variable {s : State}

theorem rsel_fires_rCancel (hst : s.rcv.state = .waitPacket) (hc : s.host.rCancel = true) :
    decodeRsel s.rsel = .fire .rCancel := by
  rw [decodeRsel_rsel, hst, hc]; rfl

theorem rsel_fires_rRecv (hst : s.rcv.state = .waitPacket) (hc : s.host.rCancel = false)
    (hm : s.chan.rRx ≠ none) : decodeRsel s.rsel = .fire .rRecv := by
  have havail : s.receiverAvail = true := Option.isSome_iff_ne_none.mpr hm
  rw [decodeRsel_rsel, hst, hc, havail]; rfl

theorem rsel_fires_rIdleTimeout (hst : s.rcv.state = .waitPacket) (hc : s.host.rCancel = false)
    (hm : s.chan.rRx = none) (hcnt : s.rcv.idleCnt = 0) : decodeRsel s.rsel = .fire .rIdleTimeout := by
  have havail : s.receiverAvail = false := congrArg Option.isSome hm
  have hidle : s.rcv.idleExpired = true := beq_iff_eq.mpr hcnt
  rw [decodeRsel_rsel, hst, hc, havail, hidle]; rfl

theorem rsel_fires_rDrop (hst : s.rcv.state = .process) (hok : s.rcv.bufOk = false) :
    decodeRsel s.rsel = .fire .rDrop := by
  rw [decodeRsel_rsel, hst, hok]; rfl

theorem rsel_fires_rExt (hst : s.rcv.state = .process) (hok : s.rcv.bufOk = true)
    (hx : s.rcv.extReceived = false) : decodeRsel s.rsel = .fire .rExt := by
  rw [decodeRsel_rsel, hst, hok, hx]; rfl

theorem rsel_fires_rAck (hst : s.rcv.state = .ack) : decodeRsel s.rsel = .fire .rAck := by
  rw [decodeRsel_rsel, hst]; rfl

/-! After the extension the rows of `PROCESS` look at the packet in `r_buf`. -/

variable {k : Packet} (hst : s.rcv.state = .process) (hk : s.rcv.packet = some k) (hx : s.rcv.extReceived = true)
include hst hk hx

theorem rsel_of_packet :
    decodeRsel s.rsel =
      if !(k.seqNum == s.rcv.expected) then .fire .rDup
      else if isEof k.payload then .fire .rEof else .fire .rData := by
  obtain ⟨hok, -, -⟩ := packet_some hk
  rw [decodeRsel_rsel, hst, hok, hx, bufMatch_of_packet hk, bufEof_of_packet hk]; rfl

theorem rsel_fires_rDup (hq : k.seqNum ≠ s.rcv.expected) : decodeRsel s.rsel = .fire .rDup := by
  simp [rsel_of_packet hst hk hx, hq]

theorem rsel_fires_rEof (hq : k.seqNum = s.rcv.expected) (he : k.payload = Config.eofMarker) :
    decodeRsel s.rsel = .fire .rEof := by
  simp [rsel_of_packet hst hk hx, hq, isEof, he]

theorem rsel_fires_rData (hq : k.seqNum = s.rcv.expected) (he : k.payload ≠ Config.eofMarker) :
    decodeRsel s.rsel = .fire .rData := by
  simp [rsel_of_packet hst hk hx, hq, isEof, he]

end ReceiverRows

/-! ## The two orders (R259) -/

/-- Settles O28: in each clause the sender's word fits the row of the operation that the clause names. -/
theorem senderPriorities : Obligations.SenderPriorities := by
  intro s rest hr hs
  have turn {i : Instr} : decodeSsel s.ssel = .fire i → step s = exec i { s with script := rest } :=
    step_of_ssel_fires hr hs
  refine ⟨fun hst hc => turn (ssel_fires_sCancel hst hc), fun hst hc ht => turn (ssel_fires_sTimeout hst hc ht),
    fun m hst hc ht hm => ?_, fun hst hc => turn (ssel_fires_sSend hst hc),
    fun hst hc => turn (ssel_fires_sRetransmit hst hc), fun hst hc => turn (ssel_fires_sAdvance hst hc),
    fun hst hh => turn (ssel_fires_sDoneEof hst hh)⟩
  have hsel := ssel_of_offered hst hc ht hm
  split_ifs with hok
  · exact turn (hsel.trans (if_pos hok))
  · exact turn (hsel.trans (if_neg hok))

/-- Settles O41: the same for the receiver; in `PROCESS` the branches of the clause are the rows for a valid
packet, in the order of the table. -/
theorem receiverPriorities : Obligations.ReceiverPriorities := by
  intro s rest hr hs
  have turn {i : Instr} : decodeRsel s.rsel = .fire i → step s = exec i { s with script := rest } :=
    step_of_rsel_fires hr hs
  refine ⟨fun hst hc => turn (rsel_fires_rCancel hst hc), fun hst hc hm => turn (rsel_fires_rRecv hst hc hm),
    fun hst hc hm hcnt => turn (rsel_fires_rIdleTimeout hst hc hm hcnt), fun hst hok => turn (rsel_fires_rDrop hst hok),
    fun k hst hok hd => ?_, fun hst => turn (rsel_fires_rAck hst)⟩
  have hk : s.rcv.packet = some k := (packet_of_ok hok).trans hd
  split_ifs with hx hq he
  · exact turn (rsel_fires_rExt hst hok hx)
  · exact turn (rsel_fires_rDup hst hk (Bool.eq_true_of_not_eq_false hx) hq)
  · exact turn (rsel_fires_rEof hst hk (Bool.eq_true_of_not_eq_false hx) (not_not.mp hq) he)
  · exact turn (rsel_fires_rData hst hk (Bool.eq_true_of_not_eq_false hx) (not_not.mp hq) he)

end Machine
end Sys2Proof
end

