-- ==== Sys2Proof/Proofs/Runs.lean ====
section
/-! Runs of several steps: a run by its first step, and the run of a stretch of equal turns, its one induction
said for any turn. -/

namespace Sys2Proof
namespace Machine

theorem run_zero (s : State) : run 0 s = .next s := rfl

theorem coreRun_succ_of_step {M : Host.Core} {s t : M.State} (h : M.step s = .next t) (k : Nat) :
    M.run (k + 1) s = M.run k t := by
  simp only [Host.Core.run, h]

theorem run_succ_of_step {s t : State} (h : step s = .next t) (k : Nat) : run (k + 1) s = run k t :=
  coreRun_succ_of_step (M := Sys2Proof.core) h k

/-- If each turn of one kind leads from `x i` to `x (i + 1)`, then `n` of them in a row lead from `x 0` to `x n`,
whatever stands in the script behind them and however the run goes on. -/
theorem run_replicate_turn {turn : Turn} {x : Nat → State}
    (hx : ∀ i script, step { x i with script := turn :: script } = .next { x (i + 1) with script := script })
    (n k : Nat) (rest : List Turn) :
    run (n + k) { x 0 with script := List.replicate n turn ++ rest } = run k { x n with script := rest } := by
  induction n generalizing x with
  | zero => rw [Nat.zero_add]; rfl
  | succ n ih =>
    calc run (n + 1 + k) { x 0 with script := List.replicate (n + 1) turn ++ rest }
      _ = run (n + k) { x 1 with script := List.replicate n turn ++ rest } := by
        rw [Nat.add_right_comm]; exact run_succ_of_step (hx 0 _) _
      _ = run k { x (n + 1) with script := rest } := ih (x := fun i => x (i + 1)) fun i => hx (i + 1)

end Machine
end Sys2Proof
end

