-- ==== Sys2Proof/Proofs/Timers.lean ====
section
/-! The two countdowns of 43_timer_countdown.md: the retransmission timer (R160 to R165) with its commands, its tick
and its queries, and the receiver's idle countdown (R169), which the abort of R212 ends. -/

namespace Sys2Proof
namespace Machine

/-! ## Holding -/

theorem fireAgent_of_false {c : Bool} (s : State) (e : Result) (hc : c = false) : fireAgent c s e = .next s := by
  simp [fireAgent, fire, hc]

/-! ## The timer's states, said with its two registers (R30) -/

theorem timerState_running_iff_count (x : Sender) : x.timerState = .running ↔ x.tmrRun = true ∧ x.tmrCnt ≠ 0 := by
  rw [timerState_running]
  cases h : x.tmrRun <;> simp [Sender.tmrCounting, Sender.tmrExpired, h]

theorem timerState_expired_iff_count (x : Sender) : x.timerState = .expired ↔ x.tmrRun = true ∧ x.tmrCnt = 0 := by
  simp [timerState_expired, Sender.tmrExpired]

theorem tmrExpired_eq_decide (x : Sender) : x.tmrExpired = decide (x.tmrRun = true ∧ x.tmrCnt = 0) := by
  rw [Bool.eq_iff_iff]
  simp [Sender.tmrExpired]

theorem tmrExpired_of_stopped {x : Sender} (h : x.timerState = .stopped) : x.tmrExpired = false := by
  simp [Sender.tmrExpired, (timerState_stopped x).mp h]

theorem tmrRun_of_running_or_expired {x : Sender} (h : x.timerState = .running ∨ x.timerState = .expired) :
    x.tmrRun = true :=
  h.elim (fun h => ((timerState_running_iff_count x).mp h).1) fun h => ((timerState_expired_iff_count x).mp h).1

/-! ## Start and stop (R161, R162) -/

theorem exec_tmrStart {s : State} (hr : s.host.rst = false) : exec .tmrStart s = .next s.startTimer :=
  fireAgent_of _ hr rfl

theorem exec_tmrStop {s : State} (hr : s.host.rst = false) : exec .tmrStop s = .next s.stopTimer :=
  fireAgent_of _ hr rfl

/-- R6: the constraints on the parameters give the timer an interval of at least one tick. -/
theorem txTimeoutTicks_ne_zero {p : Config.Params} (h : p.wf = true) : p.txTimeoutTicks ≠ 0 := by
  simp only [Config.Params.wf, Bool.and_eq_true, decide_eq_true_eq] at h
  omega

theorem startTimer_running {s : State} (hp : s.params.wf = true) : s.startTimer.snd.timerState = .running :=
  (timerState_running_iff_count _).mpr ⟨rfl, txTimeoutTicks_ne_zero hp⟩

theorem stopTimer_stopped (s : State) : s.stopTimer.snd.timerState = .stopped :=
  Sender.timerState_of_tmrRun_false rfl

/-- Settles O14: both commands fire whatever the timer's state; a full interval is above 0. -/
theorem timerStartAndStop : Obligations.TimerStartAndStop := by
  intro s hr
  refine ⟨exec_tmrStart hr, exec_tmrStop hr, fun hp t ht => ?_, fun t ht => ?_⟩
  · cases (exec_tmrStart hr).symm.trans ht
    exact startTimer_running hp
  · cases (exec_tmrStop hr).symm.trans ht
    exact stopTimer_stopped s

/-! ## The timer's tick (R163) -/

/-- The state with `n` ticks taken from the timer's count, which stops at 0. -/
def State.elapseTimer (s : State) (n : Nat) : State :=
  { s with snd := { s.snd with tmrCnt := s.snd.tmrCnt - n } }

section TimerTick
variable {s : State}

theorem exec_tmrTick_of_running (hr : s.host.rst = false) (h : s.snd.timerState = .running) :
    exec .tmrTick s = .next (s.elapseTimer 1) := by
  obtain ⟨hrun, hcnt⟩ := (timerState_running_iff_count s.snd).mp h
  exact fireAgent_of _ hr (by simp [hrun, hcnt])

theorem exec_tmrTick_of_not_running (h : s.snd.timerState ≠ .running) : exec .tmrTick s = .next s := by
  rw [Ne, timerState_running_iff_count] at h
  exact fireAgent_of_false s _ (by simpa using h)

theorem elapseTimer_of_zero (hcnt : s.snd.tmrCnt = 0) (n : Nat) : s.elapseTimer n = s := by
  have hsame : s.snd.tmrCnt - n = s.snd.tmrCnt := by omega
  simp [State.elapseTimer, hsame]

/-- R163: in EXPIRED the count is 0 already, so a tick of a timer that was started always takes one from the count as
far as it goes. -/
theorem exec_tmrTick_of_started (hr : s.host.rst = false) (hrun : s.snd.tmrRun = true) :
    exec .tmrTick s = .next (s.elapseTimer 1) := by
  by_cases hcnt : s.snd.tmrCnt = 0
  · have hexp : s.snd.timerState = .expired := (timerState_expired_iff_count s.snd).mpr ⟨hrun, hcnt⟩
    rw [exec_tmrTick_of_not_running (by simp [hexp]), elapseTimer_of_zero hcnt]
  · exact exec_tmrTick_of_running hr ((timerState_running_iff_count s.snd).mpr ⟨hrun, hcnt⟩)

theorem elapseTimer_expired_iff (hrun : s.snd.tmrRun = true) (n : Nat) :
    (s.elapseTimer n).snd.timerState = .expired ↔ s.snd.tmrCnt ≤ n := by
  rw [timerState_expired_iff_count, ← Nat.sub_eq_zero_iff_le]
  exact and_iff_right hrun

theorem elapseTimer_running_iff (hrun : s.snd.tmrRun = true) (n : Nat) :
    (s.elapseTimer n).snd.timerState = .running ↔ n < s.snd.tmrCnt := by
  rw [timerState_running_iff_count, ← Nat.sub_ne_zero_iff_lt]
  exact and_iff_right hrun

theorem step_senderTick (s : State) (rest : List Turn) :
    step { s with script := .senderTick :: rest } = exec .tmrTick { s with script := rest } :=
  rfl

/-- R163 along a run: `n` sender ticks in a row take `n` from the count of a started timer. -/
theorem run_senderTicks (hr : s.host.rst = false) (hrun : s.snd.tmrRun = true) (n k : Nat) {rest : List Turn}
    (hs : s.script = List.replicate n .senderTick ++ rest) :
    run (n + k) s = run k { s.elapseTimer n with script := rest } := by
  have hticks := run_replicate_turn (x := s.elapseTimer)
    (fun i script => (step_senderTick _ script).trans (exec_tmrTick_of_started hr hrun)) n k rest
  rw [← hs] at hticks
  exact hticks

end TimerTick

/-- Settles O15: a tick by the state of the timer before it; a RUNNING timer's count is above 0, and what is left of
it tells the state after. -/
theorem timerTickCountsARunningTimer : Obligations.TimerTickCountsARunningTimer := by
  intro s hr
  refine ⟨fun h => ?_, exec_tmrTick_of_not_running⟩
  obtain ⟨hrun, hcnt⟩ := (timerState_running_iff_count s.snd).mp h
  have htick := exec_tmrTick_of_running hr h
  refine ⟨htick, by omega, fun t ht => ?_⟩
  cases htick.symm.trans ht
  exact ⟨fun h1 => (elapseTimer_expired_iff hrun 1).mpr (by omega),
    fun h1 => (elapseTimer_running_iff hrun 1).mpr (by omega)⟩

/-- Settles O17: the run of `n` ticks, and what is left of a full interval after them. -/
theorem timerExpiresAfterExactlyItsTicks : Obligations.TimerExpiresAfterExactlyItsTicks := by
  intro s n rest hr hrun hs
  have hticks : run n s = .next { s.elapseTimer n with script := rest } :=
    (run_senderTicks hr hrun n 0 hs).trans (run_zero _)
  refine ⟨hticks, fun hfull t ht => ?_⟩
  cases hticks.symm.trans ht
  rw [← hfull]
  exact elapseTimer_expired_iff hrun n

/-! ## The timer's queries (R164, R165) -/

theorem exec_tmrHasExpired (s : State) : exec .tmrHasExpired s = .next (s.answer (.bit s.snd.tmrExpired)) := rfl

theorem exec_tmrIsRunning (s : State) : exec .tmrIsRunning s = .next (s.answer (.bit s.snd.tmrRun)) := rfl

theorem exec_tmrHasExpired_of {s : State} {b : Bool} (h : s.snd.tmrExpired = b) :
    exec .tmrHasExpired s = .next { s with unitOut := .bit b } := by
  rw [exec_tmrHasExpired, h]; rfl

/-- Settles O16: each answer is a bit of the select word, and each clause its value in the timer states named. -/
theorem timerQueriesAnswer : Obligations.TimerQueriesAnswer := by
  intro s
  refine ⟨exec_tmrHasExpired_of (tmrExpired_eq_decide s.snd), fun h => exec_tmrHasExpired_of (tmrExpired_of_stopped h),
    fun hr hp t ht => ?_, exec_tmrIsRunning s, fun h => ?_⟩
  · cases (exec_tmrStart hr).symm.trans ht
    exact exec_tmrHasExpired_of (tmrRun_and_not_tmrExpired (startTimer_running hp)).2
  · rw [exec_tmrIsRunning, tmrRun_of_running_or_expired h]; rfl

/-! ## The idle countdown (R169) -/

/-- The state with `n` ticks taken from the receiver's idle countdown, which stops at 0. -/
def State.elapseIdle (s : State) (n : Nat) : State :=
  { s with rcv := { s.rcv with idleCnt := s.rcv.idleCnt - n } }

section IdleTick
variable {s : State}

theorem exec_riTick_of_count (hr : s.host.rst = false) (hst : s.rcv.state = .waitPacket) (hcnt : s.rcv.idleCnt ≠ 0) :
    exec .riTick s = .next (s.elapseIdle 1) :=
  fireAgent_of _ hr (by simp [hst, hcnt])

theorem exec_riTick_of_no_count (h : s.rcv.state ≠ .waitPacket ∨ s.rcv.idleCnt = 0) : exec .riTick s = .next s :=
  fireAgent_of_false s _ (by rcases h with h | h <;> simp [h])

theorem elapseIdle_of_zero (hcnt : s.rcv.idleCnt = 0) (n : Nat) : s.elapseIdle n = s := by
  have hsame : s.rcv.idleCnt - n = s.rcv.idleCnt := by omega
  simp [State.elapseIdle, hsame]

/-- R169: at 0 nothing is left to take, so in `WAIT_PACKET` a tick always takes one from the countdown as far as it
goes. -/
theorem exec_riTick_of_waiting (hr : s.host.rst = false) (hst : s.rcv.state = .waitPacket) :
    exec .riTick s = .next (s.elapseIdle 1) := by
  by_cases hcnt : s.rcv.idleCnt = 0
  · rw [exec_riTick_of_no_count (.inr hcnt), elapseIdle_of_zero hcnt]
  · exact exec_riTick_of_count hr hst hcnt

theorem step_receiverTick (s : State) (rest : List Turn) :
    step { s with script := .receiverTick :: rest } = exec .riTick { s with script := rest } :=
  rfl

/-- R169 along a run: `n` receiver ticks in a row take `n` from the countdown of a receiver that waits. -/
theorem run_receiverTicks (hr : s.host.rst = false) (hst : s.rcv.state = .waitPacket) (n k : Nat) {rest : List Turn}
    (hs : s.script = List.replicate n .receiverTick ++ rest) :
    run (n + k) s = run k { s.elapseIdle n with script := rest } := by
  have hticks := run_replicate_turn (x := s.elapseIdle)
    (fun i script => (step_receiverTick _ script).trans (exec_riTick_of_waiting hr hst)) n k rest
  rw [← hs] at hticks
  exact hticks

end IdleTick

/-- Settles O18: a tick fires exactly in `WAIT_PACKET` above 0. -/
theorem idleTickCountsOnlyWhileWaiting : Obligations.IdleTickCountsOnlyWhileWaiting := by
  intro s hr
  exact ⟨fun hst hcnt => ⟨exec_riTick_of_count hr hst hcnt, by omega⟩, exec_riTick_of_no_count⟩

/-! ## The receiver's turn when nothing is offered (R212, R222) -/

section NothingOffered
variable {s : State} {rest : List Turn}

theorem exec_rIdleTimeout (hr : s.host.rst = false) (hst : s.rcv.state = .waitPacket) (hc : s.host.rCancel = false)
    (hm : s.chan.rRx = none) (hcnt : s.rcv.idleCnt = 0) :
    exec .rIdleTimeout s = .next (((s.reportR .channelLoss).emitSink .close).gotoR .timeoutAbort) :=
  fireAgent_of _ hr (by simp [hst, hc, State.receiverAvail, hm, Receiver.idleExpired, hcnt])

theorem rsel_holds_of_none_offered (hst : s.rcv.state = .waitPacket) (hc : s.host.rCancel = false)
    (hm : s.chan.rRx = none) (hcnt : s.rcv.idleCnt ≠ 0) : decodeRsel s.rsel = .hold := by
  have havail : s.receiverAvail = false := congrArg Option.isSome hm
  have hidle : s.rcv.idleExpired = false := beq_eq_false_iff_ne.mpr hcnt
  rw [decodeRsel_rsel, hst, hc, havail, hidle]; rfl

theorem step_of_rsel_holds (hr : s.host.rst = false) (hs : s.script = .receiver :: rest)
    (hi : decodeRsel s.rsel = .hold) : step s = .next { s with script := rest } := by
  have hsel : decodeRsel { s with script := rest }.rsel = .hold := hi
  simp [step, takeTurn_cons hs, runTurn, receiverTurn, hr, hsel, runSelection]

variable (hr : s.host.rst = false) (hst : s.rcv.state = .waitPacket) (hc : s.host.rCancel = false)
  (hm : s.chan.rRx = none)
include hr hst hc hm

theorem step_receiver_gives_up (hcnt : s.rcv.idleCnt = 0) :
    step { s with script := .receiver :: rest } =
      .next ((({ s with script := rest }.reportR .channelLoss).emitSink .close).gotoR .timeoutAbort) :=
  (step_of_rsel_fires (s := { s with script := .receiver :: rest }) hr rfl
    (rsel_fires_rIdleTimeout hst hc hm hcnt)).trans (exec_rIdleTimeout hr hst hc hm hcnt)

theorem step_receiver_waits (hcnt : s.rcv.idleCnt ≠ 0) :
    step { s with script := .receiver :: rest } = .next { s with script := rest } :=
  step_of_rsel_holds (s := { s with script := .receiver :: rest }) hr rfl (rsel_holds_of_none_offered hst hc hm hcnt)

end NothingOffered

/-- Settles O19: after the ticks the receiver still waits with nothing offered, and what is left of its countdown
tells whether its turn aborts or holds. -/
theorem receiverGivesUpAfterItsBound : Obligations.ReceiverGivesUpAfterItsBound := by
  intro s n rest hr hst hc hm hs
  have hticks := run_receiverTicks hr hst n 1 hs
  refine ⟨fun hle => ?_, fun hlt => ?_⟩
  · have hzero : s.rcv.idleCnt - n = 0 := Nat.sub_eq_zero_of_le hle
    rw [hticks, run_succ_of_step (step_receiver_gives_up (s := s.elapseIdle n) hr hst hc hm hzero),
      State.elapseIdle, hzero]
    rfl
  · have hleft : s.rcv.idleCnt - n ≠ 0 := Nat.sub_ne_zero_of_lt hlt
    rw [hticks, run_succ_of_step (step_receiver_waits (s := s.elapseIdle n) hr hst hc hm hleft)]
    rfl

end Machine
end Sys2Proof
end

