-- ==== Sys2Proof/Proofs/SenderFsm.lean ====
section
/-! The sender state machine of 44_sender_fsm.md: what each of its eight operations does where its rule enables it
(R181 to R188), when a turn of the sender changes nothing (R189, R190), and the two rounds of a retransmission. -/

namespace Sys2Proof
namespace Machine

/-! ## The operations, each where its rule enables it -/

/-- The state after `S_SEND` of the unit `p` (R181). -/
def State.sendUnit (s : State) (p : Bytes) : State :=
  (((s.emitSTx (makePacket s.snd.seqNum p) s.host.sDest).countTx).markSent.startTimer).gotoS .waitAck

section Operations
variable {s : State} (hr : s.host.rst = false)

theorem unitLeft_iff : s.unitLeft = true ↔ s.snd.idx < s.host.nUnits := decide_eq_true_iff

/-- R189 (b): with no unit left `S_SEND` is not enabled. -/
theorem exec_sSend_of_no_unit_left (h : s.host.nUnits ≤ s.snd.idx) : exec .sSend s = .next s := by
  have hleft : s.unitLeft = false := decide_eq_false (BitVec.not_lt.mpr h)
  exact fireAgent_of_false s _ (by simp [hleft])

/-- R183, R252, R254: the cause tells whether `DECODE` fails. -/
theorem badPacketCause_eq_ite (w : Bytes) :
    badPacketCause w = if decodePacket w = none then .malformedPacket else .corruptPacket := by
  cases h : decodePacket w <;> simp [badPacketCause, h]

include hr

theorem exec_sSend {p : Bytes} (hst : s.snd.state = .send) (hc : s.host.sCancel = false)
    (hi : s.snd.idx < s.host.nUnits) (hp : memRead s.host.units s.snd.idx = some p) (hlen : p.length ≤ Config.mss) :
    exec .sSend s = .next (s.sendUnit p) := by
  have hok : payloadOk p = true := (payloadOk_iff p).mpr hlen
  simp only [exec, execSSend, hp, if_pos hok]
  exact fireAgent_of _ hr (by simp [hst, hc, unitLeft_iff.mpr hi])

theorem exec_sTimeout (hst : s.snd.state = .waitAck) (hc : s.host.sCancel = false)
    (ht : s.snd.timerState = .expired) :
    exec .sTimeout s = .next ((s.reportS .channelLoss).gotoS .retransmit) :=
  fireAgent_of _ hr (by simp [hst, hc, (timerState_expired s.snd).mp ht])

theorem exec_sAckOk {m : Datagram} (hst : s.snd.state = .waitAck) (hc : s.host.sCancel = false)
    (ht : s.snd.timerState = .running) (hm : s.chan.sRx = some m) (hok : packetOk m.bytes = true) :
    exec .sAckOk s = .next ((s.takeSRx.stopTimer.toggleSeq.countTx).gotoS .advance) :=
  fireAgent_of _ hr (by simp [hst, hc, (timerState_running s.snd).mp ht, senderOk_of_offered hm, hok])

theorem exec_sAckBad {m : Datagram} (hst : s.snd.state = .waitAck) (hc : s.host.sCancel = false)
    (ht : s.snd.timerState = .running) (hm : s.chan.sRx = some m) (hok : packetOk m.bytes = false) :
    exec .sAckBad s = .next (s.takeSRx.reportS (badPacketCause m.bytes)) := by
  simp only [exec, execSAckBad, hm]
  exact fireAgent_of _ hr (by simp [hst, hc, (timerState_running s.snd).mp ht, hok])

theorem exec_sRetransmit (hst : s.snd.state = .retransmit) (hc : s.host.sCancel = false) :
    exec .sRetransmit s = .next (s.countTx.countRetx.gotoS .send) :=
  fireAgent_of _ hr (by simp [hst, hc])

theorem exec_sAdvance (hst : s.snd.state = .advance) (hc : s.host.sCancel = false) :
    exec .sAdvance s = .next (s.nextUnit.gotoS (if s.snd.idx + 1 = s.host.nUnits then .done else .send)) :=
  fireAgent_of _ hr (by simp [hst, hc])

theorem exec_sDoneEof (hst : s.snd.state = .done) (hh : s.snd.halted = false) :
    exec .sDoneEof s = .next ((s.emitSTx (eofPacket s.snd.seqNum) s.host.sDest).halt) :=
  fireAgent_of _ hr (by simp [hst, hh])

theorem exec_sCancel (hst : s.snd.state ≠ .done) (hc : s.host.sCancel = true) :
    exec .sCancel s = .next ((s.stopTimer.reportS .userCancellation).gotoS .done) :=
  fireAgent_of _ hr (by simp [hst, hc])

end Operations

/-! ## A turn that changes nothing (R189, R190) -/

section Idle
variable {s : State}

/-- R189 (a), (c): a hold row is picked in `WAIT_ACK` only. -/
theorem senderChoice_hold_iff {st : SenderState} {h c r e a o : Bool} (ha : o = true → a = true)
    (he : e = true → r = true) :
    senderChoice st h c r e a o = .hold ↔ c = false ∧ st = .waitAck ∧ ((r && !e) && !a || !r) = true := by
  cases st <;> revert h c r e a o <;> decide

theorem senderChoice_sSend_iff {st : SenderState} {h c r e a o : Bool} :
    senderChoice st h c r e a o = .fire .sSend ↔ c = false ∧ st = .send := by
  cases st <;> revert h c r e a o <;> decide

theorem senderChoice_terminal_iff {st : SenderState} {h c r e a o : Bool} :
    senderChoice st h c r e a o = .terminal ↔ st = .done ∧ h = true := by
  cases st <;> revert h c r e a o <;> decide

theorem senderChoice_ne_noRow {st : SenderState} {h c r e a o : Bool} : senderChoice st h c r e a o ≠ .noRow := by
  cases st <;> revert h c r e a o <;> decide

/-- R101: the sender's word picks an operation, a hold or the terminal row; no word of a state is without a row. -/
theorem ssel_cases (s : State) :
    decodeSsel s.ssel = .hold ∨ decodeSsel s.ssel = .terminal ∨
      ∃ i ∈ senderOperations, decodeSsel s.ssel = .fire i := by
  rw [decodeSsel_ssel]
  cases h : senderChoice s.snd.state s.snd.halted s.host.sCancel s.snd.tmrRun s.snd.tmrExpired s.senderAvail
    s.senderOk with
  | hold => exact .inl rfl
  | terminal => exact .inr (.inl rfl)
  | fire i => exact .inr (.inr ⟨i, senderChoice_fire h, rfl⟩)
  | noRow => exact absurd h senderChoice_ne_noRow

/-- R190: the sender is terminal exactly where its word picks the terminal row. -/
theorem senderTerminal_iff (s : State) : s.senderTerminal = true ↔ decodeSsel s.ssel = .terminal := by
  rw [decodeSsel_ssel, senderChoice_terminal_iff]
  simp [State.senderTerminal]

theorem timerState_beq_running (x : Sender) : (x.timerState == .running) = (x.tmrRun && !x.tmrExpired) := by
  rw [Bool.eq_iff_iff, beq_iff_eq]
  exact timerState_running x

/-- R189: the sender holds where its word picks a hold row, or `S_SEND` with no unit left. -/
theorem senderHolds_iff (s : State) :
    s.senderHolds = true ↔
      decodeSsel s.ssel = .hold ∨ decodeSsel s.ssel = .fire .sSend ∧ s.host.nUnits ≤ s.snd.idx := by
  rw [decodeSsel_ssel, senderChoice_hold_iff (senderOk_avail s) (tmrExpired_run s.snd), senderChoice_sSend_iff]
  simp only [State.senderHolds, timerState_beq_running, Bool.and_eq_true, Bool.or_eq_true, Bool.not_eq_true',
    beq_iff_eq, decide_eq_true_eq]
  tauto

theorem step_of_ssel_idles {rest : List Turn} (hr : s.host.rst = false) (hs : s.script = .sender :: rest)
    (hi : decodeSsel s.ssel = .hold ∨ decodeSsel s.ssel = .terminal) : step s = .next { s with script := rest } := by
  have hturn : step s = runSelection (decodeSsel s.ssel) { s with script := rest } := by
    simp only [step, takeTurn_cons hs, runTurn, senderTurn, hr]
    rfl
  rcases hi with hi | hi <;> rw [hturn, hi] <;> rfl

end Idle

/-- Settles O29: the sender's word picks a hold row, the terminal row or an operation; of the operations only `S_SEND`
can be picked without being enabled, where no unit is left. -/
theorem senderHoldsInExactlyThreeCases : Obligations.SenderHoldsInExactlyThreeCases := by
  intro s rest hr hs
  refine ⟨?_, fun h => ?_⟩
  · rw [← Bool.not_eq_true, senderHolds_iff, senderTerminal_iff]
    rcases ssel_cases s with h | h | ⟨i, hi, h⟩
    · simp [h]
    · simp [h]
    · have honly : (∀ j ∈ senderOperations, decodeSsel s.ssel = .fire j → j = .sSend ∧ s.host.nUnits ≤ s.snd.idx) ↔
          i = .sSend ∧ s.host.nUnits ≤ s.snd.idx :=
        ⟨fun hall => hall i hi h, fun hsend j _ hj => by cases h.symm.trans hj; exact hsend⟩
      rw [honly]
      simp [h]
  · rw [senderHolds_iff, senderTerminal_iff] at h
    rcases h with (h | ⟨hsend, hnone⟩) | h
    · exact step_of_ssel_idles hr hs (.inl h)
    · exact (step_of_ssel_fires hr hs hsend).trans (exec_sSend_of_no_unit_left hnone)
    · exact step_of_ssel_idles hr hs (.inr h)

/-! ## The operations' whole effects -/

/-- R128: the final packet, byte by byte; the marker `5C 45 4F 46` has 15 bits that are 1. -/
theorem eofPacket_eq (q : SeqNum) : eofPacket q =
    (0x30 + q.zeroExtend 8) :: (dec8 (15 + q.toNat) ++ [0x5C, 0x45, 0x4F, 0x46]) := by
  have hcount : popcount Config.eofMarker = 15 := by decide
  rw [eofPacket, makePacket, checksum, checksumValue, hcount]
  rfl

/-- Settles O20: `makePacket` is the packet of R126, its bytes written out in the statement. -/
theorem sendEmitsTheUnitAndStartsTheTimer : Obligations.SendEmitsTheUnitAndStartsTheTimer :=
  fun _ _ hr hst hc hi hp hlen => exec_sSend hr hst hc hi hp hlen

/-- Settles O21: `PKT_OK` is all that the condition of `S_ACK_OK` asks of the datagram (R182, D16). -/
theorem anyValidPacketIsTheAcknowledgment : Obligations.AnyValidPacketIsTheAcknowledgment :=
  fun _ _ hr hst hc ht hm hok => exec_sAckOk hr hst hc ht hm hok

/-- Settles O22: the cause by the result of `DECODE`. -/
theorem invalidAcknowledgmentIsDropped : Obligations.InvalidAcknowledgmentIsDropped := by
  intro s m hr hst hc ht hm hok
  rw [exec_sAckBad hr hst hc ht hm hok, badPacketCause_eq_ite]
  rfl

/-- Settles O23: the condition of `S_TIMEOUT` does not look at `S_RX`, and no timer register is written. -/
theorem expiryMovesToRetransmit : Obligations.ExpiryMovesToRetransmit :=
  fun _ hr hst hc ht => exec_sTimeout hr hst hc ht

/-- Settles O24: the sum of two words is the sum modulo `2^32`. -/
theorem retransmitCountsAndSendsAgain : Obligations.RetransmitCountsAndSendsAgain :=
  fun s hr hst hc => ⟨exec_sRetransmit hr hst hc, BitVec.toNat_add s.snd.txCount 1, BitVec.toNat_add s.snd.retxCount 1⟩

/-- Settles O25: the two outcomes of the comparison. -/
theorem advanceMovesToTheNextUnitOrDone : Obligations.AdvanceMovesToTheNextUnitOrDone := by
  intro s hr hst hc
  have hadv := exec_sAdvance hr hst hc
  refine ⟨BitVec.toNat_add s.snd.idx 1, fun heq => ?_, fun hne => ?_⟩
  · rw [hadv, if_pos heq]; rfl
  · rw [hadv, if_neg hne]; rfl

/-- Settles O26: `S_DONE_EOF` leaves the sender terminal, and a terminal sender's turn changes nothing. -/
theorem finalEofIsSentOnce : Obligations.FinalEofIsSentOnce := by
  intro s hr hst hh
  have heof := exec_sDoneEof hr hst hh
  refine ⟨by rw [heof, eofPacket_eq]; rfl, fun t rest ht => ?_⟩
  cases heof.symm.trans ht
  have hterm : ((s.emitSTx (eofPacket s.snd.seqNum) s.host.sDest).halt).senderTerminal = true := by
    simp [State.senderTerminal, hst]
  exact step_of_ssel_idles (s := { (s.emitSTx (eofPacket s.snd.seqNum) s.host.sDest).halt with script := .sender :: rest })
    hr rfl (.inr ((senderTerminal_iff _).mp hterm))

/-- Settles O27: the one condition on the state is that it is not `DONE`. -/
theorem senderCancelStopsTheTimer : Obligations.SenderCancelStopsTheTimer :=
  fun _ hr hst hc => exec_sCancel hr hst hc

/-! ## A unit sent twice (R122, R185) -/

/-- The state after the timer ran out and `S_TIMEOUT` and `S_RETRANSMIT` fired (R184, R185). -/
def State.retransmitUnit (s : State) : State :=
  (((({ s with snd := { s.snd with tmrCnt := 0 } }.reportS .channelLoss).gotoS .retransmit).countTx).countRetx).gotoS .send

/-- Settles O30: neither `S_TIMEOUT` nor `S_RETRANSMIT` writes what `S_SEND` makes its packet from. -/
theorem retransmissionIsByteIdentical : Obligations.RetransmissionIsByteIdentical := by
  intro s p hr hst hc hi hp hlen
  have hexpired : { (s.sendUnit p).snd with tmrCnt := 0 }.timerState = .expired := rfl
  have hcount : s.snd.txCount + 1 + 1 + 1 = s.snd.txCount + 3 := by rw [BitVec.add_assoc, BitVec.add_assoc]; rfl
  have hsend := exec_sSend hr hst hc hi hp hlen
  have htimeout := exec_sTimeout (s := { s.sendUnit p with snd := { (s.sendUnit p).snd with tmrCnt := 0 } })
    hr rfl hc hexpired
  have hagain := exec_sSend (s := (s.sendUnit p).retransmitUnit) hr rfl hc hi hp hlen
  exact ⟨_, _, _, _, { bytes := makePacket s.snd.seqNum p, addr := s.host.sDest }, hsend, htimeout,
    exec_sRetransmit hr rfl hc, hagain, rfl, List.append_assoc _ _ _, rfl, rfl, rfl, hcount⟩

end Machine
end Sys2Proof
end

