-- ==== Sys2Proof/Proofs/ReceiverFsm.lean ====
section
/-! The receiver state machine of 45_receiver_fsm.md: what each of its nine operations does where its rule enables it
(R211 to R220; for `R_IDLE_TIMEOUT` that is `exec_rIdleTimeout`), and when a turn of the receiver changes nothing
(R221, R222). -/

namespace Sys2Proof
namespace Machine

/-! ## A turn that changes nothing (R221, R222) -/

section Idle
variable {s : State}

/-- R222: the hold row is picked in `WAIT_PACKET` only. -/
theorem receiverChoice_hold_iff {st : ReceiverState} {c a i o x m e : Bool} :
    receiverChoice st c a i o x m e = .hold ↔ st = .waitPacket ∧ c = false ∧ a = false ∧ i = false := by
  cases st <;> revert c a i o x m e <;> decide

theorem receiverChoice_terminal_iff {st : ReceiverState} {c a i o x m e : Bool} :
    receiverChoice st c a i o x m e = .terminal ↔ st = .done ∨ st = .timeoutAbort := by
  cases st <;> revert c a i o x m e <;> decide

theorem receiverChoice_ne_noRow {st : ReceiverState} {c a i o x m e : Bool} :
    receiverChoice st c a i o x m e ≠ .noRow := by
  cases st <;> revert c a i o x m e <;> decide

/-- R102: the receiver's word picks an operation, the hold or a terminal row; no word of a state is without a row. -/
theorem rsel_cases (s : State) :
    decodeRsel s.rsel = .hold ∨ decodeRsel s.rsel = .terminal ∨
      ∃ i ∈ receiverOperations, decodeRsel s.rsel = .fire i := by
  rw [decodeRsel_rsel]
  cases h : receiverChoice s.rcv.state s.host.rCancel s.receiverAvail s.rcv.idleExpired s.rcv.bufOk
    s.rcv.extReceived s.rcv.bufMatch s.rcv.bufEof with
  | hold => exact .inl rfl
  | terminal => exact .inr (.inl rfl)
  | fire i => exact .inr (.inr ⟨i, receiverChoice_fire h, rfl⟩)
  | noRow => exact absurd h receiverChoice_ne_noRow

/-- R221: the receiver is terminal exactly where its word picks a terminal row. -/
theorem receiverTerminal_iff (s : State) : s.receiverTerminal = true ↔ decodeRsel s.rsel = .terminal := by
  rw [decodeRsel_rsel, receiverChoice_terminal_iff]
  simp [State.receiverTerminal]

/-- R222: the one case in which the receiver holds, said with the registers, the input and the channel. -/
theorem receiverHolds_iff_registers (s : State) :
    s.receiverHolds = true ↔
      s.rcv.state = .waitPacket ∧ s.host.rCancel = false ∧ s.chan.rRx = none ∧ s.rcv.idleCnt ≠ 0 := by
  simp [State.receiverHolds, State.receiverAvail, and_assoc]

/-- R222: the receiver holds exactly where its word picks the hold row. -/
theorem receiverHolds_iff (s : State) : s.receiverHolds = true ↔ decodeRsel s.rsel = .hold := by
  rw [decodeRsel_rsel, receiverChoice_hold_iff, receiverHolds_iff_registers]
  simp [State.receiverAvail, Receiver.idleExpired]

theorem step_of_rsel_terminal {rest : List Turn} (hr : s.host.rst = false) (hs : s.script = .receiver :: rest)
    (hi : decodeRsel s.rsel = .terminal) : step s = .next { s with script := rest } := by
  have hsel : decodeRsel { s with script := rest }.rsel = .terminal := hi
  simp [step, takeTurn_cons hs, runTurn, receiverTurn, hr, hsel, runSelection]

end Idle

/-- Settles O42: the receiver's word picks the hold row, a terminal row or an operation, and the first two are the
predicates `receiverHolds` and `receiverTerminal`. -/
theorem receiverHoldsInExactlyOneCase : Obligations.ReceiverHoldsInExactlyOneCase := by
  intro s rest hr hs
  refine ⟨?_, fun h => ?_, (receiverHolds_iff_registers s).mp⟩
  · rw [← Bool.not_eq_true, receiverHolds_iff, receiverTerminal_iff]
    rcases rsel_cases s with h | h | ⟨i, hi, h⟩
    · simp [h]
    · simp [h]
    · exact ⟨fun hold => by simp [h] at hold, fun ⟨_, hnone⟩ => absurd h (hnone i hi)⟩
  · rw [receiverHolds_iff, receiverTerminal_iff] at h
    exact h.elim (step_of_rsel_holds hr hs) (step_of_rsel_terminal hr hs)

/-! ## The packet in `r_buf` (R215 to R219) -/

theorem packet_of_makePacket {x : Receiver} {q : SeqNum} {p : Bytes} (hlen : p.length ≤ Config.mss)
    (hbuf : x.buf = makePacket q p) : x.packet = some { seqNum := q, token := checksum q p, payload := p } := by
  have hok : x.bufOk = true := by rw [Receiver.bufOk, hbuf]; exact packetOk_makePacket q hlen
  rw [packet_of_ok hok, hbuf]
  exact decodePacket_makePacket q hlen

/-- R95 (a): the marker's four bytes. -/
theorem isEof_eq_decide (p : Bytes) : isEof p = decide (p = [0x5C, 0x45, 0x4F, 0x46]) := by
  rw [Bool.eq_iff_iff, decide_eq_true_iff]
  exact beq_iff_eq

/-! ## The operations, each where its rule enables it -/

section Operations
variable {s : State} (hr : s.host.rst = false)
include hr

theorem exec_rCancel (hst : s.rcv.state = .waitPacket) (hc : s.host.rCancel = true) :
    exec .rCancel s = .next (((s.reportR .userCancellation).emitSink .close).gotoR .done) :=
  fireAgent_of _ hr (by simp [hst, hc])

theorem exec_rRecv {m : Datagram} (hst : s.rcv.state = .waitPacket) (hc : s.host.rCancel = false)
    (hm : s.chan.rRx = some m) :
    exec .rRecv s = .next ((s.takeRRx.latchDatagram m).gotoR .process) := by
  simp only [exec, execRRecv, hm]
  exact fireAgent_of _ hr (by simp [hst, hc])

theorem exec_rDrop (hst : s.rcv.state = .process) (hok : s.rcv.bufOk = false) :
    exec .rDrop s = .next (((s.reportR (badPacketCause s.rcv.buf)).reloadIdle).gotoR .waitPacket) :=
  fireAgent_of _ hr (by simp [hst, hok])

theorem exec_rAck (hst : s.rcv.state = .ack) (hlen : s.params.ackPayload.length ≤ Config.mss) :
    exec .rAck s = .next (
      if s.rcv.eof then
        ((s.emitRTx (ackPacket s.params s.rcv.seqNum) s.rcv.src).emitSink .close).gotoR .done
      else (s.emitRTx (ackPacket s.params s.rcv.seqNum) s.rcv.src).reloadIdle.gotoR .waitPacket) := by
  have hok : payloadOk s.params.ackPayload = true := (payloadOk_iff _).mpr hlen
  simp only [exec, execRAck, withOperands, if_pos hok]
  exact fireAgent_of _ hr (by simp [hst])

variable {k : Packet} (hst : s.rcv.state = .process) (hk : s.rcv.packet = some k)
include hst hk

theorem exec_rExt (hx : s.rcv.extReceived = false) :
    exec .rExt s = .next (((((s.latchName s.rcv.src k.payload).emitSink (.name s.rcv.src k.payload)).toggleExpected
      ).latchAck k.seqNum (isEof k.payload)).gotoR .ack) := by
  simp only [exec, execRExt, hk]
  exact fireAgent_of _ hr (by simp [hst, hx])

variable (hx : s.rcv.extReceived = true)
include hx

theorem exec_rData (hq : k.seqNum = s.rcv.expected) (he : k.payload ≠ Config.eofMarker) :
    exec .rData s = .next ((((s.emitSink (.append k.payload)).toggleExpected).latchAck k.seqNum false).gotoR .ack) := by
  simp only [exec, execRData, hk]
  exact fireAgent_of _ hr (by simp [hst, hx, hq, isEof, he])

theorem exec_rEof (hq : k.seqNum = s.rcv.expected) (he : k.payload = Config.eofMarker) :
    exec .rEof s = .next ((s.latchAck k.seqNum true).gotoR .ack) := by
  simp only [exec, execREof, hk]
  exact fireAgent_of _ hr (by simp [hst, hx, hq, isEof, he])

theorem exec_rDup (hq : k.seqNum ≠ s.rcv.expected) :
    exec .rDup s =
      .next (((s.reportR .outOfOrderDuplicate).latchAck k.seqNum (isEof k.payload)).gotoR .ack) := by
  simp only [exec, execRDup, hk]
  exact fireAgent_of _ hr (by simp [hst, hx, hq])

end Operations

/-! ## The operations' whole effects -/

/-- Settles O31: the condition of `R_RECV` looks neither at the countdown nor at the source. -/
theorem receiveTakesAnyDatagram : Obligations.ReceiveTakesAnyDatagram :=
  fun _ _ hr hst hc hm => exec_rRecv hr hst hc hm

/-- Settles O32: nothing on offer and a count of 0 are the two bits `avail` and `idle_exp`. -/
theorem idleTimeoutAborts : Obligations.IdleTimeoutAborts :=
  fun _ hr hst hc hm hcnt => exec_rIdleTimeout hr hst hc hm hcnt

/-- Settles O33: the condition of `R_CANCEL` does not look at `R_RX`. -/
theorem receiverCancelCloses : Obligations.ReceiverCancelCloses :=
  fun _ hr hst hc => exec_rCancel hr hst hc

/-- Settles O34: the cause by the result of `DECODE`. -/
theorem invalidDatagramIsDropped : Obligations.InvalidDatagramIsDropped := by
  intro s hr hst hok
  rw [exec_rDrop hr hst hok, badPacketCause_eq_ite]
  rfl

/-- Settles O35: the condition of `R_EXT` does not look at the sequence number. -/
theorem firstValidPacketNamesTheDestination : Obligations.FirstValidPacketNamesTheDestination := by
  intro s q p hr hst hx hlen hbuf
  rw [exec_rExt hr hst (packet_of_makePacket hlen hbuf) hx, isEof_eq_decide]
  rfl

/-- Settles O36: `r_seq` latches the number that was expected before the toggle. -/
theorem inSequenceDataIsAppended : Obligations.InSequenceDataIsAppended :=
  fun _ _ hr hst hx hlen he hbuf => exec_rData hr hst (packet_of_makePacket hlen hbuf) hx rfl he

/-- Settles O37: `R_EOF` writes the latches of the acknowledgment and the state, and the marker's four bytes are
within `MSS`. -/
theorem inSequenceEofIsNotAppended : Obligations.InSequenceEofIsNotAppended :=
  fun _ hr hst hx hbuf => exec_rEof hr hst (packet_of_makePacket (by decide) hbuf) hx rfl rfl

/-- Settles O38: the condition of `R_DUP` does not ask for the marker; `r_eof` tells whether the payload is one. -/
theorem duplicateIsNotWritten : Obligations.DuplicateIsNotWritten := by
  intro s q p hr hst hx hq hlen hbuf
  rw [exec_rDup hr hst (packet_of_makePacket hlen hbuf) hx hq, isEof_eq_decide]
  rfl

/-- Settles O39: `ackPacket` is the packet of R127, its bytes written out in the statement; `exec_rAck` gives both
outcomes of `r_eof`. -/
theorem acknowledgmentAnswersTheSource : Obligations.AcknowledgmentAnswersTheSource := by
  intro s hr hst hlen
  rw [exec_rAck hr hst hlen]
  rfl

end Machine
end Sys2Proof
end

