-- ==== Sys2Proof/Proofs/Fires.lean ====
section
/-! What an operation can do, said once (00_scope.md R8, R10): it holds and changes nothing, or answers as a unit, or
fires with the effect of its rule. From it what each operation leaves alone (10_state.md R20), the cause codes
(60_exceptions.md R250, R257), and the one pattern of every invariant: an operation, a move of the transport, a move of
the host. -/

namespace Sys2Proof
namespace Machine

/-! ## Firing -/

/-- The operations that write a register, each where its rule enables it, with the state it leads to. -/
inductive Fires (s : State) : Instr → State → Prop where
  | tmrStart : Fires s .tmrStart s.startTimer
  | tmrStop : Fires s .tmrStop s.stopTimer
  | tmrTick (hrun : s.snd.tmrRun = true) (hcnt : s.snd.tmrCnt ≠ 0) : Fires s .tmrTick (s.elapseTimer 1)
  | riTick (hst : s.rcv.state = .waitPacket) (hcnt : s.rcv.idleCnt ≠ 0) : Fires s .riTick (s.elapseIdle 1)
  | sCancel (hst : s.snd.state ≠ .done) (hc : s.host.sCancel = true) :
      Fires s .sCancel ((s.stopTimer.reportS .userCancellation).gotoS .done)
  | sSend {p : Bytes} (hst : s.snd.state = .send) (hc : s.host.sCancel = false) (hi : s.snd.idx < s.host.nUnits)
      (hp : memRead s.host.units s.snd.idx = some p) (hlen : p.length ≤ Config.mss) : Fires s .sSend (s.sendUnit p)
  | sTimeout (hst : s.snd.state = .waitAck) (hc : s.host.sCancel = false) (ht : s.snd.timerState = .expired) :
      Fires s .sTimeout ((s.reportS .channelLoss).gotoS .retransmit)
  | sAckOk (hst : s.snd.state = .waitAck) (hc : s.host.sCancel = false) (ht : s.snd.timerState = .running)
      (hok : s.senderOk = true) : Fires s .sAckOk ((s.takeSRx.stopTimer.toggleSeq.countTx).gotoS .advance)
  | sAckBad {m : Datagram} (hst : s.snd.state = .waitAck) (hc : s.host.sCancel = false)
      (ht : s.snd.timerState = .running) (hm : s.chan.sRx = some m) (hok : packetOk m.bytes = false) :
      Fires s .sAckBad (s.takeSRx.reportS (badPacketCause m.bytes))
  | sRetransmit (hst : s.snd.state = .retransmit) (hc : s.host.sCancel = false) :
      Fires s .sRetransmit (s.countTx.countRetx.gotoS .send)
  | sAdvance (hst : s.snd.state = .advance) (hc : s.host.sCancel = false) :
      Fires s .sAdvance (s.nextUnit.gotoS (if s.snd.idx + 1 = s.host.nUnits then .done else .send))
  | sDoneEof (hst : s.snd.state = .done) (hh : s.snd.halted = false) :
      Fires s .sDoneEof ((s.emitSTx (eofPacket s.snd.seqNum) s.host.sDest).halt)
  | rCancel (hst : s.rcv.state = .waitPacket) (hc : s.host.rCancel = true) :
      Fires s .rCancel (((s.reportR .userCancellation).emitSink .close).gotoR .done)
  | rRecv {m : Datagram} (hst : s.rcv.state = .waitPacket) (hc : s.host.rCancel = false) (hm : s.chan.rRx = some m) :
      Fires s .rRecv ((s.takeRRx.latchDatagram m).gotoR .process)
  | rIdleTimeout (hst : s.rcv.state = .waitPacket) (hc : s.host.rCancel = false) (hm : s.chan.rRx = none)
      (hcnt : s.rcv.idleCnt = 0) : Fires s .rIdleTimeout (((s.reportR .channelLoss).emitSink .close).gotoR .timeoutAbort)
  | rDrop (hst : s.rcv.state = .process) (hok : s.rcv.bufOk = false) :
      Fires s .rDrop (((s.reportR (badPacketCause s.rcv.buf)).reloadIdle).gotoR .waitPacket)
  | rExt {k : Packet} (hst : s.rcv.state = .process) (hk : s.rcv.packet = some k) (hx : s.rcv.extReceived = false) :
      Fires s .rExt (((((s.latchName s.rcv.src k.payload).emitSink (.name s.rcv.src k.payload)).toggleExpected
        ).latchAck k.seqNum (isEof k.payload)).gotoR .ack)
  | rData {k : Packet} (hst : s.rcv.state = .process) (hk : s.rcv.packet = some k) (hx : s.rcv.extReceived = true)
      (hq : k.seqNum = s.rcv.expected) (he : isEof k.payload = false) :
      Fires s .rData ((((s.emitSink (.append k.payload)).toggleExpected).latchAck k.seqNum false).gotoR .ack)
  | rEof {k : Packet} (hst : s.rcv.state = .process) (hk : s.rcv.packet = some k) (hx : s.rcv.extReceived = true)
      (hq : k.seqNum = s.rcv.expected) (he : isEof k.payload = true) :
      Fires s .rEof ((s.latchAck k.seqNum true).gotoR .ack)
  | rDup {k : Packet} (hst : s.rcv.state = .process) (hk : s.rcv.packet = some k) (hx : s.rcv.extReceived = true)
      (hq : k.seqNum ≠ s.rcv.expected) :
      Fires s .rDup (((s.reportR .outOfOrderDuplicate).latchAck k.seqNum (isEof k.payload)).gotoR .ack)
  | rAckEof (hst : s.rcv.state = .ack) (hlen : s.params.ackPayload.length ≤ Config.mss) (he : s.rcv.eof = true) :
      Fires s .rAck (((s.emitRTx (ackPacket s.params s.rcv.seqNum) s.rcv.src).emitSink .close).gotoR .done)
  | rAckNext (hst : s.rcv.state = .ack) (hlen : s.params.ackPayload.length ≤ Config.mss) (he : s.rcv.eof = false) :
      Fires s .rAck ((s.emitRTx (ackPacket s.params s.rcv.seqNum) s.rcv.src).reloadIdle.gotoR .waitPacket)

/-! ## What an operation that answers next has done -/

section
variable {s t : State}

/-- A pure function or a query writes its answer only. -/
theorem exec_pure_next {i : Instr} (hi : Instr.isPure i = true) (h : exec i s = .next t) : ∃ a, t = s.answer a := by
  cases i with
  | encode | mkpkt | ack | checksum | verify =>
    obtain ⟨-, h⟩ := withOperands_next h
    cases h
    exact ⟨_, rfl⟩
  | decode | eofpkt | pktOk | tmrIsRunning | tmrHasExpired => cases h; exact ⟨_, rfl⟩
  | _ => cases hi

/-- An agent's operation held, or it fired, if its condition and its effect are those of its rule. -/
theorem fireAgent_held_or {i : Instr} {c : Bool} {e : Result} (h : fireAgent c s e = .next t)
    (hF : c = true → e = .next t → Fires s i t) : t = s ∨ s.host.rst = false ∧ Fires s i t :=
  (fireAgent_next h).imp_right fun ⟨hr, hc, he⟩ => ⟨hr, hF hc he⟩

/-- The same where the effect is one state, whatever the operands. -/
theorem fireAgent_next_held_or {i : Instr} {c : Bool} {u : State} (h : fireAgent c s (.next u) = .next t)
    (hF : c = true → Fires s i u) : t = s ∨ s.host.rst = false ∧ Fires s i t :=
  fireAgent_held_or h fun hc he => by cases he; exact hF hc

theorem execSSend_next (h : execSSend s = .next t) : t = s ∨ s.host.rst = false ∧ Fires s .sSend t := by
  refine fireAgent_held_or h fun hc he => ?_
  simp only [Bool.and_eq_true, beq_iff_eq, Bool.not_eq_true', unitLeft_iff] at hc
  obtain ⟨⟨hst, hcancel⟩, hi⟩ := hc
  split at he
  · cases he
  · rename_i p hp
    split at he <;> cases he
    exact .sSend hst hcancel hi hp ((payloadOk_iff p).mp (by assumption))

theorem execSAckBad_next (h : execSAckBad s = .next t) : t = s ∨ s.host.rst = false ∧ Fires s .sAckBad t := by
  unfold execSAckBad at h
  split at h
  · cases h; exact .inl rfl
  · rename_i m hm
    refine fireAgent_next_held_or h fun hc => ?_
    simp only [Bool.and_eq_true, beq_iff_eq, Bool.not_eq_true', ← timerState_running] at hc
    obtain ⟨⟨⟨hst, hcancel⟩, ht⟩, hok⟩ := hc
    exact .sAckBad hst hcancel ht hm hok

theorem execRRecv_next (h : execRRecv s = .next t) : t = s ∨ s.host.rst = false ∧ Fires s .rRecv t := by
  unfold execRRecv at h
  split at h
  · cases h; exact .inl rfl
  · rename_i m hm
    refine fireAgent_next_held_or h fun hc => ?_
    simp only [Bool.and_eq_true, beq_iff_eq, Bool.not_eq_true'] at hc
    exact .rRecv hc.1 hc.2 hm

theorem execRAck_next (h : execRAck s = .next t) : t = s ∨ s.host.rst = false ∧ Fires s .rAck t := by
  refine fireAgent_held_or h fun hc he => ?_
  obtain ⟨hlen, he⟩ := withOperands_next he
  rw [payloadOk_iff] at hlen
  rw [beq_iff_eq] at hc
  cases heof : s.rcv.eof <;> simp only [heof] at he <;> cases he
  · exact .rAckNext hc hlen heof
  · exact .rAckEof hc hlen heof

/-- The four operations on the packet in `r_buf` hold where there is none. -/
theorem packet_held_or {i : Instr} {f : Packet → Result}
    (h : (match s.rcv.packet with | none => Host.Outcome.next s | some k => f k) = .next t)
    (hf : ∀ k, s.rcv.packet = some k → f k = .next t → t = s ∨ s.host.rst = false ∧ Fires s i t) :
    t = s ∨ s.host.rst = false ∧ Fires s i t := by
  split at h
  · cases h; exact .inl rfl
  · exact hf _ (by assumption) h

/-- Every operation that writes a register either held, with nothing changed, or fired, out of reset. -/
theorem exec_next {i : Instr} (hi : Instr.isPure i = false) (h : exec i s = .next t) :
    t = s ∨ s.host.rst = false ∧ Fires s i t := by
  cases i with
  | tmrStart => exact fireAgent_next_held_or h fun _ => .tmrStart
  | tmrStop => exact fireAgent_next_held_or h fun _ => .tmrStop
  | tmrTick =>
    refine fireAgent_next_held_or h fun hc => ?_
    simp only [Bool.and_eq_true, bne_iff_ne] at hc
    exact .tmrTick hc.1 hc.2
  | riTick =>
    refine fireAgent_next_held_or h fun hc => ?_
    simp only [Bool.and_eq_true, beq_iff_eq, bne_iff_ne] at hc
    exact .riTick hc.1 hc.2
  | sCancel =>
    refine fireAgent_next_held_or h fun hc => ?_
    simp only [Bool.and_eq_true, bne_iff_ne] at hc
    exact .sCancel hc.1 hc.2
  | sSend => exact execSSend_next h
  | sTimeout =>
    refine fireAgent_next_held_or h fun hc => ?_
    simp only [Bool.and_eq_true, beq_iff_eq, Bool.not_eq_true', ← timerState_expired] at hc
    exact .sTimeout hc.1.1 hc.1.2 hc.2
  | sAckOk =>
    refine fireAgent_next_held_or h fun hc => ?_
    simp only [Bool.and_eq_true, beq_iff_eq, Bool.not_eq_true', ← timerState_running] at hc
    obtain ⟨⟨⟨hst, hcancel⟩, ht⟩, hok⟩ := hc
    exact .sAckOk hst hcancel ht hok
  | sAckBad => exact execSAckBad_next h
  | sRetransmit =>
    refine fireAgent_next_held_or h fun hc => ?_
    simp only [Bool.and_eq_true, beq_iff_eq, Bool.not_eq_true'] at hc
    exact .sRetransmit hc.1 hc.2
  | sAdvance =>
    refine fireAgent_next_held_or h fun hc => ?_
    simp only [Bool.and_eq_true, beq_iff_eq, Bool.not_eq_true'] at hc
    exact .sAdvance hc.1 hc.2
  | sDoneEof =>
    refine fireAgent_next_held_or h fun hc => ?_
    simp only [Bool.and_eq_true, beq_iff_eq, Bool.not_eq_true'] at hc
    exact .sDoneEof hc.1 hc.2
  | rCancel =>
    refine fireAgent_next_held_or h fun hc => ?_
    simp only [Bool.and_eq_true, beq_iff_eq] at hc
    exact .rCancel hc.1 hc.2
  | rRecv => exact execRRecv_next h
  | rIdleTimeout =>
    refine fireAgent_next_held_or h fun hc => ?_
    simp only [Bool.and_eq_true, beq_iff_eq, Bool.not_eq_true', State.receiverAvail, Receiver.idleExpired,
      Option.isSome_eq_false_iff, Option.isNone_iff_eq_none] at hc
    obtain ⟨⟨⟨hst, hcancel⟩, hm⟩, hcnt⟩ := hc
    exact .rIdleTimeout hst hcancel hm hcnt
  | rDrop =>
    refine fireAgent_next_held_or h fun hc => ?_
    simp only [Bool.and_eq_true, beq_iff_eq, Bool.not_eq_true'] at hc
    exact .rDrop hc.1 hc.2
  | rExt =>
    refine packet_held_or h fun k hk h => fireAgent_next_held_or h fun hc => ?_
    simp only [Bool.and_eq_true, beq_iff_eq, Bool.not_eq_true'] at hc
    exact .rExt hc.1 hk hc.2
  | rData =>
    refine packet_held_or h fun k hk h => fireAgent_next_held_or h fun hc => ?_
    simp only [Bool.and_eq_true, beq_iff_eq, Bool.not_eq_true'] at hc
    obtain ⟨⟨⟨hst, hx⟩, hq⟩, heof⟩ := hc
    exact .rData hst hk hx hq heof
  | rEof =>
    refine packet_held_or h fun k hk h => fireAgent_next_held_or h fun hc => ?_
    simp only [Bool.and_eq_true, beq_iff_eq] at hc
    obtain ⟨⟨⟨hst, hx⟩, hq⟩, heof⟩ := hc
    exact .rEof hst hk hx hq heof
  | rDup =>
    refine packet_held_or h fun k hk h => fireAgent_next_held_or h fun hc => ?_
    simp only [Bool.and_eq_true, beq_iff_eq, bne_iff_ne] at hc
    exact .rDup hc.1.1 hk hc.1.2 hc.2
  | rAck => exact execRAck_next h
  | encode | decode | mkpkt | ack | eofpkt | checksum | verify | pktOk | tmrIsRunning | tmrHasExpired => cases hi

/-- The three outcomes of an operation that answers next: an answer, nothing, an effect. -/
theorem exec_next_cases {i : Instr} (h : exec i s = .next t) :
    (Instr.isPure i = true ∧ ∃ a, t = s.answer a) ∨ t = s ∨
      (Instr.isPure i = false ∧ s.host.rst = false ∧ Fires s i t) := by
  cases hi : Instr.isPure i with
  | true => exact .inl ⟨rfl, exec_pure_next hi h⟩
  | false => exact .inr ((exec_next hi h).imp_right fun hf => ⟨rfl, hf⟩)

end

/-! ## The frame (R20, R3, R263) -/

namespace Fires
variable {s t : State} {i : Instr} (h : Fires s i t)
include h

theorem params_eq : t.params = s.params := by cases h <;> rfl
theorem host_eq : t.host = s.host := by cases h <;> rfl
theorem script_eq : t.script = s.script := by cases h <;> rfl
theorem unitOut_eq : t.unitOut = s.unitOut := by cases h <;> rfl
theorem toReceiver_eq : t.chan.toReceiver = s.chan.toReceiver := by cases h <;> rfl
theorem toSender_eq : t.chan.toSender = s.chan.toSender := by cases h <;> rfl

theorem sender_frame (hi : i ∈ senderOperations) : t.rcv = s.rcv ∧ t.chan.rTx = s.chan.rTx ∧ t.chan.rRx = s.chan.rRx ∧
    t.log.sink = s.log.sink ∧ t.log.rDiag = s.log.rDiag := by
  cases h with
  | sCancel | sSend | sTimeout | sAckOk | sAckBad | sRetransmit | sAdvance | sDoneEof => exact ⟨rfl, rfl, rfl, rfl, rfl⟩
  | _ => exact absurd hi (by decide)

theorem receiver_frame (hi : i ∈ receiverOperations) : t.snd = s.snd ∧ t.chan.sTx = s.chan.sTx ∧
    t.chan.sRx = s.chan.sRx ∧ t.log.sDiag = s.log.sDiag := by
  cases h with
  | rCancel | rRecv | rIdleTimeout | rDrop | rExt | rData | rEof | rDup | rAckEof | rAckNext => exact ⟨rfl, rfl, rfl, rfl⟩
  | _ => exact absurd hi (by decide)

theorem timer_frame (hi : i ∈ timerOperations) :
    t = { s with snd := { s.snd with tmrRun := t.snd.tmrRun, tmrCnt := t.snd.tmrCnt } } := by
  cases h with
  | tmrStart | tmrStop | tmrTick => rfl
  | _ => exact absurd hi (by decide)

theorem riTick_frame (hi : i = .riTick) : t = { s with rcv := { s.rcv with idleCnt := t.rcv.idleCnt } } := by
  subst hi
  cases h
  rfl

end Fires

theorem isPure_of_mem {i : Instr} (hi : i ∈ senderOperations ++ receiverOperations ++ timerOperations ++ [.riTick]) :
    Instr.isPure i = false := by
  revert i; decide

/-- Settles O45: an answer, nothing, or an effect, whose frame goes by the class of the operation. -/
theorem operationsKeepTheirFrame : Obligations.OperationsKeepTheirFrame := by
  intro i s t h
  rcases exec_next_cases h with ⟨hi, a, rfl⟩ | rfl | ⟨hi, -, hf⟩
  · have hclass (l : List Instr) (hl : l ⊆ senderOperations ++ receiverOperations ++ timerOperations ++ [.riTick]) :
        i ∉ l := fun hm => by simp [isPure_of_mem (hl hm)] at hi
    exact ⟨rfl, rfl, rfl, rfl, rfl, fun _ => rfl, fun _ => rfl, fun hn => by simp [hi] at hn,
      fun hm => absurd hm (hclass _ (by decide)), fun hm => absurd hm (hclass _ (by decide)),
      fun hm => absurd hm (hclass _ (by decide)), fun hm => absurd (List.mem_singleton.mpr hm) (hclass _ (by decide))⟩
  · exact ⟨rfl, rfl, rfl, rfl, rfl, fun _ => rfl, fun _ => rfl, fun _ => rfl, fun _ => ⟨rfl, rfl, rfl, rfl, rfl⟩,
      fun _ => rfl, fun _ => ⟨rfl, rfl, rfl, rfl⟩, fun _ => rfl⟩
  · exact ⟨hf.params_eq, hf.host_eq, hf.script_eq, hf.toReceiver_eq, hf.toSender_eq, fun j => by rw [hf.host_eq],
      fun hp => by simp [hi] at hp, fun _ => hf.unitOut_eq, hf.sender_frame, hf.timer_frame, hf.receiver_frame,
      hf.riTick_frame⟩

/-! ## The cause codes (R250, R257, R260) -/

/-- The cause of a datagram that is not a valid packet is one of two. -/
theorem badPacketCause_cases (w : Bytes) : badPacketCause w = .corruptPacket ∨ badPacketCause w = .malformedPacket := by
  rw [badPacketCause_eq_ite]
  split_ifs <;> simp

namespace Fires
variable {s t : State} {i : Instr} (h : Fires s i t)
include h

theorem sDiag_cases : t.log.sDiag = s.log.sDiag ∨ ∃ c : Cause, t.log.sDiag = s.log.sDiag ++ [c] ∧
    ((i = .sTimeout ∧ c = .channelLoss) ∨ (i = .sAckBad ∧ (c = .corruptPacket ∨ c = .malformedPacket)) ∨
      (i = .sCancel ∧ c = .userCancellation)) := by
  cases h with
  | sTimeout => exact .inr ⟨_, rfl, .inl ⟨rfl, rfl⟩⟩
  | sAckBad => exact .inr ⟨_, rfl, .inr (.inl ⟨rfl, badPacketCause_cases _⟩)⟩
  | sCancel => exact .inr ⟨_, rfl, .inr (.inr ⟨rfl, rfl⟩)⟩
  | _ => exact .inl rfl

theorem rDiag_cases : t.log.rDiag = s.log.rDiag ∨ ∃ c : Cause, t.log.rDiag = s.log.rDiag ++ [c] ∧
    ((i = .rIdleTimeout ∧ c = .channelLoss) ∨ (i = .rDrop ∧ (c = .corruptPacket ∨ c = .malformedPacket)) ∨
      (i = .rDup ∧ c = .outOfOrderDuplicate) ∨ (i = .rCancel ∧ c = .userCancellation)) := by
  cases h with
  | rIdleTimeout => exact .inr ⟨_, rfl, .inl ⟨rfl, rfl⟩⟩
  | rDrop => exact .inr ⟨_, rfl, .inr (.inl ⟨rfl, badPacketCause_cases _⟩)⟩
  | rDup => exact .inr ⟨_, rfl, .inr (.inr (.inl ⟨rfl, rfl⟩))⟩
  | rCancel => exact .inr ⟨_, rfl, .inr (.inr (.inr ⟨rfl, rfl⟩))⟩
  | _ => exact .inl rfl

end Fires

theorem sAckBad_fires_reports {s t : State} (h : Fires s .sAckBad t) : ∃ m : Datagram, s.chan.sRx = some m ∧
    t.log.sDiag = s.log.sDiag ++ [if decodePacket m.bytes = none then .malformedPacket else .corruptPacket] := by
  cases h with
  | sAckBad _ _ _ hm => exact ⟨_, hm, by rw [← badPacketCause_eq_ite]; rfl⟩

theorem rDrop_fires_reports {s t : State} (h : Fires s .rDrop t) : t.log.rDiag = s.log.rDiag ++
    [if decodePacket s.rcv.buf = none then .malformedPacket else .corruptPacket] := by
  cases h
  rw [← badPacketCause_eq_ite]
  rfl

/-- Settles O49: only an effect adds a code, and each of the seven effects names its own. -/
theorem conditionsAreReportedByTheirOperations : Obligations.ConditionsAreReportedByTheirOperations := by
  intro i s t h
  rcases exec_next_cases h with ⟨hi, a, rfl⟩ | rfl | ⟨-, -, hf⟩
  · have hne {j : Instr} (hj : Instr.isPure j = false) {P : Prop} (h : i = j) : P := by simp [h, hj] at hi
    exact ⟨.inl rfl, .inl rfl, fun _ => ⟨hne rfl, hne rfl, hne rfl, hne rfl, hne rfl, hne rfl, hne rfl⟩⟩
  · exact ⟨.inl rfl, .inl rfl, fun hne => absurd rfl hne⟩
  · exact ⟨hf.sDiag_cases, hf.rDiag_cases, fun _ =>
      ⟨fun hi => by subst hi; cases hf; rfl, fun hi => sAckBad_fires_reports (hi ▸ hf),
        fun hi => by subst hi; cases hf; rfl, fun hi => by subst hi; cases hf; rfl,
        fun hi => rDrop_fires_reports (hi ▸ hf), fun hi => by subst hi; cases hf; rfl,
        fun hi => by subst hi; cases hf; rfl⟩⟩

end Machine
end Sys2Proof
end

