-- ==== Sys2Proof/Proofs/Invariants.lean ====
section
/-! The invariants of the reachable states (10_state.md R44, R25; 44_sender_fsm.md R193; 20_memory.md R62, R65, R72).
Each is shown once for an effect of an operation, a move of the transport and a move of the host; `KeptBy` makes of
these a statement about every step. -/

namespace Sys2Proof
namespace Machine

/-! ## What every step does to the script and the parameters -/

/-- A step spends at most the turn at the head of the script, and never writes a parameter (R6). -/
theorem step_script_params {s t : State} (h : step s = .next t) :
    t.script = s.script.tail ∧ t.params = s.params := by
  rcases step_next h with ⟨hs, rfl⟩ | ⟨turn, rest, hs, rfl | ⟨i, -, h⟩ | ⟨m, -, h⟩ | ⟨m, -, h⟩⟩
  · simp [hs]
  · simp [hs]
  · rcases exec_next_cases h with ⟨-, a, rfl⟩ | rfl | ⟨-, -, hf⟩
    · simp [hs]
    · simp [hs]
    · simp [hf.script_eq, hf.params_eq, hs]
  · rw [(transportMove_next h).1]
    simp [hs]
  · rcases hostMove_next h with ⟨ht, -⟩ | ⟨-, rfl⟩ | ⟨b, a, p, e, -, -, rfl⟩
    · rw [ht]
      simp [hs]
    · simp [hs]
    · simp [hs]

/-! ## The pattern of an invariant -/

/-- A property of the machine that does not look at the script is kept by every allowed turn. -/
structure KeptBy (allowed : Turn → Bool) (P : State → Prop) : Prop where
  script : ∀ (s : State) (rest : List Turn), P s → P { s with script := rest }
  answer : ∀ (s : State) (a : UnitAnswer), P s → P (s.answer a)
  fires : ∀ {turn : Turn} {i : Instr} {s t : State}, allowed turn = true → turn.runs i → s.host.rst = false →
    Fires s i t → P s → P t
  transport : ∀ {m : TransportMove} {s t : State}, transportMove m s = .next t → P s → P t
  host : ∀ {m : HostMove} {s t : State}, allowed (.host m) = true → hostMove m s = .next t → P s → P t

/-- Then every step keeps it, and the turns still to come stay allowed. -/
theorem KeptBy.of_step {allowed : Turn → Bool} {P : State → Prop} (hP : KeptBy allowed P) {s t : State}
    (h : step s = .next t) (hall : s.script.all allowed = true) (hs : P s) : t.script.all allowed = true ∧ P t := by
  refine ⟨?_, ?_⟩
  · rw [(step_script_params h).1, List.all_eq_true]
    exact fun turn ht => List.all_eq_true.mp hall turn (List.mem_of_mem_tail ht)
  · rcases step_next h with ⟨-, rfl⟩ | ⟨turn, rest, hscript, rfl | ⟨i, hi, h⟩ | ⟨m, rfl, h⟩ | ⟨m, rfl, h⟩⟩
    · exact hs
    · exact hP.script s rest hs
    · have hturn : allowed turn = true := by simp_all
      rcases exec_next_cases h with ⟨-, a, rfl⟩ | rfl | ⟨-, hr, hf⟩
      · exact hP.answer _ a (hP.script s rest hs)
      · exact hP.script s rest hs
      · exact hP.fires hturn hi hr hf (hP.script s rest hs)
    · exact hP.transport h (hP.script s rest hs)
    · exact hP.host (by simp_all) h (hP.script s rest hs)

/-- An invariant of all runs, whatever their turns. -/
theorem KeptBy.every_step {P : State → Prop} (hP : KeptBy (fun _ => true) P) {s t : State} (h : step s = .next t)
    (hs : P s) : P t :=
  (hP.of_step h (List.all_eq_true.mpr fun _ _ => rfl) hs).2

/-! ## The sender's registers (R44, R30) -/

/-- What R44 (b), (c) and (f) say of the sender in each of its states, with the two registers of the timer. -/
def Sender.Placed (x : Sender) : Prop :=
  match x.state with
  | .send => x.halted = false ∧ x.tmrCnt = 0
  | .waitAck => x.halted = false ∧ x.tmrRun = true ∧ x.sentAny = true
  | .retransmit => x.halted = false ∧ x.tmrRun = true ∧ x.tmrCnt = 0 ∧ x.sentAny = true
  | .advance => x.halted = false ∧ x.tmrRun = false ∧ x.tmrCnt = 0 ∧ x.sentAny = true
  | .done => x.tmrRun = false ∧ x.tmrCnt = 0

/-- The sender's invariant, by its state. -/
theorem senderInv_iff (p : Config.Params) (x : Sender) :
    SenderInv p x ↔ x.tmrCnt ≤ p.txTimeoutTicks ∧ x.tmrCnt < 2 ^ p.tmrW ∧
      (x.sentAny = false → x.txCount = 0 ∧ x.retxCount = 0) ∧ x.Placed := by
  constructor
  · rintro ⟨hhalt, hwait, hretx, hrest, hsend, hbound, hfits, hclear, hcount, hplace⟩
    refine ⟨hbound, hfits, hcount, ?_⟩
    rw [timerState_stopped] at hclear
    rw [timerState_expired_iff_count] at hretx
    rw [timerState_stopped, timerState_expired_iff_count] at hsend
    cases hst : x.state <;> simp only [Sender.Placed, hst] <;> simp_all
    tauto
  · rintro ⟨hbound, hfits, hcount, hplaced⟩
    refine ⟨?_, ?_, ?_, ?_, ?_, hbound, hfits, ?_, hcount, ?_⟩ <;>
      cases hst : x.state <;> simp only [Sender.Placed, hst] at hplaced <;>
      simp_all [timerState_stopped, timerState_expired_iff_count]

theorem txTimeoutTicks_lt {p : Config.Params} (h : p.wf = true) : p.txTimeoutTicks < 2 ^ p.tmrW := by
  simp only [Config.Params.wf, Bool.and_eq_true, decide_eq_true_eq] at h
  omega

theorem rxTimeoutTicks_lt {p : Config.Params} (h : p.wf = true) : p.rxTimeoutTicks < 2 ^ p.tmrW := by
  simp only [Config.Params.wf, Bool.and_eq_true, decide_eq_true_eq] at h
  omega

theorem Sender.reset_inv (p : Config.Params) : SenderInv p Sender.reset := by
  simp [senderInv_iff, Sender.Placed, Sender.reset]

theorem Receiver.resetWith_inv {p : Config.Params} (hp : p.wf = true) (buf : Bytes) (src peer : Addr) {ext : Bytes}
    (he : ext.length ≤ Config.mss) : ReceiverInv p (Receiver.resetWith p.rxTimeoutTicks buf src peer ext) :=
  ⟨Nat.le_refl _, rxTimeoutTicks_lt hp, fun _ => rfl, he⟩

/-- The commands of a raw timer are left out: no agent gives them. -/
theorem Fires.keeps_senderInv {s t : State} {i : Instr} (hf : Fires s i t) (hi : i ≠ .tmrStart ∧ i ≠ .tmrStop)
    (hp : s.params.wf = true) (h : SenderInv s.params s.snd) : SenderInv t.params t.snd := by
  have hticks := txTimeoutTicks_lt hp
  rw [senderInv_iff] at h ⊢
  obtain ⟨hbound, hfits, hcount, hplaced⟩ := h
  unfold Sender.Placed at hplaced ⊢
  cases hf with
  | tmrStart | tmrStop => simp at hi
  | tmrTick hrun hcnt =>
    refine ⟨(Nat.sub_le _ _).trans hbound, (Nat.sub_le _ _).trans_lt hfits, hcount, ?_⟩
    cases hst : s.snd.state <;> simp_all [State.elapseTimer]
  | sCancel => simpa using hcount
  | sSend hst => simp_all [State.sendUnit]
  | sTimeout hst _ ht =>
    rw [timerState_expired_iff_count] at ht
    simp_all
  | sAckOk hst | sRetransmit hst | sDoneEof hst => simp_all
  | sAdvance hst =>
    by_cases hlast : s.snd.idx + 1 = s.host.nUnits <;> simp_all
  | sAckBad | riTick | rCancel | rRecv | rIdleTimeout | rDrop | rExt | rData | rEof | rDup | rAckEof | rAckNext =>
    exact ⟨hbound, hfits, hcount, hplaced⟩

/-! ## The receiver's registers (R44, R31) -/

theorem Fires.keeps_receiverInv {s t : State} {i : Instr} (hf : Fires s i t) (hp : s.params.wf = true)
    (h : ReceiverInv s.params s.rcv) : ReceiverInv t.params t.rcv := by
  obtain ⟨hbound, hfits, hzero, hext⟩ := h
  cases hf with
  | riTick => exact ⟨(Nat.sub_le _ _).trans hbound, (Nat.sub_le _ _).trans_lt hfits, hzero, hext⟩
  | rDrop | rAckNext => exact ⟨Nat.le_refl _, rxTimeoutTicks_lt hp, hzero, hext⟩
  | rExt _ hk => exact ⟨hbound, hfits, nofun, (packet_some hk).2.2⟩
  | rData _ _ hx => exact ⟨hbound, hfits, fun hn => by simp [hx] at hn, hext⟩
  | rCancel | rRecv | rIdleTimeout | rEof | rDup | rAckEof => exact ⟨hbound, hfits, hzero, hext⟩
  | tmrStart | tmrStop | tmrTick | sCancel | sSend | sTimeout | sAckOk | sAckBad | sRetransmit | sAdvance | sDoneEof =>
    exact ⟨hbound, hfits, hzero, hext⟩

/-! ## The registers of the machine -/

/-- The register invariant without the script, with the constraints on the parameters. -/
structure RegistersOk (s : State) : Prop where
  params : s.params.wf = true
  sender : SenderInv s.params s.snd
  receiver : ReceiverInv s.params s.rcv
  in_reset : s.host.rst = true → s.snd = Sender.reset ∧
    s.rcv = Receiver.resetWith s.params.rxTimeoutTicks s.rcv.buf s.rcv.src s.rcv.peer s.rcv.ext

theorem registerInv_iff {s : State} (hp : s.params.wf = true) :
    RegisterInv s ↔ s.script.all Turn.ofAgent = true ∧ RegistersOk s :=
  ⟨fun ⟨hs, hr, ha, hreset⟩ => ⟨ha, hp, hs, hr, hreset⟩, fun ⟨ha, _, hs, hr, hreset⟩ => ⟨hs, hr, ha, hreset⟩⟩

/-- A turn of an agent runs no raw command of the timer. -/
theorem runs_ne_timer_command {turn : Turn} {i : Instr} (ha : turn.ofAgent = true) (hi : turn.runs i) :
    i ≠ .tmrStart ∧ i ≠ .tmrStop := by
  cases turn with
  | sender | receiver => revert i; simp [Turn.runs]
  | senderTick | receiverTick => cases hi; decide
  | unit => cases ha
  | transport | host => cases hi

theorem registersOk_kept : KeptBy Turn.ofAgent RegistersOk where
  script := fun _ _ ⟨hp, hs, hr, hreset⟩ => ⟨hp, hs, hr, hreset⟩
  answer := fun _ _ ⟨hp, hs, hr, hreset⟩ => ⟨hp, hs, hr, hreset⟩
  fires := fun ha hi hrst hf ⟨hp, hs, hr, _⟩ =>
    ⟨by rw [hf.params_eq]; exact hp, hf.keeps_senderInv (runs_ne_timer_command ha hi) hp hs, hf.keeps_receiverInv hp hr,
      fun hon => by rw [hf.host_eq, hrst] at hon; cases hon⟩
  transport := fun hm ⟨hp, hs, hr, hreset⟩ => by
    rw [(transportMove_next hm).1]
    exact ⟨hp, hs, hr, hreset⟩
  host := fun _ hm ⟨hp, hs, hr, hreset⟩ => by
    rcases hostMove_next hm with ⟨ht, hrst, -⟩ | ⟨-, rfl⟩ | ⟨buf, src, peer, ext, -, -, rfl⟩
    · rw [ht]
      exact ⟨hp, hs, hr, fun hon => hreset (hrst.symm.trans hon)⟩
    · exact ⟨hp, Sender.reset_inv _, Receiver.resetWith_inv hp _ _ _ hr.ext_bounded, fun _ => ⟨rfl, rfl⟩⟩
    · exact ⟨hp, Sender.reset_inv _, Receiver.resetWith_inv hp _ _ _ (List.length_take_le _ _), nofun⟩

/-- Settles O53: by the sender's state, the operations' effects on either endpoint, and the two moves of `rst`. -/
theorem stepKeepsTheRegisterInvariant : Obligations.StepKeepsTheRegisterInvariant := by
  intro s t hp h hstep
  obtain ⟨ha, hok⟩ := (registerInv_iff hp).mp h
  obtain ⟨ha', hok'⟩ := registersOk_kept.of_step hstep ha hok
  exact (registerInv_iff hok'.params).mpr ⟨ha', hok'⟩

/-! ## The sender's sequence number (R193) -/

theorem Sender.reset_alternates : AlternationInv Sender.reset := ⟨fun _ => rfl, nofun⟩

theorem Fires.keeps_alternationInv {s t : State} {i : Instr} (hf : Fires s i t) (h : AlternationInv s.snd) :
    AlternationInv t.snd := by
  obtain ⟨hunit, hadv⟩ := h
  cases hf with
  | tmrStart | tmrStop | tmrTick => exact ⟨hunit, hadv⟩
  | sCancel => exact ⟨by simp, by simp⟩
  | sSend hst | sTimeout hst | sRetransmit hst => exact ⟨fun _ => hunit (by simp [hst]), by simp [State.sendUnit]⟩
  | sAckOk hst =>
    have hpar := hunit (.inr (.inl hst))
    refine ⟨by simp, fun _ => ?_⟩
    have hflip := value_toggle s.snd.seqNum
    simp only [State.gotoS_snd, State.countTx_snd, State.toggleSeq_snd, State.stopTimer_snd, State.takeSRx_snd]
    omega
  | sAdvance hst =>
    have hpar := hadv hst
    have hnext : (s.snd.idx + 1).toNat % 2 = (s.snd.idx.toNat + 1) % 2 := by bv_omega
    refine ⟨fun _ => hpar.trans hnext.symm, fun h => ?_⟩
    simp only [State.gotoS_snd] at h
    split at h <;> cases h
  | sDoneEof hst => exact ⟨by simp [hst], by simp [hst]⟩
  | sAckBad | riTick | rCancel | rRecv | rIdleTimeout | rDrop | rExt | rData | rEof | rDup | rAckEof | rAckNext =>
    exact ⟨hunit, hadv⟩

theorem alternationInv_kept : KeptBy (fun _ => true) fun s => AlternationInv s.snd where
  script := fun _ _ h => h
  answer := fun _ _ h => h
  fires := fun _ _ _ hf h => hf.keeps_alternationInv h
  transport := fun hm h => by
    rw [(transportMove_next hm).1]
    exact h
  host := fun _ hm h => by
    rcases hostMove_next hm with ⟨ht, -⟩ | ⟨-, rfl⟩ | ⟨b, a, p, e, -, -, rfl⟩
    · rw [ht]
      exact h
    · exact Sender.reset_alternates
    · exact Sender.reset_alternates

/-- Settles O54: `s_seq` toggles where `ADVANCE` is entered, `s_idx` counts where it is left; a wrap of the index keeps
its parity. -/
theorem stepKeepsTheAlternation : Obligations.StepKeepsTheAlternation :=
  fun _ _ h hstep => alternationInv_kept.every_step hstep h

/-! ## The sender's index (R25) -/

theorem Fires.keeps_indexInv {s t : State} {i : Instr} (hf : Fires s i t) (hrst : s.host.rst = false)
    (h : IndexInv s) : IndexInv t := by
  obtain ⟨hhalt, hrange⟩ := h
  cases hf with
  | sCancel => exact ⟨fun _ => rfl, fun _ _ hne => absurd rfl hne⟩
  | sSend hst | sTimeout hst | sAckOk hst | sRetransmit hst =>
    exact ⟨fun hh => (nomatch hst.symm.trans (hhalt hh)), fun hr hn _ => hrange hr hn (by simp [hst])⟩
  | sAdvance hst =>
    refine ⟨fun hh => (nomatch hst.symm.trans (hhalt hh)), fun _ hn hne => ?_⟩
    have hin : s.snd.idx < s.host.nUnits := hrange hrst hn (by simp [hst])
    have hlast : s.snd.idx + 1 ≠ s.host.nUnits := fun heq => hne (if_pos heq)
    change s.snd.idx + 1 < s.host.nUnits
    bv_omega
  | sDoneEof hst => exact ⟨fun _ => hst, fun _ _ hne => absurd hst hne⟩
  | tmrStart | tmrStop | tmrTick | sAckBad | riTick | rCancel | rRecv | rIdleTimeout | rDrop | rExt | rData | rEof | rDup |
    rAckEof | rAckNext => exact ⟨hhalt, hrange⟩

theorem indexInv_kept : KeptBy (fun _ => true) IndexInv where
  script := fun _ _ ⟨hhalt, hrange⟩ => ⟨hhalt, hrange⟩
  answer := fun _ _ ⟨hhalt, hrange⟩ => ⟨hhalt, hrange⟩
  fires := fun _ _ hrst hf h => hf.keeps_indexInv hrst h
  transport := fun hm ⟨hhalt, hrange⟩ => by
    rw [(transportMove_next hm).1]
    exact ⟨hhalt, hrange⟩
  host := fun {_ s _} _ hm ⟨hhalt, hrange⟩ => by
    rcases hostMove_next hm with ⟨ht, hrst, ⟨-, hn, -⟩ | ⟨u, n, a, -, -, hon | hdone⟩⟩ | ⟨-, rfl⟩ |
      ⟨b, a, p, e, -, -, rfl⟩
    · rw [ht]
      exact ⟨hhalt, fun hr h1 => by rw [hn] at h1 ⊢; exact hrange (hrst.symm.trans hr) h1⟩
    · rw [ht]
      exact ⟨hhalt, fun hr => by cases (hrst.trans hon).symm.trans hr⟩
    · rw [ht]
      exact ⟨hhalt, fun _ _ hne => absurd (hhalt hdone) hne⟩
    · exact ⟨nofun, nofun⟩
    · exact ⟨nofun, fun _ h1 _ => by
        change 0#32 < s.host.nUnits
        change 1#32 ≤ s.host.nUnits at h1
        bv_omega⟩

/-- Settles O55: the index is counted up only short of `n_units`, and a configuration is loaded only in reset or in
`DONE`. -/
theorem stepKeepsTheIndexInRange : Obligations.StepKeepsTheIndexInRange :=
  fun _ _ h hstep => indexInv_kept.every_step hstep h

/-! ## The events of the sink (R65, R38, R221) -/

/-- What an effect does to the sink, by the events it adds: the receiver's registers that the shape looks at go with
them. -/
theorem Fires.keeps_sinkShape {s t : State} {i : Instr} (hf : Fires s i t) (h : SinkShape s.rcv s.log.sink) :
    SinkShape t.rcv t.log.sink := by
  cases hf with
  | tmrStart | tmrStop | tmrTick | riTick | sCancel | sSend | sTimeout | sAckOk | sAckBad | sRetransmit | sAdvance |
    sDoneEof => exact h
  | rRecv hst | rDrop hst | rEof hst | rDup hst | rAckNext hst =>
    obtain ⟨payloads, hlen, hnone, hev⟩ := h
    exact ⟨payloads, hlen, hnone, by simpa [hst] using hev⟩
  | rCancel hst | rIdleTimeout hst | rAckEof hst =>
    obtain ⟨payloads, hlen, hnone, hev⟩ := h
    exact ⟨payloads, hlen, hnone, by simp [hst, hev]; rfl⟩
  | rExt hst hk hx =>
    obtain ⟨payloads, hlen, hnone, hev⟩ := h
    exact ⟨[], by simp, by simp, by simp [hst, hev, hx, hnone hx]⟩
  | @rData k hst hk hx =>
    obtain ⟨payloads, hlen, hnone, hev⟩ := h
    refine ⟨payloads ++ [k.payload], fun p hp => ?_, by simp [hx], by simp [hst, hev, hx]⟩
    rcases List.mem_append.mp hp with hp | hp
    · exact hlen p hp
    · rw [List.mem_singleton.mp hp]
      exact (packet_some hk).2.2

theorem sinkShape_kept : KeptBy Turn.withinRun fun s => SinkShape s.rcv s.log.sink where
  script := fun _ _ h => h
  answer := fun _ _ h => h
  fires := fun _ _ _ hf h => hf.keeps_sinkShape h
  transport := fun hm h => by
    rw [(transportMove_next hm).1]
    exact h
  host := fun ha hm h => by
    rcases hostMove_next hm with ⟨ht, -⟩ | ⟨rfl, -⟩ | ⟨b, a, p, e, rfl, -, -⟩
    · rw [ht]
      exact h
    · cases ha
    · cases ha

/-- Settles O56: an event is added exactly where the registers that the shape looks at change. -/
theorem stepKeepsTheSinkShape : Obligations.StepKeepsTheSinkShape := by
  intro s t ⟨hshape, hrun⟩ hstep
  obtain ⟨hrun', hshape'⟩ := sinkShape_kept.of_step hstep hrun hshape
  exact ⟨hshape', hrun'⟩

/-! ## What leaves the block (R62, R262) -/

theorem emittedOk_makePacket (q : SeqNum) {p : Bytes} (hp : p.length ≤ Config.mss) (a : Addr) :
    emittedOk { bytes := makePacket q p, addr := a } = true := by
  rw [mss_eq] at hp
  simp only [emittedOk, packetOk_makePacket q hp, makePacket_length, hdrLen_eq, maxDgram_eq, Bool.true_and,
    Bool.and_eq_true, decide_eq_true_eq]
  omega

theorem forall_mem_append_singleton {α : Type} {p : α → Prop} {l : List α} {a : α} (hl : ∀ m ∈ l, p m) (ha : p a) :
    ∀ m ∈ l ++ [a], p m :=
  List.forall_mem_append.mpr ⟨hl, List.forall_mem_singleton.mpr ha⟩

theorem Fires.keeps_emittedInv {s t : State} {i : Instr} (hf : Fires s i t) (h : EmittedInv s) : EmittedInv t := by
  obtain ⟨hs, hr⟩ := h
  cases hf with
  | sSend _ _ _ _ hlen => exact ⟨forall_mem_append_singleton hs (emittedOk_makePacket _ hlen _), hr⟩
  | sDoneEof => exact ⟨forall_mem_append_singleton hs (emittedOk_makePacket _ (by decide) _), hr⟩
  | rAckEof _ hlen | rAckNext _ hlen => exact ⟨hs, forall_mem_append_singleton hr (emittedOk_makePacket _ hlen _)⟩
  | _ => exact ⟨hs, hr⟩

theorem emittedInv_kept : KeptBy (fun _ => true) EmittedInv where
  script := fun _ _ h => h
  answer := fun _ _ h => h
  fires := fun _ _ _ hf h => hf.keeps_emittedInv h
  transport := fun hm ⟨hs, hr⟩ => by
    obtain ⟨-, hsub, hsub'⟩ := transportMove_next hm
    exact ⟨fun m hmem => hs m (hsub hmem), fun m hmem => hr m (hsub' hmem)⟩
  host := fun _ hm h => by
    rcases hostMove_next hm with ⟨ht, -⟩ | ⟨-, rfl⟩ | ⟨b, a, p, e, -, -, rfl⟩
    · rw [ht]
      exact h
    · exact h
    · exact h

/-- Settles O57: the three operations that emit make a packet of a payload within `MSS`. -/
theorem stepEmitsOnlyValidPackets : Obligations.StepEmitsOnlyValidPackets :=
  fun _ _ h hstep => emittedInv_kept.every_step hstep h

end Machine
end Sys2Proof
end

