-- ==== Sys2Proof/Proofs/Records.lean ====
section
/-! The encodings: the two select tables and the state codes (30_encoding.md R97 to R102), and the issue records, by
their formats. -/

namespace Sys2Proof
namespace Machine

/-! ## The tables -/

/-- Settles O2: the tables of 30_encoding.md, evaluated at the words written out. -/
theorem tableWordsAndStateCodes : Obligations.TableWordsAndStateCodes := by
  unfold Obligations.TableWordsAndStateCodes
  decide

theorem senderRows_fit_once (st : SenderState) (h c r e a o : Bool) (ha : o = true → a = true) (he : e = true → r = true) :
    (senderRows.filter fun row => row.fits (st.code ++ BitVec.ofBool h ++ BitVec.ofBool c ++ BitVec.ofBool r ++
      BitVec.ofBool e ++ BitVec.ofBool a ++ BitVec.ofBool o)).length = 1 := by
  cases st <;> revert h c r e a o <;> decide

theorem receiverRows_fit_once (st : ReceiverState) (c a i o x m e : Bool) :
    (receiverRows.filter fun row => row.fits (st.code ++ BitVec.ofBool c ++ BitVec.ofBool a ++ BitVec.ofBool i ++
      BitVec.ofBool o ++ BitVec.ofBool x ++ BitVec.ofBool m ++ BitVec.ofBool e)).length = 1 := by
  cases st <;> revert c a i o x m e <;> decide

/-- Settles O3: of the words that are no state's, a sender's state forms none: `ok` needs `avail`, and `expired` needs
`running`. -/
theorem exactlyOneSelectRowFits : Obligations.ExactlyOneSelectRowFits :=
  fun s => ⟨senderRows_fit_once _ _ _ _ _ _ _ (senderOk_avail s) (tmrExpired_run s.snd),
    receiverRows_fit_once _ _ _ _ _ _ _ _⟩

/-! ## The formats of the records -/

theorem decodeWireBytes_encodePacket (mk : SeqNum → Bytes → Bytes → Instr) (q : SeqNum) {c p : Bytes}
    (hc : tokenOk c = true) (hp : payloadOk p = true) :
    decodeWireBytes mk (encodePacket q c p) = .ok (mk q c p) := by
  simp only [decodeWireBytes, decodePacket_encodePacket_of_lengths q ((tokenOk_iff c).mp hc) ((payloadOk_iff p).mp hp)]

theorem decodeSeqPayload_seqByte (mk : SeqNum → Bytes → Instr) (q : SeqNum) {p : Bytes} (hp : payloadOk p = true) :
    decodeSeqPayload mk (seqByte q :: p) = .ok (mk q p) := by
  simp [decodeSeqPayload, hp]

theorem decodeSeqOnly_seqByte (mk : SeqNum → Instr) (q : SeqNum) : decodeSeqOnly mk [seqByte q] = .ok (mk q) := by
  simp [decodeSeqOnly]

/-- Settles O1: operands by the format of their record; an operation without operands has one record, which is
evaluated. -/
theorem decodeOfEncodeIsTheOperation : Obligations.DecodeOfEncodeIsTheOperation := by
  intro i hi
  cases i with
  | encode q c p | verify q c p =>
    obtain ⟨hc, hp⟩ := (Bool.and_eq_true _ _).mp hi
    exact decodeWireBytes_encodePacket _ q hc hp
  | mkpkt q p | checksum q p => exact decodeSeqPayload_seqByte _ q hi
  | ack q | eofpkt q => exact decodeSeqOnly_seqByte _ q
  | decode | pktOk => rfl
  | tmrStart | tmrStop | tmrTick | tmrIsRunning | tmrHasExpired | riTick => rfl
  | sCancel | sSend | sTimeout | sAckOk | sAckBad | sRetransmit | sAdvance | sDoneEof => rfl
  | rCancel | rRecv | rIdleTimeout | rDrop | rExt | rData | rEof | rDup | rAck => rfl

end Machine
end Sys2Proof
end

