-- ==== Sys2Proof/Proofs/Codec.lean ====
section
/-! The packet codec and the checksum unit (41_packet_codec.md, 42_checksum_unit.md): as functions, whose laws come
from what a token tells, and exercised by themselves, where the answer is the function's value or a refusal. -/

namespace Sys2Proof
namespace Machine

/-! ## The laws of the codec (R125, R146) -/

/-- Settles O5: the two halves are the codec's two laws. -/
theorem packetCodecIsAnInversePair : Obligations.PacketCodecIsAnInversePair :=
  ⟨fun q _ _ hc hp => decodePacket_encodePacket_of_lengths q hc hp, fun _ _ h => (decodePacket_some h).1.symm⟩

/-- Settles O6: an accepted datagram is the packet of its own fields, and a packet that was made is accepted. -/
theorem validPacketsAreTheMadeOnes : Obligations.ValidPacketsAreTheMadeOnes := by
  intro w
  constructor
  · intro h
    obtain ⟨k, -, hlen, hw⟩ := packetOk_decodes h
    exact ⟨k.seqNum, k.payload, hlen, hw⟩
  · rintro ⟨q, p, hlen, rfl⟩
    exact packetOk_makePacket q hlen

/-! ## What a token tells (R141, R145) -/

theorem popcount_zeros (n : Nat) : popcount (List.replicate n 0) = 0 := by
  induction n with
  | zero => rfl
  | succ n ih =>
    have hzero : popcount8 (0 : Byte) = 0 := by decide
    rw [List.replicate_succ, popcount_cons, ih, hzero]

theorem checksum_eq_iff {q q' : SeqNum} {p p' : Bytes} (hp : p.length ≤ Config.mss) (hp' : p'.length ≤ Config.mss) :
    checksum q p = checksum q' p' ↔ popcount p + q.value = popcount p' + q'.value :=
  ⟨dec8_injective (checksumValue_lt q hp) (checksumValue_lt q' hp'), congrArg dec8⟩

/-- Settles O8: within `MSS` a token tells its number, and zero bytes have no bits that are 1. -/
theorem checksumSeesOnlyTheBitCount : Obligations.ChecksumSeesOnlyTheBitCount := by
  refine ⟨fun _ _ _ _ => checksum_eq_iff, fun q p n => ?_⟩
  rw [checksum, checksum, checksumValue, checksumValue, popcount_append, popcount_zeros, Nat.add_zero]

/-! ## One bit flipped (R144) -/

theorem popcount8_flip_ne (x : Byte) {b : Nat} (hb : b < 8) : popcount8 (x ^^^ (1#8 <<< b)) ≠ popcount8 x := by
  interval_cases b <;> revert x <;> decide

theorem flipBit_cons_zero (x : Byte) (w : Bytes) (b : Nat) : flipBit (x :: w) 0 b = (x ^^^ (1#8 <<< b)) :: w := rfl

theorem flipBit_cons_succ (x : Byte) (w : Bytes) (k b : Nat) : flipBit (x :: w) (k + 1) b = x :: flipBit w k b := rfl

theorem popcount_flipBit_ne {w : Bytes} {k b : Nat} (hk : k < w.length) (hb : b < 8) :
    popcount (flipBit w k b) ≠ popcount w := by
  induction w generalizing k with
  | nil => simp at hk
  | cons x w ih =>
    cases k with
    | zero =>
      have hx := popcount8_flip_ne x hb
      simp only [flipBit_cons_zero, popcount_cons]
      omega
    | succ k =>
      have hw := ih (Nat.lt_of_succ_lt_succ hk)
      simp only [flipBit_cons_succ, popcount_cons]
      omega

theorem flipBit_ne {w : Bytes} {k b : Nat} (hk : k < w.length) (hb : b < 8) : flipBit w k b ≠ w :=
  fun h => popcount_flipBit_ne hk hb (congrArg popcount h)

theorem makePacket_eq (q : SeqNum) (p : Bytes) : makePacket q p = seqByte q :: (checksum q p ++ p) := rfl

theorem take_token (q : SeqNum) (p : Bytes) : (checksum q p ++ p).take 8 = checksum q p :=
  List.take_left' (checksum_length q p)

theorem drop_token (q : SeqNum) (p : Bytes) : (checksum q p ++ p).drop 8 = p :=
  List.drop_left' (checksum_length q p)

section Flips
variable {q q' : SeqNum} {p p' : Bytes} {k b : Nat} (hp : p.length ≤ Config.mss) (hp' : p'.length ≤ Config.mss)
  (hb : b < 8)
include hp hp' hb

/-- In the sequence byte: the same token and payload leave no other sequence number. -/
theorem flip_seqByte_ne : flipBit (makePacket q p) 0 b ≠ makePacket q' p' := by
  intro h
  rw [makePacket_eq, flipBit_cons_zero, makePacket_eq, List.cons.injEq] at h
  obtain ⟨hbyte, hrest⟩ := h
  obtain ⟨htoken, rfl⟩ := List.append_inj hrest rfl
  have hvalue : q.value = q'.value := Nat.add_left_cancel ((checksum_eq_iff hp hp').mp htoken)
  rw [← BitVec.eq_of_toNat_eq hvalue] at hbyte
  exact popcount8_flip_ne _ hb (congrArg popcount8 hbyte)

/-- After the sequence byte: a flip in the token leaves the payload, a flip in the payload leaves the token. -/
theorem flip_rest_ne (hk : k < (checksum q p ++ p).length) :
    flipBit (makePacket q p) (k + 1) b ≠ makePacket q' p' := by
  intro h
  rw [makePacket_eq, flipBit_cons_succ, makePacket_eq, List.cons.injEq] at h
  obtain ⟨hbyte, hrest⟩ := h
  obtain rfl := seqByte_injective hbyte
  have htoken := congrArg (List.take 8) hrest
  have hpayload := congrArg (List.drop 8) hrest
  rw [flipBit, List.take_modify, take_token, take_token] at htoken
  rw [flipBit, drop_token] at hpayload
  by_cases h8 : k < 8
  · rw [List.drop_modify_of_lt _ _ _ _ h8, drop_token] at hpayload
    subst hpayload
    exact flipBit_ne (w := checksum q p) h8 hb htoken
  · rw [List.drop_modify_of_ge _ _ _ _ (Nat.le_of_not_lt h8), drop_token] at hpayload
    rw [List.modify_eq_self (Nat.le_of_not_lt h8), checksum_eq_iff hp hp', ← hpayload] at htoken
    simp only [List.length_append, checksum_length] at hk
    exact popcount_flipBit_ne (w := p) (k := k - 8) (by omega) hb (Nat.add_right_cancel htoken).symm

end Flips

/-- Settles O7: an accepted datagram would be a packet that was made, and no flip makes one. -/
theorem everySingleBitFlipIsCaught : Obligations.EverySingleBitFlipIsCaught := by
  intro q p k b hp hk hb
  by_contra h
  obtain ⟨packet, -, hp', hw⟩ := packetOk_decodes (Bool.eq_true_of_not_eq_false h)
  cases k with
  | zero => exact flip_seqByte_ne hp hp' hb hw
  | succ k => exact flip_rest_ne hp hp' hb (Nat.lt_of_succ_lt_succ hk) hw

/-! ## The units exercised by themselves -/

theorem withOperands_of {b : Bool} (e : Result) (h : b = true) : withOperands b e = e := if_pos h

theorem withOperands_refuses {b : Bool} (e : Result) (h : b = false) : withOperands b e = .refused .operandOutsideType := by
  rw [withOperands, h]
  rfl

theorem payloadOk_of {p : Bytes} (h : p.length ≤ Config.mss) : payloadOk p = true := decide_eq_true h

theorem payloadOk_eq_false {p : Bytes} (h : Config.mss < p.length) : payloadOk p = false :=
  decide_eq_false (Nat.not_le.mpr h)

theorem tokenAndPayloadOk_of {c p : Bytes} (hc : c.length = 8) (hp : p.length ≤ Config.mss) :
    (tokenOk c && payloadOk p) = true := by
  rw [(tokenOk_iff c).mpr hc, payloadOk_of hp, Bool.and_self]

theorem tokenAndPayloadOk_eq_false {c p : Bytes} (h : c.length ≠ 8 ∨ Config.mss < p.length) :
    (tokenOk c && payloadOk p) = false := by
  rcases h with h | h
  · rw [show tokenOk c = false from decide_eq_false h, Bool.false_and]
  · rw [payloadOk_eq_false h, Bool.and_false]

/-- Settles O9: the payload is an operand of its type. -/
theorem checksumAnswersTheBitCount : Obligations.ChecksumAnswersTheBitCount :=
  fun _ _ _ hp => withOperands_of _ (payloadOk_of hp)

/-- Settles O10: each answers the packet of its operands; the marker's bits are counted in `eofPacket_eq`. -/
theorem encodersAnswerThePacket : Obligations.EncodersAnswerThePacket := by
  intro q c p s hc hp
  refine ⟨withOperands_of _ (tokenAndPayloadOk_of hc hp), withOperands_of _ (payloadOk_of hp),
    fun hack => withOperands_of _ (payloadOk_of hack), ?_⟩
  rw [← eofPacket_eq]
  rfl

theorem seqOfByte_eq_none_iff (b : Byte) : seqOfByte b = none ↔ b ≠ 0x30 ∧ b ≠ 0x31 := by
  revert b; decide

/-- R123: the three ways in which `DECODE` fails. -/
theorem decodePacket_eq_none {w : Bytes} (h : w.length < 9 ∨ 1009 < w.length ∨ (w[0]? ≠ some 0x30 ∧ w[0]? ≠ some 0x31)) :
    decodePacket w = none := by
  rcases hd : decodePacket w with _ | k
  · rfl
  · obtain ⟨rfl, hc, hp⟩ := decodePacket_some hd
    rw [encodePacket_length] at h
    rcases h with h | h | ⟨h0, h1⟩
    · omega
    · omega
    · have hbyte : seqOfByte (seqByte k.seqNum) = none :=
        (seqOfByte_eq_none_iff _).mpr ⟨fun h => h0 (congrArg some h), fun h => h1 (congrArg some h)⟩
      simp at hbyte

theorem exec_decode_of_some {w : Bytes} {k : Packet} (s : State) (h : decodePacket w = some k) :
    exec (.decode w) s = .next (s.answer (.packet k)) := by
  simp only [exec, execDecode, h]

theorem exec_decode_of_none {w : Bytes} (s : State) (h : decodePacket w = none) :
    exec (.decode w) s = .next (s.answer .malformed) := by
  simp only [exec, execDecode, h]

/-- Settles O11: a sequence byte, 8 bytes and a payload are a packet of the codec; the other clause is where `DECODE`
fails. -/
theorem decoderAnswersThePacketOrMalformed : Obligations.DecoderAnswersThePacketOrMalformed := by
  intro w s
  refine ⟨fun q c p hc hp hw => ?_, fun h => exec_decode_of_none s (decodePacket_eq_none h)⟩
  subst hw
  exact exec_decode_of_some s (decodePacket_encodePacket_of_lengths q hc hp)

theorem verify_eq_decide (q : SeqNum) (c p : Bytes) : verify q c p = decide (dec8 (popcount p + q.toNat) = c) := by
  rw [Bool.eq_iff_iff, decide_eq_true_iff]
  exact beq_iff_eq

theorem exec_pktOk (w : Bytes) (s : State) : exec (.pktOk w) s = .next (s.answer (.bit (packetOk w))) := rfl

theorem packetOk_of_some {w : Bytes} {k : Packet} (h : decodePacket w = some k) :
    packetOk w = verify k.seqNum k.token k.payload := by
  rw [packetOk, h]

theorem packetOk_of_none {w : Bytes} (h : decodePacket w = none) : packetOk w = false := by
  rw [packetOk, h]

/-- Settles O12: `PKT_OK` by the result of `DECODE`. -/
theorem verifiersAnswerTheComparison : Obligations.VerifiersAnswerTheComparison := by
  intro q c p w s
  refine ⟨fun hc hp => ?_, fun k hk => ?_, fun hn => ?_⟩
  · rw [← verify_eq_decide]
    exact withOperands_of _ (tokenAndPayloadOk_of hc hp)
  · rw [exec_pktOk, packetOk_of_some hk, verify_eq_decide]
    rfl
  · rw [exec_pktOk, packetOk_of_none hn]
    rfl

/-! ## Operands outside their types (R120, R319, R61) -/

section Stops
variable {s : State} (hr : s.host.rst = false)
include hr

theorem exec_rAck_refuses (hst : s.rcv.state = .ack) (hlen : Config.mss < s.params.ackPayload.length) :
    exec .rAck s = .refused .operandOutsideType := by
  simp only [exec, execRAck, payloadOk_eq_false hlen]
  exact fireAgent_of _ hr (beq_iff_eq.mpr hst)

variable (hst : s.snd.state = .send) (hc : s.host.sCancel = false) (hi : s.snd.idx < s.host.nUnits)
include hst hc hi

theorem exec_sSend_of_absent (hm : memRead s.host.units s.snd.idx = none) :
    exec .sSend s = .fault (.absentUnit s.snd.idx) := by
  simp only [exec, execSSend, hm]
  exact fireAgent_of _ hr (by simp [hst, hc, unitLeft_iff.mpr hi])

theorem exec_sSend_of_oversized {p : Bytes} (hm : memRead s.host.units s.snd.idx = some p)
    (hlen : Config.mss < p.length) : exec .sSend s = .refused .oversizedUnit := by
  simp only [exec, execSSend, hm, payloadOk_eq_false hlen]
  exact fireAgent_of _ hr (by simp [hst, hc, unitLeft_iff.mpr hi])

end Stops

/-- Settles O13: each operation checks its operands before its effect. -/
theorem operandsOutsideTheirTypesStop : Obligations.OperandsOutsideTheirTypesStop := by
  intro q c p s
  refine ⟨fun h => ?_, fun hp => ?_, fun ha => ?_, fun hr hst hc hi => ?_⟩
  · exact ⟨withOperands_refuses _ (tokenAndPayloadOk_eq_false h), withOperands_refuses _ (tokenAndPayloadOk_eq_false h)⟩
  · exact ⟨withOperands_refuses _ (payloadOk_eq_false hp), withOperands_refuses _ (payloadOk_eq_false hp)⟩
  · exact ⟨withOperands_refuses _ (payloadOk_eq_false ha), fun hr hst => exec_rAck_refuses hr hst ha⟩
  · exact ⟨exec_sSend_of_absent hr hst hc hi, exec_sSend_of_oversized hr hst hc hi⟩

end Machine
end Sys2Proof
end

