-- ==== Sys2Proof/Proofs/Turns.lean ====
section
/-! Which operations answer next, and which change nothing: outside the selected one (30_encoding.md R101, R102), in
reset (70_reset_and_hazards.md R290), and in a configured run, where nothing stops (60_exceptions.md R262). -/

namespace Sys2Proof
namespace Machine

/-! ## A step is its turn (R8) -/

theorem step_cons {s : State} {turn : Turn} {rest : List Turn} (hs : s.script = turn :: rest) :
    step s = runTurn turn { s with script := rest } := takeTurn_cons hs

/-- Settles O43: the turn by its kind. -/
theorem stepRunsTheSelectedOperation : Obligations.StepRunsTheSelectedOperation := by
  intro s rest i
  refine ⟨step_of_ssel_fires, step_of_rsel_fires, step_cons, step_cons, fun record hs hd => ?_, takeTurn_nil⟩
  rw [step_cons hs, runTurn, unitTurn, hd]

/-! ## Operations that cannot stop -/

theorem fireAgent_answers {c : Bool} {s : State} {e : Result} (he : c = true → ∃ t, e = .next t) :
    ∃ t, fireAgent c s e = .next t := by
  cases hc : s.host.rst <;> cases c
  · exact ⟨s, fireAgent_of_false s e rfl⟩
  · rw [fireAgent_of e hc rfl]
    exact he rfl
  · exact ⟨s, fireAgent_of_false s e rfl⟩
  · exact ⟨s, fireAgent_reset e hc⟩

/-- `S_SEND`, which reads the unit store, and `R_ACK`, which has an operand, are the only operations of the agents that
can stop. -/
theorem exec_answers {i : Instr} (s : State) (hi : Instr.isPure i = false) (hs : i ≠ .sSend) (hr : i ≠ .rAck) :
    ∃ t, exec i s = .next t := by
  cases i with
  | tmrStart | tmrStop | tmrTick | riTick => exact fireAgent_answers fun _ => ⟨_, rfl⟩
  | sCancel | sTimeout | sAckOk | sRetransmit | sAdvance | sDoneEof => exact fireAgent_answers fun _ => ⟨_, rfl⟩
  | rCancel | rIdleTimeout | rDrop => exact fireAgent_answers fun _ => ⟨_, rfl⟩
  | sAckBad =>
    simp only [exec, execSAckBad]
    split
    · exact ⟨_, rfl⟩
    · exact fireAgent_answers fun _ => ⟨_, rfl⟩
  | rRecv =>
    simp only [exec, execRRecv]
    split
    · exact ⟨_, rfl⟩
    · exact fireAgent_answers fun _ => ⟨_, rfl⟩
  | rExt | rData | rEof | rDup =>
    simp only [exec, execRExt, execRData, execREof, execRDup]
    split
    · exact ⟨_, rfl⟩
    · exact fireAgent_answers fun _ => ⟨_, rfl⟩
  | sSend => exact absurd rfl hs
  | rAck => exact absurd rfl hr
  | encode | decode | mkpkt | ack | eofpkt | checksum | verify | pktOk | tmrIsRunning | tmrHasExpired => cases hi

/-! ## An operation that is not selected -/

/-- An effect of a sender's operation is the one its select word picks. -/
theorem Fires.ssel_picks {s t : State} {i : Instr} (hf : Fires s i t) (hi : i ∈ senderOperations) :
    decodeSsel s.ssel = .fire i := by
  cases hf with
  | sCancel hst hc => exact ssel_fires_sCancel hst hc
  | sSend hst hc => exact ssel_fires_sSend hst hc
  | sTimeout hst hc ht => exact ssel_fires_sTimeout hst hc ht
  | sAckOk hst hc ht hok =>
    obtain ⟨m, hm⟩ := Option.isSome_iff_exists.mp (senderOk_avail s hok)
    exact (ssel_of_offered hst hc ht hm).trans (if_pos ((senderOk_of_offered hm).symm.trans hok))
  | sAckBad hst hc ht hm hok => exact (ssel_of_offered hst hc ht hm).trans (if_neg (Bool.not_eq_true _ ▸ hok))
  | sRetransmit hst hc => exact ssel_fires_sRetransmit hst hc
  | sAdvance hst hc => exact ssel_fires_sAdvance hst hc
  | sDoneEof hst hh => exact ssel_fires_sDoneEof hst hh
  | _ => exact absurd hi (by decide)

/-- The same for the receiver. -/
theorem Fires.rsel_picks {s t : State} {i : Instr} (hf : Fires s i t) (hi : i ∈ receiverOperations) :
    decodeRsel s.rsel = .fire i := by
  cases hf with
  | rCancel hst hc => exact rsel_fires_rCancel hst hc
  | rRecv hst hc hm => exact rsel_fires_rRecv hst hc (by simp [hm])
  | rIdleTimeout hst hc hm hcnt => exact rsel_fires_rIdleTimeout hst hc hm hcnt
  | rDrop hst hok => exact rsel_fires_rDrop hst hok
  | rExt hst hk hx => exact rsel_fires_rExt hst (packet_some hk).1 hx
  | rData hst hk hx hq he => exact rsel_fires_rData hst hk hx hq (beq_eq_false_iff_ne.mp he)
  | rEof hst hk hx hq he => exact rsel_fires_rEof hst hk hx hq (beq_iff_eq.mp he)
  | rDup hst hk hx hq => exact rsel_fires_rDup hst hk hx hq
  | rAckEof hst | rAckNext hst => exact rsel_fires_rAck hst
  | _ => exact absurd hi (by decide)

theorem exec_sSend_not_picked {s : State} (h : decodeSsel s.ssel ≠ .fire .sSend) : exec .sSend s = .next s := by
  refine fireAgent_of_false s _ (Bool.eq_false_of_not_eq_true fun hc => h ?_)
  simp only [Bool.and_eq_true, beq_iff_eq, Bool.not_eq_true'] at hc
  exact ssel_fires_sSend hc.1.1 hc.1.2

theorem exec_rAck_not_picked {s : State} (h : decodeRsel s.rsel ≠ .fire .rAck) : exec .rAck s = .next s :=
  fireAgent_of_false s _ (Bool.eq_false_of_not_eq_true fun hc => h (rsel_fires_rAck (beq_iff_eq.mp hc)))

/-- An operation that cannot stop and has no effect changes nothing. -/
theorem exec_eq_next_self {i : Instr} {s : State} (hi : Instr.isPure i = false) (hs : i ≠ .sSend) (hr : i ≠ .rAck)
    (hno : s.host.rst = false → ∀ t, ¬ Fires s i t) : exec i s = .next s := by
  obtain ⟨t, ht⟩ := exec_answers s hi hs hr
  rcases exec_next hi ht with rfl | ⟨hrst, hf⟩
  · exact ht
  · exact absurd hf (hno hrst t)

/-- Settles O44: what has an effect was picked; of the two operations that can stop, the select word looks at the whole
condition but the index. -/
theorem onlyTheSelectedOperationFires : Obligations.OnlyTheSelectedOperationFires := by
  intro s _
  refine ⟨fun i hi hne => ?_, fun i hi hne => ?_⟩
  · by_cases hs : i = .sSend
    · subst hs
      exact exec_sSend_not_picked hne
    · exact exec_eq_next_self (isPure_of_mem (by simp [hi])) hs (by rintro rfl; revert hi; decide)
        fun _ t hf => hne (hf.ssel_picks hi)
  · by_cases hr : i = .rAck
    · subst hr
      exact exec_rAck_not_picked hne
    · exact exec_eq_next_self (isPure_of_mem (by simp [hi])) (by rintro rfl; revert hi; decide) hr
        fun _ t hf => hne (hf.rsel_picks hi)

/-! ## Reset (R290, R291) -/

/-- R290: in reset no operation of an agent changes anything. -/
theorem exec_in_reset {i : Instr} {s : State} (hi : Instr.isPure i = false) (hon : s.host.rst = true) :
    exec i s = .next s := by
  by_cases hs : i = .sSend
  · subst hs
    exact fireAgent_reset _ hon
  · by_cases hr : i = .rAck
    · subst hr
      exact fireAgent_reset _ hon
    · exact exec_eq_next_self hi hs hr fun hoff => by simp [hon] at hoff

/-- R290: in reset the turns and ticks of the agents are spent without effect. -/
theorem runTurn_in_reset {turn : Turn} {s : State} (hon : s.host.rst = true)
    (hturn : turn ∈ [Turn.sender, Turn.receiver, Turn.senderTick, Turn.receiverTick]) : runTurn turn s = .next s := by
  simp only [List.mem_cons, List.not_mem_nil, or_false] at hturn
  rcases hturn with rfl | rfl | rfl | rfl
  · exact if_pos hon
  · exact if_pos hon
  · exact exec_in_reset (i := .tmrTick) rfl hon
  · exact exec_in_reset (i := .riTick) rfl hon

theorem hostMove_releaseReset {s : State} (hon : s.host.rst = true) (buf : Bytes) (src peer : Addr) (ext : Bytes) :
    hostMove (.releaseReset buf src peer ext) s = .next (s.afterReset buf src peer ext) := if_pos hon

/-- Settles O51: the raise and the release are `intoReset` and `afterReset`, whose registers are written out in the
statement. -/
theorem resetHoldsAndReleases : Obligations.ResetHoldsAndReleases := by
  intro s rest
  refine ⟨step_cons, fun hon => ⟨fun turn hturn hs => ?_, fun i hi => exec_in_reset (isPure_of_mem hi) hon,
    fun buf src peer ext hs => ?_⟩⟩
  · rw [step_cons hs]
    exact runTurn_in_reset hon hturn
  · rw [step_cons hs]
    exact hostMove_releaseReset (s := { s with script := rest }) hon buf src peer ext

/-- Settles O52: every invariant's clause is a fact of the reset values or of the inputs given. -/
theorem resetMeetsTheInvariants : Obligations.ResetMeetsTheInvariants := by
  refine ⟨rfl, fun params host buf src peer ext script hp hdest hsrc hpeer hext hagents hrun => ⟨?_, ?_, ?_, ?_, ?_, ?_⟩⟩
  · exact ⟨Sender.reset_inv params, Receiver.resetWith_inv hp buf src peer hext, hagents, nofun⟩
  · exact Sender.reset_alternates
  · refine ⟨nofun, fun _ h1 _ => ?_⟩
    change 1#32 ≤ host.nUnits at h1
    change 0#32 < host.nUnits
    bv_omega
  · exact ⟨nofun, nofun⟩
  · exact ⟨⟨[], nofun, fun _ => rfl, rfl⟩, hrun⟩
  · exact ⟨hdest, hsrc, hpeer, nofun, nofun, nofun, nofun, nofun, nofun, nofun⟩

/-! ## A configured run (R262, R301) -/

/-- R301 (b): below `n_units` the store holds a unit of at most `MSS` bytes. -/
theorem memRead_of_configured {m : Memory} {n i : BitVec 32} (hwf : Memory.wf m = true) (hlen : m.length = n.toNat)
    (hi : i < n) : ∃ p, memRead m i = some p ∧ payloadOk p = true := by
  have hlt : i.toNat < m.length := hlen ▸ hi
  have hread : memRead m i = some m[i.toNat] := List.getElem?_eq_getElem hlt
  exact ⟨_, hread, payloadOk_of_memRead hwf hread⟩

theorem exec_sSend_answers {s : State} (hwf : Memory.wf s.host.units = true)
    (hlen : s.host.units.length = s.host.nUnits.toNat) : ∃ t, exec .sSend s = .next t := by
  refine fireAgent_answers fun hc => ?_
  simp only [Bool.and_eq_true, unitLeft_iff] at hc
  obtain ⟨p, hp, hok⟩ := memRead_of_configured hwf hlen hc.2
  simp only [hp, if_pos hok]
  exact ⟨_, rfl⟩

theorem exec_rAck_answers {s : State} (hp : payloadOk s.params.ackPayload = true) : ∃ t, exec .rAck s = .next t :=
  fireAgent_answers fun _ => ⟨_, withOperands_of _ hp⟩

/-- R262: in a configured machine no operation of an agent stops. -/
theorem exec_answers_of_configured {s : State} (hcfg : s.configured = true) {i : Instr} (hi : Instr.isPure i = false) :
    ∃ t, exec i s = .next t := by
  simp only [State.configured, Config.Params.wf, Bool.and_eq_true, decide_eq_true_eq] at hcfg
  obtain ⟨⟨⟨⟨-, hack⟩, -⟩, hwf⟩, hlen⟩ := hcfg
  by_cases hs : i = .sSend
  · subst hs
    exact exec_sSend_answers hwf hlen
  · by_cases hr : i = .rAck
    · subst hr
      exact exec_rAck_answers (payloadOk_of hack)
    · exact exec_answers s hi hs hr

theorem transportMove_answers (m : TransportMove) (s : State) : ∃ t, transportMove m s = .next t := by
  cases m with
  | duplicate d k =>
    simp only [transportMove, fire]
    split <;> exact ⟨_, rfl⟩
  | accept | inject | drop | corrupt | offer | withdraw => exact ⟨_, rfl⟩

/-- A machine's word that picks an operation picks one of its own, and no word is without a row. -/
theorem senderTurn_answers {s : State} (hcfg : s.configured = true) : ∃ t, senderTurn s = .next t := by
  unfold senderTurn
  split
  · exact ⟨_, rfl⟩
  · rcases ssel_cases s with h | h | ⟨i, hi, h⟩ <;> rw [h]
    · exact ⟨_, rfl⟩
    · exact ⟨_, rfl⟩
    · exact exec_answers_of_configured hcfg (isPure_of_mem (by simp [hi]))

theorem receiverTurn_answers {s : State} (hcfg : s.configured = true) : ∃ t, receiverTurn s = .next t := by
  unfold receiverTurn
  split
  · exact ⟨_, rfl⟩
  · rcases rsel_cases s with h | h | ⟨i, hi, h⟩ <;> rw [h]
    · exact ⟨_, rfl⟩
    · exact ⟨_, rfl⟩
    · exact exec_answers_of_configured hcfg (isPure_of_mem (by simp [hi]))

theorem runTurn_answers {turn : Turn} {s : State} (hcfg : s.configured = true) (hagent : turn.ofAgent = true)
    (hrun : turn.withinRun = true) : ∃ t, runTurn turn s = .next t := by
  cases turn with
  | sender => exact senderTurn_answers hcfg
  | receiver => exact receiverTurn_answers hcfg
  | senderTick => exact exec_answers_of_configured (i := .tmrTick) hcfg rfl
  | receiverTick => exact exec_answers_of_configured (i := .riTick) hcfg rfl
  | unit => cases hagent
  | transport m => exact transportMove_answers m s
  | host m =>
    cases m with
    | setSenderCancel | setReceiverCancel => exact ⟨_, rfl⟩
    | raiseReset | releaseReset | load => cases hrun

/-- Settles O48: the turn at the head of the script is an agent's, of one run. -/
theorem noDatagramStopsTheBlock : Obligations.NoDatagramStopsTheBlock := by
  intro s hcfg hagents hrun
  cases hs : s.script with
  | nil => exact ⟨s, takeTurn_nil hs⟩
  | cons turn rest =>
    rw [step_cons hs]
    refine runTurn_answers hcfg ?_ ?_
    · exact List.all_eq_true.mp hagents turn (by simp [hs])
    · exact List.all_eq_true.mp hrun turn (by simp [hs])

end Machine
end Sys2Proof
end

