-- ==== Sys2Proof/Proofs/Views.lean ====
section
/-! Two runs seen through a view: what an endpoint does depends on its own side (10_state.md R20, R3), and the four
registers without a reset value are not read before they are written (10_state.md R36, R38; U7). -/

namespace Sys2Proof
namespace Machine

/-! ## An operation in two states -/

section Observe
variable {α : Type} {v v' : State → α} {s s' : State}

/-- An operation does the same in two states if its condition is the same there and its effect is. -/
theorem observe_fireAgent {c c' : Bool} {e e' : Result} (hrst : s.host.rst = s'.host.rst) (hc : c = c')
    (hv : v s = v' s') (he : c = true → observe v e = observe v' e') :
    observe v (fireAgent c s e) = observe v' (fireAgent c' s' e') := by
  subst hc
  cases hr : s.host.rst <;> cases c
  · rw [fireAgent_of_false s e rfl, fireAgent_of_false s' e' rfl]
    exact congrArg Host.Outcome.next hv
  · rw [fireAgent_of e hr rfl, fireAgent_of e' (hrst.symm.trans hr) rfl]
    exact he rfl
  · rw [fireAgent_of_false s e rfl, fireAgent_of_false s' e' rfl]
    exact congrArg Host.Outcome.next hv
  · rw [fireAgent_reset e hr, fireAgent_reset e' (hrst.symm.trans hr)]
    exact congrArg Host.Outcome.next hv

theorem observe_withOperands {b b' : Bool} {e e' : Result} (hb : b = b') (he : b = true → observe v e = observe v' e') :
    observe v (withOperands b e) = observe v' (withOperands b' e') := by
  subst hb
  cases b
  · rfl
  · exact he rfl

/-- `S_SEND` reads the store at the index, and stops alike in two states that agree on both. -/
theorem observe_sSend (hrst : s.host.rst = s'.host.rst) (hsnd : s.snd = s'.snd) (hc : s.host.sCancel = s'.host.sCancel)
    (hn : s.host.nUnits = s'.host.nUnits) (hunits : s.host.units = s'.host.units) (hv : v s = v' s')
    (hsend : ∀ p, v (s.sendUnit p) = v' (s'.sendUnit p)) :
    observe v (exec .sSend s) = observe v' (exec .sSend s') := by
  refine observe_fireAgent hrst (by simp only [State.unitLeft, hsnd, hc, hn]) hv fun _ => ?_
  rw [hsnd, hunits]
  split
  · rfl
  · rename_i p _
    split
    · exact congrArg Host.Outcome.next (by simpa only [State.sendUnit, hsnd] using hsend p)
    · rfl

/-- The operations on the packet in `r_buf` do the same if they are given the same packet. -/
theorem observe_packet {f f' : Packet → Result} (hk : s.rcv.packet = s'.rcv.packet) (hv : v s = v' s')
    (hf : ∀ k, observe v (f k) = observe v' (f' k)) :
    observe v (match s.rcv.packet with | none => Host.Outcome.next s | some k => f k) =
      observe v' (match s'.rcv.packet with | none => Host.Outcome.next s' | some k => f' k) := by
  rw [hk]
  split
  · exact congrArg Host.Outcome.next hv
  · exact hf _

theorem observe_runSelection {x : Selection} (hv : v s = v' s')
    (hf : ∀ i, x = .fire i → observe v (exec i s) = observe v' (exec i s')) :
    observe v (runSelection x s) = observe v' (runSelection x s') := by
  cases x with
  | fire i => exact hf i rfl
  | hold | terminal => exact congrArg Host.Outcome.next hv
  | noRow => rfl

end Observe

/-! ## The sender's side (R101, R301) -/

/-- The machine `s'` with the sender's side of `s`. -/
def State.withSenderOf (s' s : State) : State :=
  { s' with
    host := { s.host with rCancel := s'.host.rCancel }
    snd := s.snd
    chan := { s'.chan with sTx := s.chan.sTx, sRx := s.chan.sRx }
    log := { s'.log with sDiag := s.log.sDiag } }

section SenderSide
variable {s s' : State}

theorem senderView_eq_iff : senderView s' = senderView s ↔
    s'.params.txTimeoutTicks = s.params.txTimeoutTicks ∧ s' = s'.withSenderOf s := by
  constructor
  · intro h
    simp only [senderView, Prod.mk.injEq] at h
    obtain ⟨hticks, hrst, hcancel, hn, hdest, hunits, hsnd, htx, hrx, hdiag⟩ := h
    exact ⟨hticks, by simp only [State.withSenderOf, ← hrst, ← hcancel, ← hn, ← hdest, ← hunits, ← hsnd, ← htx, ← hrx, ← hdiag]⟩
  · rintro ⟨hticks, h⟩
    rw [h]
    exact Prod.ext hticks rfl

variable (hticks : s'.params.txTimeoutTicks = s.params.txTimeoutTicks)
include hticks

/-- An effect that is one state, whatever the operands. -/
theorem observe_sender_effect {c : Bool} {u u' : State} (hu : senderView u' = senderView u) :
    observe senderView (fireAgent c (s'.withSenderOf s) (.next u')) = observe senderView (fireAgent c s (.next u)) :=
  observe_fireAgent rfl rfl (Prod.ext hticks rfl) fun _ => congrArg Host.Outcome.next hu

theorem exec_withSenderOf {i : Instr} (hi : i ∈ .tmrTick :: senderOperations) :
    observe senderView (exec i (s'.withSenderOf s)) = observe senderView (exec i s) := by
  have hv : senderView (s'.withSenderOf s) = senderView s := Prod.ext hticks rfl
  cases i with
  | sSend =>
    refine observe_sSend rfl rfl rfl rfl rfl hv fun p => Prod.ext hticks ?_
    simp [State.withSenderOf, State.sendUnit, senderView, hticks]
  | sAckBad =>
    have hrx : (s'.withSenderOf s).chan.sRx = s.chan.sRx := rfl
    simp only [exec, execSAckBad, hrx]
    split
    · exact congrArg Host.Outcome.next hv
    · exact observe_sender_effect hticks (Prod.ext hticks rfl)
  | tmrTick | sCancel | sTimeout | sAckOk | sRetransmit | sAdvance | sDoneEof =>
    exact observe_sender_effect hticks (Prod.ext hticks rfl)
  | _ => simp [senderOperations] at hi

theorem senderTurn_withSenderOf :
    observe senderView (senderTurn (s'.withSenderOf s)) = observe senderView (senderTurn s) := by
  have hv : senderView (s'.withSenderOf s) = senderView s := Prod.ext hticks rfl
  have hrst : (s'.withSenderOf s).host.rst = s.host.rst := rfl
  have hsel : (s'.withSenderOf s).ssel = s.ssel := rfl
  rw [senderTurn, senderTurn, hrst, hsel]
  split
  · exact congrArg Host.Outcome.next hv
  · refine observe_runSelection hv fun i hi => exec_withSenderOf hticks (List.mem_cons_of_mem _ ?_)
    rw [decodeSsel_ssel] at hi
    exact senderChoice_fire hi

theorem runTurn_withSenderOf {turn : Turn} (hturn : turn ∈ [Turn.sender, Turn.senderTick]) :
    observe senderView (runTurn turn (s'.withSenderOf s)) = observe senderView (runTurn turn s) := by
  rw [List.mem_cons, List.mem_singleton] at hturn
  rcases hturn with rfl | rfl
  · exact senderTurn_withSenderOf hticks
  · exact exec_withSenderOf hticks (i := .tmrTick) (by decide)

end SenderSide

/-! ## The receiver's side (R102: "The receiver endpoint needs no configuration") -/

/-- The machine `s'` with the receiver's side of `s`. -/
def State.withReceiverOf (s' s : State) : State :=
  { s' with
    host := { s'.host with rst := s.host.rst, rCancel := s.host.rCancel }
    rcv := s.rcv
    chan := { s'.chan with rTx := s.chan.rTx, rRx := s.chan.rRx }
    log := { s'.log with sink := s.log.sink, rDiag := s.log.rDiag } }

section ReceiverSide
variable {s s' : State}

theorem receiverView_eq_iff : receiverView s' = receiverView s ↔
    (s'.params.rxTimeoutTicks = s.params.rxTimeoutTicks ∧ s'.params.ackPayload = s.params.ackPayload) ∧
      s' = s'.withReceiverOf s := by
  constructor
  · intro h
    simp only [receiverView, Prod.mk.injEq] at h
    obtain ⟨hticks, hack, hrst, hcancel, hrcv, htx, hrx, hsink, hdiag⟩ := h
    exact ⟨⟨hticks, hack⟩,
      by simp only [State.withReceiverOf, ← hrst, ← hcancel, ← hrcv, ← htx, ← hrx, ← hsink, ← hdiag]⟩
  · rintro ⟨⟨hticks, hack⟩, h⟩
    rw [h]
    exact Prod.ext hticks (Prod.ext hack rfl)

variable (hticks : s'.params.rxTimeoutTicks = s.params.rxTimeoutTicks)
  (hack : s'.params.ackPayload = s.params.ackPayload)
include hticks hack

theorem observe_receiver_effect {c : Bool} {u u' : State} (hu : receiverView u' = receiverView u) :
    observe receiverView (fireAgent c (s'.withReceiverOf s) (.next u')) = observe receiverView (fireAgent c s (.next u)) :=
  observe_fireAgent rfl rfl (Prod.ext hticks (Prod.ext hack rfl)) fun _ => congrArg Host.Outcome.next hu

theorem exec_withReceiverOf {i : Instr} (hi : i ∈ .riTick :: receiverOperations) :
    observe receiverView (exec i (s'.withReceiverOf s)) = observe receiverView (exec i s) := by
  have hv : receiverView (s'.withReceiverOf s) = receiverView s := Prod.ext hticks (Prod.ext hack rfl)
  cases i with
  | rRecv =>
    have hrx : (s'.withReceiverOf s).chan.rRx = s.chan.rRx := rfl
    simp only [exec, execRRecv, hrx]
    split
    · exact congrArg Host.Outcome.next hv
    · exact observe_receiver_effect hticks hack (Prod.ext hticks (Prod.ext hack rfl))
  | rDrop =>
    refine observe_receiver_effect hticks hack (Prod.ext hticks (Prod.ext hack ?_))
    simp [State.withReceiverOf, receiverView, hticks]
  | rExt | rData | rEof | rDup =>
    exact observe_packet rfl hv fun k => observe_receiver_effect hticks hack (Prod.ext hticks (Prod.ext hack rfl))
  | rAck =>
    refine observe_fireAgent rfl rfl hv fun _ => observe_withOperands (congrArg payloadOk hack) fun _ => ?_
    refine congrArg Host.Outcome.next (Prod.ext ?_ (Prod.ext ?_ ?_)) <;> cases he : s.rcv.eof <;>
      simp [State.withReceiverOf, receiverView, ackPacket, hticks, hack, he]
  | riTick | rCancel | rIdleTimeout =>
    exact observe_receiver_effect hticks hack (Prod.ext hticks (Prod.ext hack rfl))
  | _ => simp [receiverOperations] at hi

theorem receiverTurn_withReceiverOf :
    observe receiverView (receiverTurn (s'.withReceiverOf s)) = observe receiverView (receiverTurn s) := by
  have hv : receiverView (s'.withReceiverOf s) = receiverView s := Prod.ext hticks (Prod.ext hack rfl)
  have hrst : (s'.withReceiverOf s).host.rst = s.host.rst := rfl
  have hsel : (s'.withReceiverOf s).rsel = s.rsel := rfl
  rw [receiverTurn, receiverTurn, hrst, hsel]
  split
  · exact congrArg Host.Outcome.next hv
  · refine observe_runSelection hv fun i hi => exec_withReceiverOf hticks hack (List.mem_cons_of_mem _ ?_)
    rw [decodeRsel_rsel] at hi
    exact receiverChoice_fire hi

theorem runTurn_withReceiverOf {turn : Turn} (hturn : turn ∈ [Turn.receiver, Turn.receiverTick]) :
    observe receiverView (runTurn turn (s'.withReceiverOf s)) = observe receiverView (runTurn turn s) := by
  rw [List.mem_cons, List.mem_singleton] at hturn
  rcases hturn with rfl | rfl
  · exact receiverTurn_withReceiverOf hticks hack
  · exact exec_withReceiverOf hticks hack (i := .riTick) (by decide)

end ReceiverSide

/-- Settles O46: a machine that agrees on a side is the other one with that side put in its place. -/
theorem endpointsDoNotInterfere : Obligations.EndpointsDoNotInterfere := by
  refine fun s s' rest rest' => ⟨fun turn hturn hs hs' h => ?_, fun turn hturn hs hs' h => ?_⟩
  · obtain ⟨hticks, heq⟩ := senderView_eq_iff.mp h.symm
    have hrun := runTurn_withSenderOf (s := { s with script := rest }) (s' := { s' with script := rest' }) hticks hturn
    rw [step_cons hs, step_cons hs', ← hrun]
    exact congrArg (fun x : State => observe senderView (runTurn turn { x with script := rest' })) heq.symm
  · obtain ⟨⟨hticks, hack⟩, heq⟩ := receiverView_eq_iff.mp h.symm
    have hrun := runTurn_withReceiverOf (s := { s with script := rest }) (s' := { s' with script := rest' }) hticks hack
      hturn
    rw [step_cons hs, step_cons hs', ← hrun]
    exact congrArg (fun x : State => observe receiverView (runTurn turn { x with script := rest' })) heq.symm

end Machine
end Sys2Proof
end

