-- ==== Sys2Proof/Proofs/Unspecified.lean ====
section
/-! The four registers without a reset value (10_state.md R36, R38; 93_implementation_defined.md U7): two machines that
differ in them only do the same, until a step has written them in both. -/

namespace Sys2Proof
namespace Machine

/-! ## Two machines that differ in the receiver's registers -/

section OtherReceiver
variable {α : Type} {v : State → α} {s : State} {r : Receiver}

/-- A move of the transport reads the channels and the parameters, and writes the channels. -/
theorem observe_transportMove (m : TransportMove) (hv : ∀ c, v { s with chan := c } = v { s with rcv := r, chan := c }) :
    observe v (transportMove m s) = observe v (transportMove m { s with rcv := r }) := by
  cases m with
  | duplicate d k =>
    simp only [transportMove, fire]
    split
    · exact congrArg Host.Outcome.next (hv _)
    · exact congrArg Host.Outcome.next (hv s.chan)
  | accept | inject | drop | corrupt | offer | withdraw => exact congrArg Host.Outcome.next (hv _)

/-- A move of the host reads and writes its inputs, or moves `rst`. -/
theorem observe_hostMove (m : HostMove) (hv : ∀ x, v { s with host := x } = v { s with rcv := r, host := x })
    (hinto : v s.intoReset = v { s with rcv := r }.intoReset) :
    observe v (hostMove m s) = observe v (hostMove m { s with rcv := r }) := by
  cases m with
  | releaseReset =>
    simp only [hostMove, fire]
    split
    · rfl
    · exact congrArg Host.Outcome.next (hv s.host)
  | load =>
    simp only [hostMove]
    split
    · exact congrArg Host.Outcome.next (hv _)
    · rfl
  | setSenderCancel | setReceiverCancel => exact congrArg Host.Outcome.next (hv _)
  | raiseReset => exact congrArg Host.Outcome.next hinto

/-- If the receiver picks the same operation, and every operation and move does the same in both, then so does a step. -/
theorem observe_step (hrsel : decodeRsel s.rsel = decodeRsel { s with rcv := r }.rsel)
    (hv : ∀ rest, v { s with script := rest } = v { s with rcv := r, script := rest })
    (hexec : ∀ rest i, observe v (exec i { s with script := rest }) = observe v (exec i { s with rcv := r, script := rest }))
    (htransport : ∀ rest m, observe v (transportMove m { s with script := rest }) =
      observe v (transportMove m { s with rcv := r, script := rest }))
    (hhost : ∀ rest m, observe v (hostMove m { s with script := rest }) =
      observe v (hostMove m { s with rcv := r, script := rest })) :
    observe v (step s) = observe v (step { s with rcv := r }) := by
  by_cases hs : s.script = []
  · rw [step, step, takeTurn_nil hs, takeTurn_nil (s := { s with rcv := r }) hs]
    exact congrArg Host.Outcome.next (hv s.script)
  · obtain ⟨turn, rest, hs⟩ := List.exists_cons_of_ne_nil hs
    rw [step_cons hs, step_cons (s := { s with rcv := r }) hs]
    cases turn with
    | sender =>
      simp only [runTurn, senderTurn]
      split
      · exact congrArg Host.Outcome.next (hv rest)
      · exact observe_runSelection (hv rest) fun i _ => hexec rest i
    | receiver =>
      change observe v (if s.host.rst then _ else runSelection (decodeRsel s.rsel) _) =
        observe v (if s.host.rst then _ else runSelection (decodeRsel { s with rcv := r }.rsel) _)
      rw [hrsel]
      split
      · exact congrArg Host.Outcome.next (hv rest)
      · exact observe_runSelection (hv rest) fun i _ => hexec rest i
    | senderTick => exact hexec rest .tmrTick
    | receiverTick => exact hexec rest .riTick
    | unit record =>
      simp only [runTurn, unitTurn]
      split
      · exact hexec rest _
      · exact congrArg Host.Outcome.next (hv rest)
      · rfl
    | transport m => exact htransport rest m
    | host m => exact hhost rest m

end OtherReceiver

/-- A unit does the same in any two states. -/
theorem observe_pure {α : Type} {v v' : State → α} {s s' : State} {i : Instr} (hi : Instr.isPure i = true)
    (hack : s.params.ackPayload = s'.params.ackPayload) (hsnd : s.snd = s'.snd)
    (hv : ∀ a, v (s.answer a) = v' (s'.answer a)) : observe v (exec i s) = observe v' (exec i s') := by
  cases i with
  | encode | mkpkt | checksum | verify =>
    exact observe_withOperands rfl fun _ => congrArg Host.Outcome.next (hv _)
  | ack q =>
    refine observe_withOperands (congrArg payloadOk hack) fun _ => congrArg Host.Outcome.next ?_
    rw [ackPacket, ackPacket, ← hack]
    exact hv _
  | decode | eofpkt | pktOk => exact congrArg Host.Outcome.next (hv _)
  | tmrIsRunning | tmrHasExpired =>
    refine congrArg Host.Outcome.next ?_
    rw [← hsnd]
    exact hv _
  | _ => cases hi

/-! ## The destination's name (R38) -/

/-- The machine with other contents of `r_peer` and `r_ext`. -/
def State.withName (s : State) (peer : Addr) (ext : Bytes) : State :=
  { s with rcv := { s.rcv with peer := peer, ext := ext } }

theorem eq_withName_of_forgetName_eq {s s' : State} (h : forgetName s = forgetName s') :
    s' = s.withName s'.rcv.peer s'.rcv.ext := by
  simp only [forgetName, State.mk.injEq, Receiver.mk.injEq] at h
  cases s
  cases s'
  simp_all [State.withName]

section Name
variable (s : State) (peer : Addr) (ext : Bytes)

theorem exec_withName (i : Instr) :
    observe forgetName (exec i s) = observe forgetName (exec i (s.withName peer ext)) := by
  cases i with
  | encode | decode | mkpkt | ack | eofpkt | checksum | verify | pktOk | tmrIsRunning | tmrHasExpired =>
    exact observe_pure rfl rfl rfl fun _ => rfl
  | tmrStart | tmrStop | tmrTick | riTick => exact observe_fireAgent rfl rfl rfl fun _ => rfl
  | sSend => exact observe_sSend rfl rfl rfl rfl rfl rfl fun _ => rfl
  | sAckBad =>
    have hrx : (s.withName peer ext).chan.sRx = s.chan.sRx := rfl
    simp only [exec, execSAckBad, hrx]
    split
    · rfl
    · exact observe_fireAgent rfl rfl rfl fun _ => rfl
  | sCancel | sTimeout | sAckOk | sRetransmit | sAdvance | sDoneEof => exact observe_fireAgent rfl rfl rfl fun _ => rfl
  | rRecv =>
    have hrx : (s.withName peer ext).chan.rRx = s.chan.rRx := rfl
    simp only [exec, execRRecv, hrx]
    split
    · rfl
    · exact observe_fireAgent rfl rfl rfl fun _ => rfl
  | rCancel | rIdleTimeout | rDrop => exact observe_fireAgent rfl rfl rfl fun _ => rfl
  | rExt | rData | rEof | rDup => exact observe_packet rfl rfl fun _ => observe_fireAgent rfl rfl rfl fun _ => rfl
  | rAck =>
    refine observe_fireAgent rfl rfl rfl fun _ => observe_withOperands rfl fun _ => ?_
    change Host.Outcome.next (forgetName (if s.rcv.eof then _ else _)) =
      Host.Outcome.next (forgetName (if s.rcv.eof then _ else _))
    split <;> rfl

theorem step_withName : observe forgetName (step s) = observe forgetName (step (s.withName peer ext)) :=
  observe_step rfl (fun _ => rfl) (fun rest i => exec_withName { s with script := rest } peer ext i)
    (fun _ m => observe_transportMove m fun _ => rfl) fun _ m => observe_hostMove m (fun _ => rfl) rfl

end Name

/-! ## The datagram in hand (R36) -/

/-- The machine with other contents of `r_buf` and `r_src`. -/
def State.withBuffer (s : State) (buf : Bytes) (src : Addr) : State :=
  { s with rcv := { s.rcv with buf := buf, src := src } }

theorem eq_withBuffer_of_forgetBuffer_eq {s s' : State} (h : forgetBuffer s = forgetBuffer s') :
    s' = s.withBuffer s'.rcv.buf s'.rcv.src := by
  simp only [forgetBuffer, State.mk.injEq, Receiver.mk.injEq] at h
  cases s
  cases s'
  simp_all [State.withBuffer]

/-- In `PROCESS` and `ACK` there is a datagram in hand. -/
def State.inHand (s : State) : Prop := s.rcv.state = .process ∨ s.rcv.state = .ack

theorem not_inHand_iff (s : State) : ¬ s.inHand ↔ s.rcv.state ≠ .process ∧ s.rcv.state ≠ .ack := not_or

/-- What can be read of the machine: the datagram in hand where there is one. -/
def readable (s : State) : State :=
  match s.rcv.state with
  | .process | .ack => s
  | .waitPacket | .done | .timeoutAbort => forgetBuffer s

theorem readable_of_inHand {s : State} (h : s.inHand) : readable s = s := by
  rcases h with h | h <;> simp only [readable, h]

theorem readable_of_not_inHand {s : State} (h : ¬ s.inHand) : readable s = forgetBuffer s := by
  obtain ⟨hp, ha⟩ := (not_inHand_iff s).mp h
  cases hst : s.rcv.state <;> simp_all [readable]

theorem forgetBuffer_readable (s : State) : forgetBuffer (readable s) = forgetBuffer s := by
  by_cases h : s.inHand
  · rw [readable_of_inHand h]
  · rw [readable_of_not_inHand h]
    rfl

theorem readable_congr {s s' : State} (hs : ¬ s.inHand) (hst : s'.rcv.state = s.rcv.state)
    (h : forgetBuffer s = forgetBuffer s') : readable s = readable s' := by
  have hs' : ¬ s'.inHand := by rwa [State.inHand, hst]
  rw [readable_of_not_inHand hs, readable_of_not_inHand hs', h]

/-- The operations on the packet in `r_buf` and the acknowledgment change nothing where no datagram is in hand. -/
theorem exec_of_not_inHand {i : Instr} {s : State} (h : ¬ s.inHand)
    (hi : i ∈ [.rDrop, .rExt, .rData, .rEof, .rDup, Instr.rAck]) : exec i s = .next s := by
  obtain ⟨hp, ha⟩ := (not_inHand_iff s).mp h
  by_cases hr : i = .rAck
  · subst hr
    exact fireAgent_of_false s _ (beq_eq_false_iff_ne.mpr ha)
  · have hproc : i ∈ [.rDrop, .rExt, .rData, .rEof, Instr.rDup] := by simpa [hr] using hi
    refine exec_eq_next_self (by revert i; decide) (by rintro rfl; revert hi; decide) hr fun _ t hf => ?_
    cases hf with
    | rDrop hst | rExt hst | rData hst | rEof hst | rDup hst => exact hp hst
    | _ => exact absurd hproc (by decide)

section Buffer
variable {s : State} (hs : ¬ s.inHand) (buf : Bytes) (src : Addr)
include hs

theorem exec_withBuffer (i : Instr) :
    observe readable (exec i s) = observe readable (exec i (s.withBuffer buf src)) := by
  have hv : readable s = readable (s.withBuffer buf src) := readable_congr hs rfl rfl
  cases i with
  | encode | decode | mkpkt | ack | eofpkt | checksum | verify | pktOk | tmrIsRunning | tmrHasExpired =>
    exact observe_pure rfl rfl rfl fun _ => readable_congr hs rfl rfl
  | tmrStart | tmrStop | tmrTick | riTick =>
    exact observe_fireAgent rfl rfl hv fun _ => congrArg Host.Outcome.next (readable_congr hs rfl rfl)
  | sSend => exact observe_sSend rfl rfl rfl rfl rfl hv fun _ => readable_congr hs rfl rfl
  | sAckBad =>
    have hrx : (s.withBuffer buf src).chan.sRx = s.chan.sRx := rfl
    simp only [exec, execSAckBad, hrx]
    split
    · exact congrArg Host.Outcome.next hv
    · exact observe_fireAgent rfl rfl hv fun _ => congrArg Host.Outcome.next (readable_congr hs rfl rfl)
  | sCancel | sTimeout | sAckOk | sRetransmit | sAdvance | sDoneEof =>
    exact observe_fireAgent rfl rfl hv fun _ => congrArg Host.Outcome.next (readable_congr hs rfl rfl)
  | rRecv =>
    have hrx : (s.withBuffer buf src).chan.rRx = s.chan.rRx := rfl
    simp only [exec, execRRecv, hrx]
    split
    · exact congrArg Host.Outcome.next hv
    · exact observe_fireAgent rfl rfl hv fun _ => rfl
  | rCancel | rIdleTimeout => exact observe_fireAgent rfl rfl hv fun _ => rfl
  | rDrop | rExt | rData | rEof | rDup | rAck =>
    rw [exec_of_not_inHand hs (by decide), exec_of_not_inHand (s := s.withBuffer buf src) hs (by decide)]
    exact congrArg Host.Outcome.next hv

/-- R102: without a datagram in hand the bits of `r_buf` are don't-care. -/
theorem rsel_withBuffer : decodeRsel s.rsel = decodeRsel (s.withBuffer buf src).rsel := by
  obtain ⟨hp, ha⟩ := (not_inHand_iff s).mp hs
  have hst : (s.withBuffer buf src).rcv.state = s.rcv.state := rfl
  rw [decodeRsel_rsel, decodeRsel_rsel, hst]
  cases h : s.rcv.state with
  | process => exact absurd h hp
  | ack => exact absurd h ha
  | waitPacket | done | timeoutAbort => rfl

theorem step_withBuffer : observe readable (step s) = observe readable (step (s.withBuffer buf src)) :=
  observe_step (rsel_withBuffer hs buf src) (fun _ => readable_congr hs rfl rfl)
    (fun rest i => exec_withBuffer (s := { s with script := rest }) hs buf src i)
    (fun _ m => observe_transportMove m fun _ => readable_congr hs rfl rfl)
    fun _ m => observe_hostMove m (fun _ => readable_congr hs rfl rfl) rfl

end Buffer

theorem observe_observe {α : Type} (f : State → α) (v : State → State) (r : Result) :
    observe f (observe v r) = observe (fun s => f (v s)) r := by
  cases r <;> rfl

/-- Settles O47: the name is written and never read; of the datagram in hand the two machines agree on what can be read,
which is all of it once a step has taken one. -/
theorem unspecifiedBuffersAreNeverRead : Obligations.UnspecifiedBuffersAreNeverRead := by
  refine ⟨fun s s' h => ?_, fun s s' hp ha h => ?_⟩
  · rw [eq_withName_of_forgetName_eq h]
    exact step_withName s _ _
  · have hstep : observe readable (step s) = observe readable (step s') := by
      rw [eq_withBuffer_of_forgetBuffer_eq h]
      exact step_withBuffer ((not_inHand_iff s).mpr ⟨hp, ha⟩) _ _
    have hforget : observe forgetBuffer (step s) = observe forgetBuffer (step s') := by
      have := congrArg (observe forgetBuffer) hstep
      simpa only [observe_observe, forgetBuffer_readable] using this
    refine ⟨hforget, fun t t' ht ht' hin => ?_⟩
    rw [ht, ht'] at hstep hforget
    simp only [observe, Host.Outcome.next.injEq] at hstep hforget
    have hstate : (forgetBuffer t').rcv.state = (forgetBuffer t).rcv.state := by rw [hforget]
    have hin' : t'.inHand := hin.imp hstate.trans hstate.trans
    rwa [readable_of_inHand hin, readable_of_inHand hin'] at hstep

end Machine
end Sys2Proof
end

