-- ==== Sys2Proof/Proofs/Addresses.lean ====
section
/-! Addresses are copied only (20_memory.md R72, D38): every operation does the same on renamed addresses, and every
step keeps each of them within `ADDR_W` bits (00_scope.md R6). -/

namespace Sys2Proof
namespace Machine

/-! ## Renaming goes through every operation -/

theorem observe_id (r : Result) : observe id r = r := by
  cases r <;> rfl

section Rename
variable (f : Addr → Addr) (s : State)

theorem rename_emitSTx (w : Bytes) (a : Addr) :
    (renameAddresses f s).emitSTx w (f a) = renameAddresses f (s.emitSTx w a) := by
  simp [renameAddresses, State.emitSTx, Datagram.rename]

theorem rename_emitRTx (w : Bytes) (a : Addr) :
    (renameAddresses f s).emitRTx w (f a) = renameAddresses f (s.emitRTx w a) := by
  simp [renameAddresses, State.emitRTx, Datagram.rename]

theorem rename_emitSink (e : SinkEvent) :
    (renameAddresses f s).emitSink (e.rename f) = renameAddresses f (s.emitSink e) := by
  simp [renameAddresses, State.emitSink]

theorem rename_sendUnit (p : Bytes) : (renameAddresses f s).sendUnit p = renameAddresses f (s.sendUnit p) :=
  congrArg (fun x : State => (((x.countTx).markSent.startTimer).gotoS .waitAck)) (rename_emitSTx f s _ _)

theorem sRx_rename : (renameAddresses f s).chan.sRx = s.chan.sRx.map (Datagram.rename f) := rfl

theorem rRx_rename : (renameAddresses f s).chan.rRx = s.chan.rRx.map (Datagram.rename f) := rfl

theorem receiverAvail_rename : (renameAddresses f s).receiverAvail = s.receiverAvail := Option.isSome_map

theorem senderOk_rename : (renameAddresses f s).senderOk = s.senderOk := by
  rw [State.senderOk, State.senderOk, sRx_rename]
  cases s.chan.sRx <;> rfl

/-- An effect that is one state, whatever the operands. -/
theorem fireAgent_rename {c c' : Bool} {u u' : State} (hc : c' = c) (hu : u' = renameAddresses f u) :
    observe id (fireAgent c' (renameAddresses f s) (.next u')) =
      observe (renameAddresses f) (fireAgent c s (.next u)) :=
  observe_fireAgent rfl hc rfl fun _ => congrArg Host.Outcome.next hu

theorem exec_rename (i : Instr) :
    observe id (exec i (renameAddresses f s)) = observe (renameAddresses f) (exec i s) := by
  cases i with
  | encode | decode | mkpkt | ack | eofpkt | checksum | verify | pktOk | tmrIsRunning | tmrHasExpired =>
    exact observe_pure rfl rfl rfl fun _ => rfl
  | tmrStart | tmrStop | tmrTick | riTick => exact fireAgent_rename f s rfl rfl
  | sCancel | sTimeout | sRetransmit | sAdvance => exact fireAgent_rename f s rfl rfl
  | sSend => exact observe_sSend rfl rfl rfl rfl rfl rfl (rename_sendUnit f s)
  | sAckOk => exact fireAgent_rename f s (by rw [senderOk_rename]; rfl) rfl
  | sAckBad =>
    simp only [exec, execSAckBad, sRx_rename]
    cases s.chan.sRx with
    | none => rfl
    | some m => exact fireAgent_rename f s rfl rfl
  | sDoneEof => exact fireAgent_rename f s rfl (congrArg State.halt (rename_emitSTx f s _ _))
  | rCancel => exact fireAgent_rename f s rfl (congrArg (State.gotoR · .done) (rename_emitSink f (s.reportR _) .close))
  | rIdleTimeout =>
    exact fireAgent_rename f s (by rw [receiverAvail_rename]; rfl)
      (congrArg (State.gotoR · .timeoutAbort) (rename_emitSink f (s.reportR _) .close))
  | rRecv =>
    simp only [exec, execRRecv, rRx_rename]
    cases s.chan.rRx with
    | none => rfl
    | some m => exact fireAgent_rename f s rfl rfl
  | rDrop => exact fireAgent_rename f s rfl rfl
  | rExt =>
    refine observe_packet rfl rfl fun k => fireAgent_rename f s rfl ?_
    exact congrArg (fun x : State => (x.toggleExpected.latchAck k.seqNum (isEof k.payload)).gotoR .ack)
      (rename_emitSink f (s.latchName s.rcv.src k.payload) (.name s.rcv.src k.payload))
  | rData =>
    refine observe_packet rfl rfl fun k => fireAgent_rename f s rfl ?_
    exact congrArg (fun x : State => (x.toggleExpected.latchAck k.seqNum false).gotoR .ack)
      (rename_emitSink f s (.append k.payload))
  | rEof | rDup => exact observe_packet rfl rfl fun _ => fireAgent_rename f s rfl rfl
  | rAck =>
    refine observe_fireAgent rfl rfl rfl fun _ => observe_withOperands rfl fun _ => congrArg Host.Outcome.next ?_
    have hemit := rename_emitRTx f s (ackPacket s.params s.rcv.seqNum) s.rcv.src
    have hclose := rename_emitSink f (s.emitRTx (ackPacket s.params s.rcv.seqNum) s.rcv.src) .close
    rw [← hemit] at hclose
    change (if s.rcv.eof then _ else _) = renameAddresses f (if s.rcv.eof then _ else _)
    split
    · exact congrArg (State.gotoR · .done) hclose
    · exact congrArg (fun x : State => x.reloadIdle.gotoR .waitPacket) hemit

end Rename

/-! ## The datagrams of the channels -/

/-- Every datagram emitted, on offer or in transit, in either direction, has the property. -/
def Channels.Hold (p : Datagram → Prop) (c : Channels) : Prop :=
  ∀ d, (∀ m ∈ c.emitted d, p m) ∧ (∀ m ∈ c.offered d, p m) ∧ (∀ m ∈ c.transit d, p m)

section Hold
variable {p : Datagram → Prop} {c : Channels} (h : c.Hold p) (d : Direction)
include h

theorem Channels.Hold.withTransit {l : List Datagram} (hl : ∀ m ∈ l, p m) : (c.withTransit d l).Hold p := by
  intro e
  obtain ⟨hem, hof, htr⟩ := h e
  cases d <;> cases e <;> exact ⟨hem, hof, by assumption⟩

theorem Channels.Hold.withEmitted {l : List Datagram} (hl : ∀ m ∈ l, p m) : (c.withEmitted d l).Hold p := by
  intro e
  obtain ⟨hem, hof, htr⟩ := h e
  cases d <;> cases e <;> exact ⟨by assumption, hof, htr⟩

theorem Channels.Hold.withOffered {o : Option Datagram} (ho : ∀ m ∈ o, p m) : (c.withOffered d o).Hold p := by
  intro e
  obtain ⟨hem, hof, htr⟩ := h e
  cases d <;> cases e <;> exact ⟨hem, by assumption, htr⟩

end Hold

/-- A move of the transport copies addresses of the machine, or brings one of `ADDR_W` bits. -/
theorem transportMove_keeps_addresses {m : TransportMove} {s t : State} (hm : transportMove m s = .next t)
    (h : s.chan.Hold fun x => x.addr < 2 ^ s.params.addrW) : t.chan.Hold fun x => x.addr < 2 ^ s.params.addrW := by
  cases m with
  | accept d src =>
    cases hm
    obtain ⟨hem, -, htr⟩ := h d
    simp only [Channels.accept]
    split
    · exact h
    · rename_i x rest hd
      rw [hd] at hem
      exact (h.withEmitted d fun y hy => hem y (List.mem_cons_of_mem _ hy)).withTransit d
        (forall_mem_append_singleton htr (addr_lt _ _))
  | inject d x =>
    cases hm
    exact h.withTransit d (forall_mem_append_singleton (h d).2.2 (addr_lt _ _))
  | drop d k =>
    cases hm
    exact h.withTransit d fun y hy => (h d).2.2 y (List.mem_of_mem_eraseIdx hy)
  | corrupt d k w =>
    cases hm
    refine h.withTransit d fun y hy => ?_
    obtain ⟨j, hj⟩ := List.mem_iff_getElem?.mp hy
    rw [List.getElem?_modify] at hj
    obtain ⟨x, hx, rfl⟩ := Option.map_eq_some_iff.mp hj
    have hfit := (h d).2.2 x (List.mem_of_getElem? hx)
    split <;> exact hfit
  | offer d k =>
    cases hm
    obtain ⟨-, -, htr⟩ := h d
    simp only [Channels.offer]
    split
    · rename_i x _ hx
      exact (h.withTransit d fun y hy => htr y (List.mem_of_mem_eraseIdx hy)).withOffered d
        fun y hy => by cases hy; exact htr _ (List.mem_of_getElem? hx)
    · exact h
  | withdraw d =>
    cases hm
    obtain ⟨-, hof, htr⟩ := h d
    simp only [Channels.withdraw]
    split
    · exact h
    · rename_i x hx
      exact (h.withTransit d (forall_mem_append_singleton htr (hof x hx))).withOffered d nofun
  | duplicate d k =>
    obtain ⟨-, -, htr⟩ := h d
    simp only [transportMove, fire] at hm
    split at hm <;> cases hm
    · simp only [Channels.duplicate]
      split
      · rename_i x hx
        exact h.withTransit d (forall_mem_append_singleton htr (htr x (List.mem_of_getElem? hx)))
      · exact h
    · exact h

/-! ## The addresses of the machine -/

theorem addressesFit_iff (s : State) : AddressesFit s ↔
    s.host.sDest < 2 ^ s.params.addrW ∧ s.rcv.src < 2 ^ s.params.addrW ∧ s.rcv.peer < 2 ^ s.params.addrW ∧
      (s.chan.Hold fun m => m.addr < 2 ^ s.params.addrW) ∧
      ∀ a e, SinkEvent.name a e ∈ s.log.sink → a < 2 ^ s.params.addrW := by
  constructor
  · rintro ⟨hdest, hsrc, hpeer, hof, hof', hem, hem', htr, htr', hnames⟩
    exact ⟨hdest, hsrc, hpeer, fun d => by cases d <;> exact ⟨by assumption, by assumption, by assumption⟩, hnames⟩
  · rintro ⟨hdest, hsrc, hpeer, hchan, hnames⟩
    obtain ⟨hem, hof, htr⟩ := hchan .toReceiver
    obtain ⟨hem', hof', htr'⟩ := hchan .toSender
    exact ⟨hdest, hsrc, hpeer, hof', hof, hem, hem', htr', htr, hnames⟩

theorem Fires.keeps_addresses {s t : State} {i : Instr} (hf : Fires s i t) (h : AddressesFit s) : AddressesFit t := by
  cases hf with
  | sSend | sDoneEof => exact { h with emittedS := forall_mem_append_singleton h.emittedS h.dest }
  | sAckOk | sAckBad => exact { h with offeredS := nofun }
  | rRecv _ _ hm => exact { h with src := h.offeredR _ hm, offeredR := nofun }
  | rExt =>
    refine { h with peer := h.src, names := fun a e hmem => ?_ }
    rcases List.mem_append.mp hmem with hmem | hmem
    · exact h.names a e hmem
    · cases List.mem_singleton.mp hmem
      exact h.src
  | rCancel | rIdleTimeout | rData => exact { h with names := fun a e hmem => h.names a e (by simpa using hmem) }
  | rAckEof =>
    exact { h with
      emittedR := forall_mem_append_singleton h.emittedR h.src
      names := fun a e hmem => h.names a e (by simpa using hmem) }
  | rAckNext => exact { h with emittedR := forall_mem_append_singleton h.emittedR h.src }
  | tmrStart | tmrStop | tmrTick | riTick | sCancel | sTimeout | sRetransmit | sAdvance | rDrop | rEof | rDup =>
    exact { h with }

theorem addressesFit_kept : KeptBy (fun _ => true) AddressesFit where
  script := fun s _ h => (addressesFit_iff _).mpr ((addressesFit_iff s).mp h)
  answer := fun s _ h => (addressesFit_iff _).mpr ((addressesFit_iff s).mp h)
  fires := fun _ _ _ hf h => hf.keeps_addresses h
  transport := fun hm h => by
    obtain ⟨hdest, hsrc, hpeer, hchan, hnames⟩ := (addressesFit_iff _).mp h
    have hchan' := transportMove_keeps_addresses hm hchan
    rw [(transportMove_next hm).1, addressesFit_iff]
    exact ⟨hdest, hsrc, hpeer, hchan', hnames⟩
  host := fun {m s t} _ hm h => by
    rw [addressesFit_iff] at h ⊢
    obtain ⟨hdest, hsrc, hpeer, hchan, hnames⟩ := h
    rcases hostMove_next hm with ⟨ht, -, ⟨-, -, hd⟩ | ⟨u, n, a, -, hload, -⟩⟩ | ⟨-, rfl⟩ | ⟨b, a, p, e, -, -, rfl⟩
    · rw [ht]
      exact ⟨hd ▸ hdest, hsrc, hpeer, hchan, hnames⟩
    · rw [ht, hload]
      exact ⟨addr_lt _ _, hsrc, hpeer, hchan, hnames⟩
    · exact ⟨hdest, hsrc, hpeer, hchan, hnames⟩
    · exact ⟨hdest, addr_lt _ _, addr_lt _ _, hchan, hnames⟩

/-- Settles O58: renaming goes through the operations one by one; an operation puts an address where it found one, and
what comes from outside is cut. -/
theorem stepKeepsAddressesWithinTheirWidth : Obligations.StepKeepsAddressesWithinTheirWidth :=
  ⟨fun f i s => (observe_id _).symm.trans (exec_rename f s i), fun _ _ h hstep => addressesFit_kept.every_step hstep h⟩

end Machine
end Sys2Proof
end

