-- ==== Sys2Proof/Proofs/Units.lean ====
section
/-! The transfer units of a file (70_reset_and_hazards.md R301): `split` cuts it into pieces of `MSS` bytes. -/

namespace Sys2Proof
namespace Machine

theorem splitFuel_succ (n : Nat) {file : Bytes} (h : file ≠ []) :
    splitFuel (n + 1) file = file.take Config.mss :: splitFuel n (file.drop Config.mss) := by
  cases file with
  | nil => exact absurd rfl h
  | cons => rfl

/-- What is left after a piece needs less fuel. -/
theorem length_drop_mss_le {n : Nat} {file : Bytes} (h : file ≠ []) (hn : file.length ≤ n + 1) :
    (file.drop Config.mss).length ≤ n := by
  have hpos := List.length_pos_of_ne_nil h
  rw [List.length_drop, mss_eq]
  omega

section Split
variable {n : Nat} {file : Bytes} (hn : file.length ≤ n)
include hn

theorem flatten_splitFuel : (splitFuel n file).flatten = file := by
  induction n generalizing file with
  | zero => rw [List.eq_nil_of_length_eq_zero (Nat.le_zero.mp hn)]; rfl
  | succ n ih =>
    by_cases h : file = []
    · rw [h]; rfl
    · rw [splitFuel_succ n h, List.flatten_cons, ih (length_drop_mss_le h hn), List.take_append_drop]

theorem splitFuel_pieces_pos : ∀ p ∈ splitFuel n file, 1 ≤ p.length := by
  induction n generalizing file with
  | zero => nofun
  | succ n ih =>
    by_cases h : file = []
    · rw [h]; nofun
    · have hpos := List.length_pos_of_ne_nil h
      rw [splitFuel_succ n h]
      refine List.forall_mem_cons.mpr ⟨?_, ih (length_drop_mss_le h hn)⟩
      rw [List.length_take, mss_eq]
      omega

theorem length_splitFuel : (splitFuel n file).length = (file.length + (Config.mss - 1)) / Config.mss := by
  induction n generalizing file with
  | zero => rw [List.eq_nil_of_length_eq_zero (Nat.le_zero.mp hn)]; rfl
  | succ n ih =>
    by_cases h : file = []
    · rw [h]; rfl
    · have hpos := List.length_pos_of_ne_nil h
      rw [splitFuel_succ n h, List.length_cons, ih (length_drop_mss_le h hn), List.length_drop, mss_eq]
      omega

/-- A piece that has another one behind it is cut from more than `MSS` bytes. -/
theorem splitFuel_inner_piece {k : Nat} (hk : k + 1 < (splitFuel n file).length) :
    ((splitFuel n file)[k]?).map List.length = some Config.mss := by
  induction n generalizing file k with
  | zero => cases hk
  | succ n ih =>
    by_cases h : file = []
    · subst h; cases hk
    · have hrest := length_splitFuel (length_drop_mss_le h hn)
      rw [splitFuel_succ n h] at hk ⊢
      rw [List.length_cons] at hk
      cases k with
      | zero =>
        rw [hrest, List.length_drop, mss_eq] at hk
        simp only [List.getElem?_cons_zero, Option.map_some, List.length_take, mss_eq]
        congr 1
        omega
      | succ k => exact ih (length_drop_mss_le h hn) (Nat.lt_of_succ_lt_succ hk)

end Split

theorem transferUnits_length (ext file : Bytes) : (transferUnits ext file).length = (split file).length + 2 := by
  simp [transferUnits]

/-- Settles O59: by induction on the fuel, which is the length of the file. -/
theorem transferUnitsCutTheFile : Obligations.TransferUnitsCutTheFile := by
  intro ext file
  have hlen := Nat.le_refl file.length
  refine ⟨flatten_splitFuel hlen, fun p hp => ⟨splitFuel_pieces_pos hlen p hp, ?_⟩, fun k => splitFuel_inner_piece hlen,
    rfl, ?_⟩
  · exact (payloadOk_iff p).mp (splitFuel_payloads _ _ p hp)
  · rw [transferUnits_length, split, length_splitFuel hlen, Nat.add_comm]

end Machine
end Sys2Proof
end

