-- ==== Sys2Proof/Proofs/Deliveries.lean ====
section
/-! Stretches of turns, and the turns of one delivery: a unit from the sender to the receiver's buffer, its processing,
and the acknowledgment back (20_memory.md R64, 44_sender_fsm.md, 45_receiver_fsm.md). -/

namespace Sys2Proof
namespace Machine

/-! ## Stretches of turns -/

/-- The turns lead from one state to the other, whatever stands in the script behind them. -/
def Leads (turns : List Turn) (s t : State) : Prop :=
  ∀ (k : Nat) (rest : List Turn),
    run (turns.length + k) { s with script := turns ++ rest } = run k { t with script := rest }

namespace Leads
variable {s t u : State} {turns turns' : List Turn}

theorem nil (s : State) : Leads [] s s := fun k rest => by rw [List.length_nil, Nat.zero_add]; rfl

theorem turn {turn : Turn} (h : ∀ rest, step { s with script := turn :: rest } = .next { t with script := rest }) :
    Leads [turn] s t := fun k rest => by
  rw [List.length_singleton, Nat.add_comm]
  exact run_succ_of_step (h rest) k

theorem append (h : Leads turns s t) (h' : Leads turns' t u) : Leads (turns ++ turns') s u := fun k rest => by
  rw [List.length_append, Nat.add_assoc, List.append_assoc, h, h']

theorem cons {turn : Turn} (h : Leads [turn] s t) (h' : Leads turns t u) : Leads (turn :: turns) s u := h.append h'

/-- A run of the whole script. -/
theorem run_eq (h : Leads turns s t) (hs : s.script = turns) :
    run turns.length s = .next { t with script := [] } := by
  have hrun := h 0 []
  rw [List.append_nil, ← hs] at hrun
  rw [← hs]
  exact hrun.trans (run_zero _)

theorem sender {i : Instr} (hr : s.host.rst = false) (hi : decodeSsel s.ssel = .fire i)
    (hexec : ∀ rest, exec i { s with script := rest } = .next { t with script := rest }) : Leads [.sender] s t :=
  turn fun rest => (step_of_ssel_fires (s := { s with script := .sender :: rest }) hr rfl hi).trans (hexec rest)

theorem receiver {i : Instr} (hr : s.host.rst = false) (hi : decodeRsel s.rsel = .fire i)
    (hexec : ∀ rest, exec i { s with script := rest } = .next { t with script := rest }) : Leads [.receiver] s t :=
  turn fun rest => (step_of_rsel_fires (s := { s with script := .receiver :: rest }) hr rfl hi).trans (hexec rest)

end Leads

/-! ## The receiver's turns on a datagram -/

/-- What `R_ACK` does beside the acknowledgment: the end after the EOF packet, else the next wait (R220). -/
def State.afterAck (s : State) : State :=
  if s.rcv.eof then (s.emitSink .close).gotoR .done else s.reloadIdle.gotoR .waitPacket

section AfterAck
variable (s : State)

@[simp] theorem afterAck_params : s.afterAck.params = s.params := by unfold State.afterAck; split <;> rfl
@[simp] theorem afterAck_host : s.afterAck.host = s.host := by unfold State.afterAck; split <;> rfl
@[simp] theorem afterAck_snd : s.afterAck.snd = s.snd := by unfold State.afterAck; split <;> rfl
@[simp] theorem afterAck_chan : s.afterAck.chan = s.chan := by unfold State.afterAck; split <;> rfl
@[simp] theorem afterAck_sDiag : s.afterAck.log.sDiag = s.log.sDiag := by unfold State.afterAck; split <;> rfl
@[simp] theorem afterAck_rDiag : s.afterAck.log.rDiag = s.log.rDiag := by unfold State.afterAck; split <;> rfl

theorem afterAck_of_eof (h : s.rcv.eof = true) : s.afterAck = (s.emitSink .close).gotoR .done := if_pos h

theorem afterAck_of_not_eof (h : s.rcv.eof = false) : s.afterAck = s.reloadIdle.gotoR .waitPacket := if_neg (by simp [h])

end AfterAck

section ReceiverTurns
variable {s : State} (hr : s.host.rst = false)
include hr

theorem leads_recv {m : Datagram} (hst : s.rcv.state = .waitPacket) (hc : s.host.rCancel = false)
    (hm : s.chan.rRx = some m) : Leads [.receiver] s ((s.takeRRx.latchDatagram m).gotoR .process) :=
  .receiver hr (rsel_fires_rRecv hst hc (by simp [hm])) fun rest => exec_rRecv (s := { s with script := rest }) hr hst hc hm

theorem leads_ack (hst : s.rcv.state = .ack) (hlen : s.params.ackPayload.length ≤ Config.mss) :
    Leads [.receiver] s (s.emitRTx (ackPacket s.params s.rcv.seqNum) s.rcv.src).afterAck := by
  refine .receiver hr (rsel_fires_rAck hst) fun rest => (exec_rAck (s := { s with script := rest }) hr hst hlen).trans ?_
  refine congrArg Host.Outcome.next ?_
  unfold State.afterAck
  change (if s.rcv.eof then _ else _) = { (if s.rcv.eof then _ else _ : State) with script := rest }
  split <;> rfl

variable {q : SeqNum} {p : Bytes} (hst : s.rcv.state = .process) (hlen : p.length ≤ Config.mss)
  (hbuf : s.rcv.buf = makePacket q p)
include hst hlen hbuf

theorem leads_ext (hx : s.rcv.extReceived = false) :
    Leads [.receiver] s (((((s.latchName s.rcv.src p).emitSink (.name s.rcv.src p)).toggleExpected
      ).latchAck q (isEof p)).gotoR .ack) :=
  .receiver hr (rsel_fires_rExt hst (packet_some (packet_of_makePacket hlen hbuf)).1 hx) fun rest =>
    exec_rExt (s := { s with script := rest }) (k := ⟨q, checksum q p, p⟩) hr hst (packet_of_makePacket hlen hbuf) hx

variable (hx : s.rcv.extReceived = true)
include hx

theorem leads_data (hq : q = s.rcv.expected) (he : p ≠ Config.eofMarker) :
    Leads [.receiver] s ((((s.emitSink (.append p)).toggleExpected).latchAck q false).gotoR .ack) :=
  .receiver hr (rsel_fires_rData hst (packet_of_makePacket hlen hbuf) hx hq he) fun rest =>
    exec_rData (s := { s with script := rest }) (k := ⟨q, checksum q p, p⟩) hr hst (packet_of_makePacket hlen hbuf) hx hq he

theorem leads_eof (hq : q = s.rcv.expected) (he : p = Config.eofMarker) :
    Leads [.receiver] s ((s.latchAck q true).gotoR .ack) :=
  .receiver hr (rsel_fires_rEof hst (packet_of_makePacket hlen hbuf) hx hq he) fun rest =>
    exec_rEof (s := { s with script := rest }) (k := ⟨q, checksum q p, p⟩) hr hst (packet_of_makePacket hlen hbuf) hx hq he

theorem leads_dup (hq : q ≠ s.rcv.expected) :
    Leads [.receiver] s (((s.reportR .outOfOrderDuplicate).latchAck q (isEof p)).gotoR .ack) :=
  .receiver hr (rsel_fires_rDup hst (packet_of_makePacket hlen hbuf) hx hq) fun rest =>
    exec_rDup (s := { s with script := rest }) (k := ⟨q, checksum q p, p⟩) hr hst (packet_of_makePacket hlen hbuf) hx hq

end ReceiverTurns

theorem isEof_eq_false {p : Bytes} (h : p ≠ Config.eofMarker) : isEof p = false := beq_eq_false_iff_ne.mpr h

/-! ## The same datagram twice (R223 (a), R77) -/

/-- The receiver after three turns on a chunk in sequence: taken, appended, acknowledged. -/
def State.acceptChunk (s : State) (m : Datagram) (p : Bytes) : State :=
  (((((((s.takeRRx.latchDatagram m).gotoR .process).emitSink (.append p)).toggleExpected).latchAck s.rcv.expected false
    ).gotoR .ack).emitRTx (ackPacket s.params s.rcv.expected) m.addr).reloadIdle.gotoR .waitPacket

/-- The receiver after three turns on a packet it has had: taken, reported, acknowledged. -/
def State.acceptDuplicate (s : State) (m : Datagram) (q : SeqNum) : State :=
  ((((((s.takeRRx.latchDatagram m).gotoR .process).reportR .outOfOrderDuplicate).latchAck q false
    ).gotoR .ack).emitRTx (ackPacket s.params q) m.addr).reloadIdle.gotoR .waitPacket

section Chunk
variable {s : State} {m : Datagram} {p : Bytes} (hr : s.host.rst = false) (hc : s.host.rCancel = false)
  (hst : s.rcv.state = .waitPacket) (hx : s.rcv.extReceived = true) (hack : s.params.ackPayload.length ≤ Config.mss)
  (hlen : p.length ≤ Config.mss) (he : p ≠ Config.eofMarker) (hm : s.chan.rRx = some m)
include hr hc hst hx hack hlen he hm

theorem leads_acceptChunk (hbytes : m.bytes = makePacket s.rcv.expected p) :
    Leads [.receiver, .receiver, .receiver] s (s.acceptChunk m p) :=
  (leads_recv hr hst hc hm).cons <|
    (leads_data (s := (s.takeRRx.latchDatagram m).gotoR .process) hr rfl hlen hbytes hx rfl he).cons <|
      leads_ack hr rfl hack

theorem leads_acceptDuplicate {q : SeqNum} (hbytes : m.bytes = makePacket q p) (hq : q ≠ s.rcv.expected) :
    Leads [.receiver, .receiver, .receiver] s (s.acceptDuplicate m q) := by
  have hdup := leads_dup (s := (s.takeRRx.latchDatagram m).gotoR .process) hr rfl hlen hbytes hx hq
  rw [isEof_eq_false he] at hdup
  exact (leads_recv hr hst hc hm).cons (hdup.cons (leads_ack hr rfl hack))

end Chunk

/-- Settles O40: after the first pass the receiver expects the other number, so the second one is a duplicate. -/
theorem deliveryIsIdempotent : Obligations.DeliveryIsIdempotent := by
  intro s m p hr hc hst hx hack hlen he hbytes hm hs
  have hfirst : run 3 s = .next { s.acceptChunk m p with script := [] } :=
    (leads_acceptChunk hr hc hst hx hack hlen he hm hbytes).run_eq hs
  have hsecond := leads_acceptDuplicate (s := { s.acceptChunk m p with chan := { (s.acceptChunk m p).chan with rRx := some m } })
    hr hc rfl hx hack hlen he rfl hbytes (toggle_ne _).symm
  refine ⟨_, _, hfirst, hsecond 0 [], ?_⟩
  simp [State.acceptDuplicate, State.acceptChunk, ackPacket, List.replicate_succ]

end Machine
end Sys2Proof
end

