-- ==== Sys2Proof/Proofs/Transfers.lean ====
section
/-! A whole transfer over a transport that delivers everything (20_memory.md R75, 44_sender_fsm.md R191,
45_receiver_fsm.md R223 (b)): one round of turns for each unit, and what the machine holds between two rounds. -/

namespace Sys2Proof
namespace Machine

/-! ## The transport delivers -/

/-- Nothing is emitted, on offer or in transit. -/
def Channels.silent : Channels := { sTx := [], rTx := [], sRx := none, rRx := none, toReceiver := [], toSender := [] }

theorem leads_accept (s : State) (d : Direction) (a : Addr) :
    Leads [.transport (.accept d a)] s { s with chan := s.chan.accept d (s.params.addr a) } := .turn fun _ => rfl

theorem leads_offer (s : State) (d : Direction) (k : Nat) :
    Leads [.transport (.offer d k)] s { s with chan := s.chan.offer d k } := .turn fun _ => rfl

theorem leads_toReceiver {s : State} {m : Datagram} (h : s.chan = { Channels.silent with sTx := [m] }) (a : Addr) :
    Leads [.transport (.accept .toReceiver a), .transport (.offer .toReceiver 0)] s
      { s with chan := { Channels.silent with rRx := some { bytes := m.bytes, addr := s.params.addr a } } } := by
  have hmoves := (leads_accept s .toReceiver a).cons (leads_offer _ .toReceiver 0)
  simp only [h] at hmoves
  exact hmoves

theorem leads_toSender {s : State} {m : Datagram} (h : s.chan = { Channels.silent with rTx := [m] }) (b : Addr) :
    Leads [.transport (.accept .toSender b), .transport (.offer .toSender 0)] s
      { s with chan := { Channels.silent with sRx := some { bytes := m.bytes, addr := s.params.addr b } } } := by
  have hmoves := (leads_accept s .toSender b).cons (leads_offer _ .toSender 0)
  simp only [h] at hmoves
  exact hmoves

/-! ## A unit reaches the receiver -/

/-- The unit is sent, and its packet stands in the receiver's buffer. -/
def State.unitArrived (s : State) (p : Bytes) (a : Addr) : State :=
  { s.sendUnit p with
    chan := s.chan
    rcv := { s.rcv with state := .process, buf := makePacket s.snd.seqNum p, src := s.params.addr a } }

section Arrived
variable (s : State) (p : Bytes) (a : Addr)

@[simp] theorem unitArrived_params : (s.unitArrived p a).params = s.params := by simp [State.unitArrived, State.sendUnit]
@[simp] theorem unitArrived_host : (s.unitArrived p a).host = s.host := by simp [State.unitArrived, State.sendUnit]
@[simp] theorem unitArrived_chan : (s.unitArrived p a).chan = s.chan := rfl
@[simp] theorem unitArrived_log : (s.unitArrived p a).log = s.log := by simp [State.unitArrived, State.sendUnit]
@[simp] theorem unitArrived_rcv : (s.unitArrived p a).rcv =
    { s.rcv with state := .process, buf := makePacket s.snd.seqNum p, src := s.params.addr a } := rfl
@[simp] theorem unitArrived_snd : (s.unitArrived p a).snd =
    { s.snd with
      state := .waitAck
      txCount := s.snd.txCount + 1
      sentAny := true
      tmrRun := true
      tmrCnt := s.params.txTimeoutTicks } := by simp [State.unitArrived, State.sendUnit]

end Arrived

theorem leads_unitArrived {s : State} {p : Bytes} (a : Addr) (hr : s.host.rst = false) (hsc : s.host.sCancel = false)
    (hrc : s.host.rCancel = false) (hchan : s.chan = Channels.silent) (hst : s.snd.state = .send)
    (hwait : s.rcv.state = .waitPacket) (hi : s.snd.idx < s.host.nUnits)
    (hp : memRead s.host.units s.snd.idx = some p) (hlen : p.length ≤ Config.mss) :
    Leads [.sender, .transport (.accept .toReceiver a), .transport (.offer .toReceiver 0), .receiver] s
      (s.unitArrived p a) := by
  have hsend : Leads [.sender] s (s.sendUnit p) :=
    .sender hr (ssel_fires_sSend hst hsc) fun rest => exec_sSend (s := { s with script := rest }) (p := p) hr hst hsc hi hp hlen
  have hemitted : (s.sendUnit p).chan =
      { Channels.silent with sTx := [{ bytes := makePacket s.snd.seqNum p, addr := s.host.sDest }] } := by
    simp [State.sendUnit, hchan, Channels.silent]
  have hrecv := leads_recv (s := { s.sendUnit p with
    chan := { Channels.silent with rRx := some { bytes := makePacket s.snd.seqNum p, addr := s.params.addr a } } })
    hr hwait hrc rfl
  have harrived := hsend.cons ((leads_toReceiver hemitted a).append hrecv)
  simp only [State.unitArrived, hchan]
  exact harrived

/-! ## The acknowledgment reaches the sender -/

/-- The datagram in hand is acknowledged, and the acknowledgment stands on offer to the sender. -/
def State.ackOffered (s : State) (b : Addr) : State :=
  { s.afterAck with
    chan := { Channels.silent with
      sRx := some { bytes := ackPacket s.params s.rcv.seqNum, addr := s.afterAck.params.addr b } } }

/-- The sender has taken the acknowledgment too, and moved to the next unit. -/
def State.acknowledged (s : State) : State :=
  ((s.afterAck.stopTimer.toggleSeq.countTx).nextUnit).gotoS (if s.snd.idx + 1 = s.host.nUnits then .done else .send)

theorem afterAck_emitRTx (s : State) (w : Bytes) (a : Addr) : (s.emitRTx w a).afterAck = s.afterAck.emitRTx w a := by
  change (if s.rcv.eof then _ else _) = (if s.rcv.eof then _ else _ : State).emitRTx w a
  split <;> rfl

section Acknowledged
variable (s : State)

@[simp] theorem acknowledged_params : s.acknowledged.params = s.params := by simp [State.acknowledged]
@[simp] theorem acknowledged_host : s.acknowledged.host = s.host := by simp [State.acknowledged]
@[simp] theorem acknowledged_rcv : s.acknowledged.rcv = s.afterAck.rcv := by simp [State.acknowledged]
@[simp] theorem acknowledged_chan : s.acknowledged.chan = s.chan := by simp [State.acknowledged]
@[simp] theorem acknowledged_log : s.acknowledged.log = s.afterAck.log := by simp [State.acknowledged]

end Acknowledged

theorem takeSRx_ackOffered {s : State} (b : Addr) (hchan : s.chan = Channels.silent) : (s.ackOffered b).takeSRx = s.afterAck := by
  have hsame : s.afterAck.chan = Channels.silent := (afterAck_chan s).trans hchan
  change { s.afterAck with chan := Channels.silent } = s.afterAck
  rw [← hsame]

section Acknowledgment
variable {s : State} (b : Addr) (hr : s.host.rst = false)
include hr

theorem leads_ackOffered (hchan : s.chan = Channels.silent) (hst : s.rcv.state = .ack)
    (hack : s.params.ackPayload.length ≤ Config.mss) :
    Leads [.receiver, .transport (.accept .toSender b), .transport (.offer .toSender 0)] s (s.ackOffered b) := by
  have hemitted : ((s.emitRTx (ackPacket s.params s.rcv.seqNum) s.rcv.src).afterAck).chan =
      { Channels.silent with rTx := [{ bytes := ackPacket s.params s.rcv.seqNum, addr := s.rcv.src }] } := by
    simp [hchan, Channels.silent]
  have hback := (leads_ack hr hst hack).cons (leads_toSender hemitted b)
  rw [afterAck_emitRTx] at hback
  exact hback

theorem leads_takeAck {m : Datagram} (hsc : s.host.sCancel = false) (hwait : s.snd.state = .waitAck)
    (ht : s.snd.timerState = .running) (hm : s.chan.sRx = some m) (hok : packetOk m.bytes = true) :
    Leads [.sender, .sender] s (((s.takeSRx.stopTimer.toggleSeq.countTx).nextUnit).gotoS
      (if s.snd.idx + 1 = s.host.nUnits then .done else .send)) := by
  have htake : Leads [.sender] s ((s.takeSRx.stopTimer.toggleSeq.countTx).gotoS .advance) :=
    .sender hr ((ssel_of_offered hwait hsc ht hm).trans (if_pos hok)) fun rest =>
      exec_sAckOk (s := { s with script := rest }) (m := m) hr hwait hsc ht hm hok
  exact htake.cons (.sender hr (ssel_fires_sAdvance rfl hsc) fun rest =>
    exec_sAdvance (s := { (s.takeSRx.stopTimer.toggleSeq.countTx).gotoS .advance with script := rest }) hr rfl hsc)

theorem leads_acknowledged (hsc : s.host.sCancel = false) (hack : s.params.ackPayload.length ≤ Config.mss)
    (hchan : s.chan = Channels.silent) (hst : s.rcv.state = .ack) (hwait : s.snd.state = .waitAck)
    (ht : s.snd.timerState = .running) :
    Leads [.receiver, .transport (.accept .toSender b), .transport (.offer .toSender 0), .sender, .sender] s
      s.acknowledged := by
  have hok : packetOk (ackPacket s.params s.rcv.seqNum) = true := packetOk_makePacket _ hack
  have hsnd : (s.ackOffered b).snd = s.snd := afterAck_snd s
  have hhost : (s.ackOffered b).host = s.host := afterAck_host s
  have htake := leads_takeAck (s := s.ackOffered b) (by rwa [hhost]) (by rwa [hhost]) (by rwa [hsnd]) (by rwa [hsnd]) rfl hok
  rw [takeSRx_ackOffered b hchan, hsnd, hhost] at htake
  exact (leads_ackOffered b hr hchan hst hack).append htake

end Acknowledgment

/-! ## What the machine holds between two rounds -/

/-- The machine of `s₀` when `n` units have been sent and acknowledged, with the events the sink has seen by then. -/
structure Delivered (s₀ : State) (n : Nat) (events : List SinkEvent) (s : State) : Prop where
  params : s.params = s₀.params
  host : s.host = s₀.host
  chan : s.chan = Channels.silent
  halted : s.snd.halted = false
  idx : s.snd.idx = BitVec.ofNat 32 n
  parity : s.snd.seqNum.value = n % 2
  txCount : s.snd.txCount = BitVec.ofNat 32 (2 * n)
  retxCount : s.snd.retxCount = 0
  sink : s.log.sink = events
  sDiag : s.log.sDiag = s₀.log.sDiag
  rDiag : s.log.rDiag = s₀.log.rDiag

/-- Both machines are ready for the next unit, and the receiver expects the number the sender will use. -/
structure Ready (s : State) : Prop where
  send : s.snd.state = .send
  wait : s.rcv.state = .waitPacket
  expected : s.rcv.expected = s.snd.seqNum

/-- Both machines are done, the last unit being unit `n`; only the EOF packet of `S_DONE_EOF` is to come. -/
structure Ended (n : Nat) (s : State) : Prop where
  sent : s.snd.state = .done
  received : s.rcv.state = .done
  named : s.rcv.extReceived = true
  expected : s.rcv.expected.value = n % 2

/-- What the host sets up and the transport leaves alone in such a transfer (R301, R6). -/
structure Lossless (s₀ : State) : Prop where
  params : s₀.params.wf = true
  rst : s₀.host.rst = false
  sCancel : s₀.host.sCancel = false
  rCancel : s₀.host.rCancel = false
  fits : s₀.host.units.length < 2 ^ 32
  nUnits : s₀.host.nUnits = BitVec.ofNat 32 s₀.host.units.length
  units : Memory.wf s₀.host.units = true

/-- What every operation on a valid packet leaves alone, for the acknowledgment to come. -/
structure Processed (s u : State) : Prop where
  params : u.params = s.params
  host : u.host = s.host
  snd : u.snd = s.snd
  chan : u.chan = s.chan
  sDiag : u.log.sDiag = s.log.sDiag
  rDiag : u.log.rDiag = s.log.rDiag
  ack : u.rcv.state = .ack

/-- `R_EXT` (R215). -/
theorem processed_of_name (s : State) (a : Addr) (p : Bytes) (q : SeqNum) (f : Bool) :
    Processed s (((((s.latchName a p).emitSink (.name a p)).toggleExpected).latchAck q f).gotoR .ack) :=
  ⟨rfl, rfl, rfl, rfl, rfl, rfl, rfl⟩

/-- `R_DATA` (R217). -/
theorem processed_of_append (s : State) (p : Bytes) (q : SeqNum) :
    Processed s ((((s.emitSink (.append p)).toggleExpected).latchAck q false).gotoR .ack) :=
  ⟨rfl, rfl, rfl, rfl, rfl, rfl, rfl⟩

/-- `R_EOF` (R218). -/
theorem processed_of_marker (s : State) (q : SeqNum) : Processed s ((s.latchAck q true).gotoR .ack) :=
  ⟨rfl, rfl, rfl, rfl, rfl, rfl, rfl⟩

theorem lt_length_of_getElem? {l : List Bytes} {n : Nat} {p : Bytes} (h : l[n]? = some p) : n < l.length :=
  (List.getElem?_eq_some_iff.mp h).1

/-- The sender after a round, from the one before it. -/
theorem acknowledged_snd {s u : State} {p : Bytes} {a : Addr} (hu : Processed (s.unitArrived p a) u) :
    u.acknowledged.snd =
      { s.snd with
        state := if s.snd.idx + 1 = s.host.nUnits then .done else .send
        seqNum := s.snd.seqNum.toggle
        idx := s.snd.idx + 1
        txCount := s.snd.txCount + 1 + 1
        sentAny := true
        tmrRun := false
        tmrCnt := 0 } := by
  simp only [State.acknowledged, State.gotoS_snd, State.nextUnit_snd, State.countTx_snd, State.toggleSeq_snd,
    State.stopTimer_snd, afterAck_snd, hu.snd, hu.host, unitArrived_snd, unitArrived_host]

theorem acknowledged_delivered {s₀ s u : State} {n : Nat} {events : List SinkEvent} {p : Bytes} {a : Addr}
    (hD : Delivered s₀ n events s) (hu : Processed (s.unitArrived p a) u) :
    Delivered s₀ (n + 1) u.afterAck.log.sink u.acknowledged where
  params := by rw [acknowledged_params, hu.params, unitArrived_params, hD.params]
  host := by rw [acknowledged_host, hu.host, unitArrived_host, hD.host]
  chan := by rw [acknowledged_chan, hu.chan, unitArrived_chan, hD.chan]
  halted := by rw [acknowledged_snd hu]; exact hD.halted
  idx := by rw [acknowledged_snd hu, hD.idx, BitVec.ofNat_add]; rfl
  parity := by
    have hflip := value_toggle s.snd.seqNum
    have hpar := hD.parity
    rw [acknowledged_snd hu]
    change s.snd.seqNum.toggle.value = _
    omega
  txCount := by
    rw [acknowledged_snd hu, hD.txCount, Nat.mul_add, BitVec.ofNat_add, BitVec.add_assoc]
    rfl
  retxCount := by rw [acknowledged_snd hu]; exact hD.retxCount
  sink := by rw [acknowledged_log]
  sDiag := by rw [acknowledged_log, afterAck_sDiag, hu.sDiag, unitArrived_log, hD.sDiag]
  rDiag := by rw [acknowledged_log, afterAck_rDiag, hu.rDiag, unitArrived_log, hD.rDiag]

section Round
variable {s₀ s u : State} {n : Nat} {events : List SinkEvent} {p : Bytes} (hL : Lossless s₀)
  (hD : Delivered s₀ n events s) (hR : Ready s) (hp : s₀.host.units[n]? = some p)
include hL hp

theorem Lossless.unit_length : p.length ≤ Config.mss :=
  (payloadOk_iff p).mp (List.all_eq_true.mp hL.units p (List.mem_of_getElem? hp))

theorem Lossless.idx_toNat : (BitVec.ofNat 32 n).toNat = n :=
  (BitVec.toNat_ofNat n 32).trans (Nat.mod_eq_of_lt ((lt_length_of_getElem? hp).trans hL.fits))

theorem Lossless.idx_lt : BitVec.ofNat 32 n < s₀.host.nUnits := by
  have hfits := hL.fits
  rw [hL.nUnits, BitVec.lt_def, hL.idx_toNat hp, BitVec.toNat_ofNat, Nat.mod_eq_of_lt hfits]
  exact lt_length_of_getElem? hp

theorem Lossless.last_iff : BitVec.ofNat 32 n + 1 = s₀.host.nUnits ↔ n + 1 = s₀.host.units.length := by
  have hfits := hL.fits
  have hlt := lt_length_of_getElem? hp
  rw [hL.nUnits, ← BitVec.toNat_inj, BitVec.toNat_add, hL.idx_toNat hp, BitVec.toNat_ofNat, Nat.mod_eq_of_lt hfits]
  change (n + 1) % 2 ^ 32 = _ ↔ _
  rw [Nat.mod_eq_of_lt (by omega)]

include hD hR

theorem leads_arrival (a : Addr) :
    Leads [.sender, .transport (.accept .toReceiver a), .transport (.offer .toReceiver 0), .receiver] s
      (s.unitArrived p a) := by
  have hidx : s.snd.idx < s.host.nUnits := by rw [hD.idx, hD.host]; exact hL.idx_lt hp
  have hread : memRead s.host.units s.snd.idx = some p := by
    rw [hD.idx, hD.host, memRead, hL.idx_toNat hp]
    exact hp
  exact leads_unitArrived a (by rw [hD.host, hL.rst]) (by rw [hD.host, hL.sCancel]) (by rw [hD.host, hL.rCancel]) hD.chan
    hR.send hR.wait hidx hread (hL.unit_length hp)

variable {a : Addr} (hu : Processed (s.unitArrived p a) u)
include hu

/-- One round of turns: the unit goes over, is processed, and its acknowledgment comes back. -/
theorem leads_round (b : Addr) (hprocess : Leads [.receiver] (s.unitArrived p a) u) :
    Leads (deliveryRound a b) s u.acknowledged := by
  have hparams : u.params = s₀.params := by rw [hu.params, unitArrived_params, hD.params]
  have hhost : u.host = s₀.host := by rw [hu.host, unitArrived_host, hD.host]
  have hack : s₀.params.ackPayload.length ≤ Config.mss := by
    have hwf := hL.params
    simp only [Config.Params.wf, Bool.and_eq_true, decide_eq_true_eq] at hwf
    exact hwf.1.2
  have hrunning : u.snd.timerState = .running := by
    rw [hu.snd, timerState_running_iff_count, unitArrived_snd, hD.params]
    exact ⟨rfl, txTimeoutTicks_ne_zero hL.params⟩
  have hback := leads_acknowledged (s := u) b (by rw [hhost, hL.rst]) (by rw [hhost, hL.sCancel]) (by rw [hparams]; exact hack)
    (hu.chan.trans hD.chan) hu.ack (by rw [hu.snd, unitArrived_snd]) hrunning
  exact ((leads_arrival hL hD hR hp a).append hprocess).append hback

/-- A round after which the transfer goes on: the receiver expects the other number, and one event was added. -/
theorem round_continues (b : Addr) (hprocess : Leads [.receiver] (s.unitArrived p a) u) (heof : u.rcv.eof = false)
    (hexp : u.rcv.expected = s.rcv.expected.toggle) (hext : u.rcv.extReceived = true) {e : SinkEvent}
    (hsink : u.log.sink = s.log.sink ++ [e]) (hmore : n + 1 < s₀.host.units.length) :
    ∃ t, Leads (deliveryRound a b) s t ∧ Delivered s₀ (n + 1) (events ++ [e]) t ∧ Ready t ∧ t.rcv.extReceived = true := by
  have hdelivered := acknowledged_delivered hD hu
  have hnext : s.snd.idx + 1 ≠ s.host.nUnits := by
    rw [hD.idx, hD.host, Ne, hL.last_iff hp]
    exact Nat.ne_of_lt hmore
  have hrcv : u.acknowledged.rcv = { u.rcv with state := .waitPacket, idleCnt := u.params.rxTimeoutTicks } := by
    rw [acknowledged_rcv, afterAck_of_not_eof u heof]; rfl
  rw [afterAck_of_not_eof u heof, State.gotoR_log, State.reloadIdle_log, hsink, hD.sink] at hdelivered
  refine ⟨u.acknowledged, leads_round hL hD hR hp hu b hprocess, hdelivered, ⟨?_, ?_, ?_⟩, ?_⟩
  · rw [acknowledged_snd hu, if_neg hnext]
  · rw [hrcv]
  · rw [hrcv, acknowledged_snd hu, hexp, hR.expected]
  · rw [hrcv, hext]

/-- The last round: the receiver is done, and the sender has no unit left. -/
theorem round_ends (b : Addr) (hprocess : Leads [.receiver] (s.unitArrived p a) u) (heof : u.rcv.eof = true)
    (hexp : u.rcv.expected = s.rcv.expected) (hext : u.rcv.extReceived = true) (hsink : u.log.sink = s.log.sink)
    (hlast : n + 1 = s₀.host.units.length) :
    ∃ t, Leads (deliveryRound a b) s t ∧ Delivered s₀ (n + 1) (events ++ [.close]) t ∧ Ended n t := by
  have hdelivered := acknowledged_delivered hD hu
  have hrcv : u.acknowledged.rcv = { u.rcv with state := .done } := by
    rw [acknowledged_rcv, afterAck_of_eof u heof]; rfl
  rw [afterAck_of_eof u heof, State.gotoR_log, State.emitSink_log, hsink, hD.sink] at hdelivered
  refine ⟨u.acknowledged, leads_round hL hD hR hp hu b hprocess, hdelivered, ⟨?_, ?_, ?_, ?_⟩⟩
  · rw [acknowledged_snd hu, if_pos (by rw [hD.idx, hD.host, hL.last_iff hp, hlast])]
  · rw [hrcv]
  · rw [hrcv, hext]
  · rw [hrcv, hexp, hR.expected, hD.parity]

omit hu

theorem round_of_extension (a b : Addr) (hx : s.rcv.extReceived = false) (he : p ≠ Config.eofMarker)
    (hmore : n + 1 < s₀.host.units.length) :
    ∃ t, Leads (deliveryRound a b) s t ∧ Delivered s₀ (n + 1) (events ++ [.name (s₀.params.addr a) p]) t ∧ Ready t ∧
      t.rcv.extReceived = true := by
  have hr : (s.unitArrived p a).host.rst = false := by rw [unitArrived_host, hD.host, hL.rst]
  have hprocess := leads_ext (q := s.snd.seqNum) (p := p) hr rfl (hL.unit_length hp) rfl hx
  rw [isEof_eq_false he] at hprocess
  exact round_continues hL hD hR hp (processed_of_name _ _ _ _ _) b hprocess rfl (by simp) rfl (by simp [hD.params]) hmore

theorem round_of_piece (a b : Addr) (hx : s.rcv.extReceived = true) (he : p ≠ Config.eofMarker)
    (hmore : n + 1 < s₀.host.units.length) :
    ∃ t, Leads (deliveryRound a b) s t ∧ Delivered s₀ (n + 1) (events ++ [.append p]) t ∧ Ready t ∧
      t.rcv.extReceived = true := by
  have hr : (s.unitArrived p a).host.rst = false := by rw [unitArrived_host, hD.host, hL.rst]
  have hprocess := leads_data (q := s.snd.seqNum) (p := p) hr rfl (hL.unit_length hp) rfl hx hR.expected.symm he
  exact round_continues hL hD hR hp (processed_of_append _ _ _) b hprocess rfl (by simp) (by simp [hx]) (by simp) hmore

theorem round_of_marker (a b : Addr) (hx : s.rcv.extReceived = true) (he : p = Config.eofMarker)
    (hlast : n + 1 = s₀.host.units.length) :
    ∃ t, Leads (deliveryRound a b) s t ∧ Delivered s₀ (n + 1) (events ++ [.close]) t ∧ Ended n t := by
  have hr : (s.unitArrived p a).host.rst = false := by rw [unitArrived_host, hD.host, hL.rst]
  have hprocess := leads_eof (q := s.snd.seqNum) (p := p) hr rfl (hL.unit_length hp) rfl hx hR.expected.symm he
  exact round_ends hL hD hR hp (processed_of_marker _ _) b hprocess rfl (by simp) (by simp [hx]) (by simp) hlast

end Round

/-! ## The whole transfer -/

/-- The rounds of the pieces and of the EOF marker behind them, by induction on the pieces. -/
theorem rounds_of_pieces {s₀ : State} (hL : Lossless s₀) (a b : Addr) {pieces : List Bytes}
    (hne : ∀ p ∈ pieces, p ≠ Config.eofMarker) {n : Nat} {events : List SinkEvent} {s : State}
    (hD : Delivered s₀ n events s) (hR : Ready s) (hx : s.rcv.extReceived = true)
    (hunits : s₀.host.units.drop n = pieces ++ [Config.eofMarker]) :
    ∃ t, Leads (List.replicate (pieces.length + 1) (deliveryRound a b)).flatten s t ∧
      Delivered s₀ (n + pieces.length + 1) (events ++ pieces.map .append ++ [.close]) t ∧ Ended (n + pieces.length) t := by
  have hlength : s₀.host.units.length - n = pieces.length + 1 := by
    simpa using congrArg List.length hunits
  have hunit : s₀.host.units[n]? = (pieces ++ [Config.eofMarker])[0]? := by
    rw [← hunits, List.getElem?_drop, Nat.add_zero]
  rw [List.replicate_succ, List.flatten_cons]
  induction pieces generalizing n events s with
  | nil =>
    obtain ⟨t, hleads, hdelivered, hended⟩ := round_of_marker hL hD hR hunit a b hx rfl (by simp at hlength; omega)
    refine ⟨t, by simpa using hleads, by simpa using hdelivered, hended⟩
  | cons p rest ih =>
    rw [List.forall_mem_cons] at hne
    rw [List.length_cons] at hlength
    have hrest : s₀.host.units.drop (n + 1) = rest ++ [Config.eofMarker] := by
      rw [← List.tail_drop, hunits]; rfl
    obtain ⟨u, hfirst, hdelivered, hready, hnamed⟩ := round_of_piece hL hD hR hunit a b hx hne.1 (by omega)
    obtain ⟨t, hleads, ht, hended⟩ := ih hne.2 hdelivered hready hnamed hrest (by omega)
      (by rw [← hrest, List.getElem?_drop, Nat.add_zero])
    have hcount : n + 1 + rest.length = n + (rest.length + 1) := by omega
    rw [hcount] at ht hended
    refine ⟨t, hfirst.append ?_, by simpa using ht, hended⟩
    rw [List.length_cons, List.replicate_succ, List.flatten_cons]
    exact hleads

/-- All rounds: the extension's, those of the pieces, the marker's. -/
theorem rounds_of_file {s₀ : State} (hL : Lossless s₀) (a b : Addr) {ext file : Bytes}
    (hunits : s₀.host.units = transferUnits ext file) (hext : ext ≠ Config.eofMarker)
    (hne : ∀ p ∈ split file, p ≠ Config.eofMarker) (hD : Delivered s₀ 0 [] s₀) (hR : Ready s₀)
    (hx : s₀.rcv.extReceived = false) :
    ∃ t, Leads (List.replicate (transferUnits ext file).length (deliveryRound a b)).flatten s₀ t ∧
      Delivered s₀ (transferUnits ext file).length
        ([.name (s₀.params.addr a) ext] ++ (split file).map .append ++ [.close]) t ∧
      Ended ((transferUnits ext file).length - 1) t := by
  have hunit : s₀.host.units[0]? = some ext := by rw [hunits]; rfl
  have hlength : (transferUnits ext file).length = (split file).length + 2 := transferUnits_length ext file
  obtain ⟨u, hfirst, hdelivered, hready, hnamed⟩ :=
    round_of_extension hL hD hR hunit a b hx hext (by rw [hunits, hlength]; omega)
  obtain ⟨t, hleads, ht, hended⟩ := rounds_of_pieces hL a b hne hdelivered hready hnamed (by rw [hunits]; rfl)
  have hcount : 0 + 1 + (split file).length + 1 = (split file).length + 2 := by omega
  have hlast : 0 + 1 + (split file).length = (split file).length + 2 - 1 := by omega
  rw [hcount] at ht
  rw [hlast] at hended
  rw [hlength]
  exact ⟨t, hfirst.append hleads, ht, hended⟩

theorem fileContent_appends (pieces : List Bytes) : fileContent (pieces.map .append ++ [.close]) = pieces.flatten := by
  induction pieces with
  | nil => rfl
  | cons p rest ih => rw [List.flatten_cons, ← ih]; rfl

theorem deliveryScript_length (a b : Addr) (n : Nat) : (deliveryScript a b n).length = 10 * n + 1 := by
  simp [deliveryScript, deliveryRound, Nat.mul_comm]

/-- Settles O60: the round of each unit in turn, by induction on the pieces of the file, then `S_DONE_EOF`. -/
theorem losslessTransferDeliversTheFile : Obligations.LosslessTransferDeliversTheFile := by
  intro s ext file a b hparams hr hsc hrc hunits hfits hn hext hextne hne hsnd hwait hexp hx hchan hsink hscript
  have hL : Lossless s :=
    { params := hparams, rst := hr, sCancel := hsc, rCancel := hrc
      fits := by rwa [hunits]
      nUnits := by rwa [hunits]
      units := by rw [hunits]; exact transferUnits_wf file ((payloadOk_iff ext).mpr hext) }
  have hD : Delivered s 0 [] s :=
    { params := rfl, host := rfl, chan := hchan, sink := hsink, sDiag := rfl, rDiag := rfl
      halted := by rw [hsnd]; rfl
      idx := by rw [hsnd]; rfl
      parity := by rw [hsnd]; rfl
      txCount := by rw [hsnd]; rfl
      retxCount := by rw [hsnd]; rfl }
  have hR : Ready s := { send := by rw [hsnd]; rfl, wait := hwait, expected := by rw [hexp, hsnd]; rfl }
  obtain ⟨t, hleads, ht, hended⟩ := rounds_of_file hL a b hunits hextne hne hD hR hx
  have hrt : t.host.rst = false := by rw [ht.host, hr]
  have hfinal : Leads [.sender] t ((t.emitSTx (eofPacket t.snd.seqNum) t.host.sDest).halt) :=
    .sender hrt (ssel_fires_sDoneEof hended.sent ht.halted) fun rest =>
      exec_sDoneEof (s := { t with script := rest }) hrt hended.sent ht.halted
  have hrun := (hleads.append hfinal).run_eq hscript
  rw [← deliveryScript, deliveryScript_length] at hrun
  refine ⟨_, hrun, ?_, ?_, ?_, ht.sink, ?_, ht.sDiag, ht.rDiag, ht.txCount, ht.retxCount, hended.expected, ?_⟩
  · simp [State.senderTerminal, hended.sent]
  · simp [State.rNamed, hended.received, hended.named]
  · simp [State.rDone, hended.received]
  · exact (congrArg fileContent ht.sink).trans ((fileContent_appends _).trans (flatten_splitFuel le_rfl))
  · simp [ht.chan, ht.host, Channels.silent]

end Machine
end Sys2Proof
end
